-- ==== Sys2Proof/Word.lean ====
section
/-! DEFINITION. The word types. Registers and CSRs are XLEN bits wide (10_state.md R23, R24), XLEN being 32 or
64 (00_scope.md R1, R4). The model is generic in XLEN: a register is held in 64 bits, and on RV32 its upper half
is zero (DESIGN CHOICE, notes/assumptions/2.md). -/

namespace Sys2Proof

/-- The container of a register, a CSR or an address: XLEN bits, zero above them. -/
abbrev Word := BitVec 64

/-- The smallest addressable unit of memory (20_memory.md R80). -/
abbrev Byte := BitVec 8

/-- An instruction as fetched: 32 bits (30_encoding.md R140). -/
abbrev InstrWord := BitVec 32

/-- The parameter XLEN (00_scope.md R4). -/
inductive XLen where
  | rv32
  | rv64
  deriving DecidableEq, Repr

/-- The number of bits XLEN stands for. -/
def XLen.bits : XLen → Nat
  | .rv32 => 32
  | .rv64 => 64

end Sys2Proof
end

