-- ==== Sys2Proof/Syntax.lean ====
section
/-! DEFINITION. The instructions: one constructor per row of spec/opcode_table.json, in the table's order. An operand
has the width its field has in the encoding (30_encoding.md R141, R146), so a value of `Instr` is well-formed by its
type. -/

namespace Sys2Proof

/-- The number of an integer register, 0 to 31 (30_encoding.md R146). -/
abbrev RegIdx := BitVec 5

/-- A CSR number (10_state.md R60). -/
abbrev CsrNum := BitVec 12

inductive Instr where
  /-- environment call (42_ecall_ebreak.md R180) -/
  | ecall
  /-- environment break (42_ecall_ebreak.md R181) -/
  | ebreak
  /-- supervisor-mode trap return (40_trap_return.md R161) -/
  | sret
  /-- machine-mode trap return (40_trap_return.md R160) -/
  | mret
  /-- wait for interrupt (41_sfence_wfi.md R171) -/
  | wfi
  /-- supervisor-mode fence.virtual memory address (41_sfence_wfi.md R170) -/
  | sfenceVma (rs1 rs2 : RegIdx)
  /-- atomic read and write (43_csr_access.md R191) -/
  | csrrw (rd : RegIdx) (csr : CsrNum) (rs1 : RegIdx)
  /-- atomic read and set bits (43_csr_access.md R192) -/
  | csrrs (rd : RegIdx) (csr : CsrNum) (rs1 : RegIdx)
  /-- atomic read and clear bits (43_csr_access.md R193) -/
  | csrrc (rd : RegIdx) (csr : CsrNum) (rs1 : RegIdx)
  /-- read and write immediate (43_csr_access.md R194) -/
  | csrrwi (rd : RegIdx) (csr : CsrNum) (uimm : BitVec 5)
  /-- read and set bits immediate (43_csr_access.md R195) -/
  | csrrsi (rd : RegIdx) (csr : CsrNum) (uimm : BitVec 5)
  /-- read and clear bits immediate (43_csr_access.md R196) -/
  | csrrci (rd : RegIdx) (csr : CsrNum) (uimm : BitVec 5)
  /-- atomic add word (44_amoadd_w.md R205) -/
  | amoaddW (aq rl : Bool) (rd rs1 rs2 : RegIdx)
  deriving DecidableEq, Repr

end Sys2Proof
end

