-- ==== Sys2Proof/Decode.lean ====
section
/-! DEFINITION. From bits to instructions and back (30_encoding.md R140-R153). `decode` is total: a word is an
instruction, or it is rejected by name as an illegal word or as a word outside this spec (R147). -/

namespace Sys2Proof

/-- Why a word is illegal (30_encoding.md R147 classes (a), (b), (c); 60_exceptions.md R217). -/
inductive IllegalWord where
  /-- the SYSTEM opcode with no instruction of R142-R144 (R147(a), R148) -/
  | reservedSystem
  /-- `0x00000000` (R147(b)) -/
  | allZeros
  /-- `0xFFFFFFFF` (R147(b)) -/
  | allOnes
  /-- bits 1:0 are not `0b11`: a 16-bit encoding (R147(c), R140, R150) -/
  | sixteenBit
  deriving DecidableEq, Repr

/-- What decoding a fetched word gives. -/
inductive Decoded where
  | instr (i : Instr)
  /-- the hart raises an illegal-instruction exception on this word -/
  | illegal (why : IllegalWord)
  /-- the word may be an instruction of the base ISA or the A extension: this spec gives it no meaning (R147(d), D11) -/
  | outside
  deriving DecidableEq, Repr

/-! ## Fields (R141, R146) -/

def opcodeOf (w : InstrWord) : BitVec 7 := w.extractLsb' 0 7
def rdOf (w : InstrWord) : RegIdx := w.extractLsb' 7 5
def funct3Of (w : InstrWord) : BitVec 3 := w.extractLsb' 12 3
def rs1Of (w : InstrWord) : RegIdx := w.extractLsb' 15 5
def rs2Of (w : InstrWord) : RegIdx := w.extractLsb' 20 5
def csrOf (w : InstrWord) : CsrNum := w.extractLsb' 20 12
def funct7Of (w : InstrWord) : BitVec 7 := w.extractLsb' 25 7
def funct5Of (w : InstrWord) : BitVec 5 := w.extractLsb' 27 5
def aqOf (w : InstrWord) : Bool := w.getLsbD 26
def rlOf (w : InstrWord) : Bool := w.getLsbD 25

/-- The SYSTEM opcode (R141). -/
def opcodeSystem : BitVec 7 := 0b1110011#7
/-- The AMO opcode (R141). -/
def opcodeAmo : BitVec 7 := 0b0101111#7

/-- SYSTEM with `funct3 = 000`: the five fixed words of R142, `sfence.vma` (R143), all else reserved (R148). -/
def decodePrivileged (w : InstrWord) : Decoded :=
  if w = 0x00000073#32 then .instr .ecall
  else if w = 0x00100073#32 then .instr .ebreak
  else if w = 0x10200073#32 then .instr .sret
  else if w = 0x30200073#32 then .instr .mret
  else if w = 0x10500073#32 then .instr .wfi
  else if funct7Of w = 0b0001001#7 ∧ rdOf w = 0#5 then .instr (.sfenceVma (rs1Of w) (rs2Of w))
  else .illegal .reservedSystem

/-- The SYSTEM opcode by `funct3` (R142-R144, R148). -/
def decodeSystem (w : InstrWord) : Decoded :=
  if funct3Of w = 0b000#3 then decodePrivileged w
  else if funct3Of w = 0b001#3 then .instr (.csrrw (rdOf w) (csrOf w) (rs1Of w))
  else if funct3Of w = 0b010#3 then .instr (.csrrs (rdOf w) (csrOf w) (rs1Of w))
  else if funct3Of w = 0b011#3 then .instr (.csrrc (rdOf w) (csrOf w) (rs1Of w))
  else if funct3Of w = 0b101#3 then .instr (.csrrwi (rdOf w) (csrOf w) (rs1Of w))
  else if funct3Of w = 0b110#3 then .instr (.csrrsi (rdOf w) (csrOf w) (rs1Of w))
  else if funct3Of w = 0b111#3 then .instr (.csrrci (rdOf w) (csrOf w) (rs1Of w))
  else .illegal .reservedSystem

/-- A word that is no instruction of this spec and does not have the SYSTEM opcode (R147(b), (c), (d)). -/
def decodeUnknown (w : InstrWord) : Decoded :=
  if w = 0x00000000#32 then .illegal .allZeros
  else if w = 0xFFFFFFFF#32 then .illegal .allOnes
  else if w.extractLsb' 0 2 ≠ 0b11#2 then .illegal .sixteenBit
  else .outside

/-- Decoding a fetched word (R153). Nothing but the word decides it. -/
def decode (w : InstrWord) : Decoded :=
  if opcodeOf w = opcodeSystem then decodeSystem w
  else if opcodeOf w = opcodeAmo ∧ funct3Of w = 0b010#3 ∧ funct5Of w = 0b00000#5 then
    .instr (.amoaddW (aqOf w) (rlOf w) (rdOf w) (rs1Of w) (rs2Of w))
  else decodeUnknown w

/-! ## Bytes (R140, 20_memory.md R82) -/

/-- The value of bytes in little-endian order, the byte at the lowest address first. -/
def leValue : List Byte → Nat
  | [] => 0
  | b :: bs => b.toNat + 256 * leValue bs

/-- The `n` bytes of `v` in little-endian order, the byte at the lowest address first. -/
def leBytes : Nat → Nat → List Byte
  | 0, _ => []
  | n + 1, v => BitVec.ofNat 8 v :: leBytes n (v / 256)

/-- Decoding the bytes at an address: every instruction is four bytes (R140, R150); the rest is given back. `none`
when fewer than four bytes are there. -/
def decodeBytes : List Byte → Option (Decoded × List Byte)
  | b0 :: b1 :: b2 :: b3 :: rest => some (decode (BitVec.ofNat 32 (leValue [b0, b1, b2, b3])), rest)
  | _ => none

/-- The instruction the decoder reads from the bits `w` (bit 0 the least significant), laid out in memory as four
little-endian bytes; every bit from `nbits` up is zero. -/
def decodeTableWord (nbits w : Nat) : Option Instr :=
  match decodeBytes (leBytes 4 (w % 2 ^ nbits)) with
  | some (.instr i, _) => some i
  | _ => none

/-! ## Encoding -/

/-- The I-type format of the CSR instructions (R141, R144). -/
def encodeCsr (funct3 : BitVec 3) (rd : RegIdx) (csr : CsrNum) (rs1 : BitVec 5) : InstrWord :=
  csr ++ rs1 ++ funct3 ++ rd ++ opcodeSystem

/-- The R-type format (R141). -/
def encodeR (funct7 : BitVec 7) (rs2 rs1 : RegIdx) (funct3 : BitVec 3) (rd : RegIdx) (opcode : BitVec 7) : InstrWord :=
  funct7 ++ rs2 ++ rs1 ++ funct3 ++ rd ++ opcode

/-- The word of an instruction (R142-R145). -/
def encode : Instr → InstrWord
  | .ecall => 0x00000073#32
  | .ebreak => 0x00100073#32
  | .sret => 0x10200073#32
  | .mret => 0x30200073#32
  | .wfi => 0x10500073#32
  | .sfenceVma rs1 rs2 => encodeR 0b0001001#7 rs2 rs1 0b000#3 0#5 opcodeSystem
  | .csrrw rd csr rs1 => encodeCsr 0b001#3 rd csr rs1
  | .csrrs rd csr rs1 => encodeCsr 0b010#3 rd csr rs1
  | .csrrc rd csr rs1 => encodeCsr 0b011#3 rd csr rs1
  | .csrrwi rd csr uimm => encodeCsr 0b101#3 rd csr uimm
  | .csrrsi rd csr uimm => encodeCsr 0b110#3 rd csr uimm
  | .csrrci rd csr uimm => encodeCsr 0b111#3 rd csr uimm
  | .amoaddW aq rl rd rs1 rs2 =>
    encodeR (0b00000#5 ++ BitVec.ofBool aq ++ BitVec.ofBool rl) rs2 rs1 0b010#3 rd opcodeAmo

/-- The instruction's row of spec/opcode_table.json: mask and match (R142-R145, R153). -/
def opcodeRow : Instr → InstrWord × InstrWord
  | .ecall => (0xFFFFFFFF#32, 0x00000073#32)
  | .ebreak => (0xFFFFFFFF#32, 0x00100073#32)
  | .sret => (0xFFFFFFFF#32, 0x10200073#32)
  | .mret => (0xFFFFFFFF#32, 0x30200073#32)
  | .wfi => (0xFFFFFFFF#32, 0x10500073#32)
  | .sfenceVma _ _ => (0xFE007FFF#32, 0x12000073#32)
  | .csrrw _ _ _ => (0x0000707F#32, 0x00001073#32)
  | .csrrs _ _ _ => (0x0000707F#32, 0x00002073#32)
  | .csrrc _ _ _ => (0x0000707F#32, 0x00003073#32)
  | .csrrwi _ _ _ => (0x0000707F#32, 0x00005073#32)
  | .csrrsi _ _ _ => (0x0000707F#32, 0x00006073#32)
  | .csrrci _ _ _ => (0x0000707F#32, 0x00007073#32)
  | .amoaddW _ _ _ _ _ => (0xF800707F#32, 0x0000202F#32)

end Sys2Proof
end

