-- ==== Sys2Proof/Config.lean ====
section
/-! DEFINITION. What an implementation fixes (00_scope.md R4), as plain data that a state carries unchanged
(DESIGN CHOICE, notes/assumptions/1.md), and the free choices of 00_scope.md R9, as opaque constants
(DESIGN CHOICE, notes/assumptions/6.md and 7.md). -/

namespace Sys2Proof

/-- What a region of physical memory is (20_memory.md R87, R126): ordinary memory, read-only memory, or a device. -/
inductive RegionKind where
  | ram
  | rom
  | device
  deriving DecidableEq, Repr

/-- One region of the platform's address map: the plain-data form of the parameter `PMA` (00_scope.md R4,
20_memory.md R87, R125, R126). The flags say which accesses the region supports; for `rom` they are fixed by R87. -/
structure Region where
  base : Nat
  size : Nat
  kind : RegionKind
  fetch : Bool
  load : Bool
  store : Bool
  atomic : Bool
  deriving DecidableEq, Repr

/-- The address-translation modes of `satp` (10_state.md R55, R56; 20_memory.md R113). -/
inductive SatpMode where
  | bare
  | sv32
  | sv39
  | sv48
  deriving DecidableEq, Repr

/-- `AD_POLICY`: the choice of translation step 7 (20_memory.md R108, D6). -/
inductive AdPolicy where
  | fault
  | hardwareUpdate
  | either
  deriving DecidableEq, Repr

/-- `WFI_POLICY` (41_sfence_wfi.md R171, D16). -/
inductive WfiPolicy where
  | nop
  | wait
  | either
  deriving DecidableEq, Repr

/-- The implementation parameters of 00_scope.md R4. `MISALIGNED_TRAPS` has no field: the spec fixes it to true (D2;
DEDUCED, notes/assumptions/21.md). -/
structure Config where
  xlen : XLen
  hasS : Bool
  hasU : Bool
  /-- `PhysicalAddressSize`. -/
  pasize : Nat
  pmpCount : Nat
  asidLen : Nat
  satpModes : List SatpMode
  adPolicy : AdPolicy
  wfiPolicy : WfiPolicy
  /-- `PMA`: the first region that contains an access decides it (DESIGN CHOICE, notes/assumptions/10.md). -/
  regions : List Region
  resetVector : Word
  tvalIllegalBits : Bool
  /-- What the platform's ROM holds (10_state.md R61, I19), in the canonical form of memory. -/
  romContents : List Host.Cell
  deriving DecidableEq, Repr

/-- The configuration `State.reset` takes, where R4 says OPEN. DESIGN CHOICE (notes/assumptions/1.md): RV64 with M, S
and U, the widest formats, one region of ordinary memory over the whole physical address space. The parameters to
which R4 gives a default (`SATP_MODES`, `AD_POLICY`, `WFI_POLICY`, `TVAL_ILLEGAL_BITS`) have it. -/
def Config.default : Config where
  xlen := .rv64
  hasS := true
  hasU := true
  pasize := 56
  pmpCount := 16
  asidLen := 16
  satpModes := [.bare, .sv39]
  adPolicy := .either
  wfiPolicy := .either
  regions := [{ base := 0, size := 2 ^ 56, kind := .ram, fetch := true, load := true, store := true, atomic := true }]
  resetVector := 0x80000000
  tvalIllegalBits := true
  romContents := []

/-- Translation step 7 under `AD_POLICY = Either`: does the translation numbered by its argument fault
(20_memory.md R108, D6)? A free value: it has no body. -/
opaque Config.adFaults : Nat → Bool

/-- `wfi` under `WFI_POLICY = Either`: does this `wfi` wait (41_sfence_wfi.md R171, D16)? A free value. -/
opaque Config.wfiWaits : Nat → Bool

/-- `wfi` below M-mode where R171 says "either raise or continue": does this `wfi` raise (D16)? A free value. -/
opaque Config.wfiTraps : Nat → Bool

/-- Which of the values `satp` held since the last covering fence the walk of this translation uses, 0 the current
one (20_memory.md R121, D45). A free value. -/
opaque Config.staleSatp : Nat → Nat

/-- Which of the values a PTE location held since the last covering fence the read at this level of this translation
returns, 0 the current one (20_memory.md R121, D45). A free value. -/
opaque Config.stalePte : Nat → Nat → Nat

end Sys2Proof
end

