-- ==== Sys2Proof/Machine/State.lean ====
section
/-! DEFINITION. Everything the spec gives the machine, as plain data; the reasons a step can stop; the state after
reset (10_state.md R61, 70_reset_and_hazards.md R270). -/

namespace Sys2Proof.Machine

/-- The privilege modes (10_state.md R20, R21). -/
inductive Mode where
  | user
  | supervisor
  | machine
  deriving DecidableEq, Repr

/-- The four interrupt input lines (00_scope.md R4, 60_exceptions.md R230): `MEIP_in`, `MTIP_in`, `MSIP_in`,
`SEIP_in`. -/
structure Lines where
  meip : Bool
  mtip : Bool
  msip : Bool
  seip : Bool
  deriving DecidableEq, Repr

/-- All four lines low. -/
def Lines.low : Lines := { meip := false, mtip := false, msip := false, seip := false }

/-- Physical memory: (address, byte) pairs, addresses strictly rising, no zero byte; an address that is not listed
reads as zero (20_memory.md R80; DESIGN CHOICE, notes/assumptions/4.md). -/
abbrev Memory := List Host.Cell

/-- One entry of the record behind the address-translation cache (10_state.md R58, 20_memory.md R121): what a
physical location or `satp` held until then, or an `sfence.vma` that covers some translations only. -/
inductive HistEvent where
  /-- these bytes stood at this physical address until the hart overwrote them -/
  | wrote (pa : Nat) (old : List Byte)
  /-- `satp` held this until it was written -/
  | satpWas (old : Word)
  /-- `sfence.vma` with these arguments, `none` for a register field that is `x0` (41_sfence_wfi.md R170) -/
  | fence (va : Option Word) (asid : Option Nat)
  deriving DecidableEq, Repr

/-- The state of the hart, of physical memory, and of the inputs still to come. -/
structure State where
  /-- the implementation parameters, fixed for a run (00_scope.md R4, R9) -/
  cfg : Config
  /-- R20 -/
  priv : Mode
  /-- R22 -/
  pc : Word
  /-- R23; `x0` is read as zero and never written -/
  x : Vector Word 32
  /-- R25-R34 -/
  mstatus : Word
  /-- R35 -/
  mtvec : Word
  /-- R36 -/
  mepc : Word
  /-- R37 -/
  mcause : Word
  /-- R38 -/
  mtval : Word
  /-- R39 -/
  mscratch : Word
  /-- R40 -/
  mie : Word
  /-- R41: the software-written bits SSIP, STIP and `SEIP_sw` of `mip` -/
  mipSw : Word
  /-- R41: the input lines as last sampled, which `mip` shows -/
  lines : Lines
  /-- R42 -/
  medeleg : Word
  /-- R43 -/
  mideleg : Word
  /-- R45, R46: `pmp<i>cfg` -/
  pmpcfg : Vector Byte 16
  /-- R44: `pmpaddr<i>` -/
  pmpaddr : Vector Word 16
  /-- R49 -/
  stvec : Word
  /-- R50 -/
  sepc : Word
  /-- R51 -/
  scause : Word
  /-- R52 -/
  stval : Word
  /-- R53 -/
  sscratch : Word
  /-- R55-R57 -/
  satp : Word
  /-- R59 -/
  waiting : Bool
  /-- R80, R82: physical memory -/
  mem : Memory
  /-- 20_memory.md R123: the numbers (address divided by 4) of the words the hart has written since reset, rising -/
  written : List Nat
  /-- R58, R121: newest entry first (DEDUCED, notes/assumptions/7.md) -/
  hist : List HistEvent
  /-- the model's own: the input lines of the steps to come, one entry a step (DESIGN CHOICE, notes/assumptions/5.md) -/
  inputs : List Lines
  /-- the model's own: the number the next free choice is applied to (DESIGN CHOICE, notes/assumptions/6.md) -/
  draws : Nat
  deriving DecidableEq, Repr

/-- Why a step ends in a fault: never. The spec gives the hart no halt (70_reset_and_hazards.md R278), and every
exception is a trap, which is a next state (60_exceptions.md R234); so the type is empty (DEDUCED,
notes/assumptions/16.md). Safe: nothing is proved from a fault that the hart does not have. -/
inductive Fault where
  deriving DecidableEq, Repr

/-- Why a step is given no meaning. Every one but the first is a refusal that a rule of the spec asks for. -/
inductive Refusal where
  /-- raised by an arm of `exec` whose instruction has no meaning yet (none is left); safe -/
  | notModelled (mnemonic : String)
  /-- raised by the fetch of a word outside this spec, which may be a base-ISA instruction (30_encoding.md R147(d),
  D11); safe -/
  | wordOutsideSpec
  /-- raised by a CSR instruction on a CSR that real harts have and the spec does not define (10_state.md R62, D36);
  safe -/
  | csrOutsideSpec
  /-- raised by a fetch, a page-table access or an `amoadd.w` that reaches a device region (20_memory.md R126, D17);
  safe -/
  | deviceRegion
  /-- raised by a fetch from a word the hart has written since reset (20_memory.md R123, D39); safe -/
  | fetchOfWrittenWord
  deriving DecidableEq, Repr

/-- `satp` after reset: MODE is a member of `SATP_MODES` (10_state.md R61, R55, R56), Bare where it is one and else the
first of the list; the other fields are zero (DESIGN CHOICE, notes/assumptions/3.md). -/
def satpAtReset (c : Config) : Word :=
  if c.satpModes.contains .bare then 0
  else
    match c.satpModes with
    | [] => 0
    | .bare :: _ => 0
    | .sv32 :: _ => 0x80000000
    | .sv39 :: _ => 0x8000000000000000
    | .sv48 :: _ => 0x9000000000000000

/-- The state after reset on a hart with configuration `c` (10_state.md R61, 70_reset_and_hazards.md R270). A value
R61 calls unspecified is zero here, a DESIGN CHOICE (notes/assumptions/3.md, 4.md); `MPP` is 3 where R26 hardwires it. -/
def State.resetOf (c : Config) : State where
  cfg := c
  priv := .machine
  pc := c.resetVector
  x := Vector.replicate 32 0
  mstatus := if c.hasU then 0 else 0x1800
  mtvec := 0
  mepc := 0
  mcause := 0
  mtval := 0
  mscratch := 0
  mie := 0
  mipSw := 0
  lines := .low
  medeleg := 0
  mideleg := 0
  pmpcfg := Vector.replicate 16 0
  pmpaddr := Vector.replicate 16 0
  stvec := 0
  sepc := 0
  scause := 0
  stval := 0
  sscratch := 0
  satp := satpAtReset c
  waiting := false
  mem := c.romContents
  written := []
  hist := []
  inputs := []
  draws := 0

/-- The machine right after reset, on the default configuration (DESIGN CHOICE, notes/assumptions/1.md). -/
def State.reset : State := State.resetOf Config.default

end Sys2Proof.Machine
end

