-- ==== Sys2Proof/Machine/Exception.lean ====
section
/-! DEFINITION. The causes of a trap and their codes (60_exceptions.md R211-R213). -/

namespace Sys2Proof.Machine

/-- The synchronous exceptions (R213), under the names of 00_scope.md R6. -/
inductive Exn where
  | instrAddrMisaligned
  | instrAccessFault
  | illegalInstr
  | breakpoint
  | loadAddrMisaligned
  | loadAccessFault
  | storeAddrMisaligned
  | storeAccessFault
  | ecallU
  | ecallS
  | ecallM
  | instrPageFault
  | loadPageFault
  | storePageFault
  deriving DecidableEq, Repr

/-- The interrupts (R212). -/
inductive Interrupt where
  | mei
  | msi
  | mti
  | sei
  | ssi
  | sti
  deriving DecidableEq, Repr

/-- What a trap is taken for (R210). -/
inductive Cause where
  | exception (e : Exn)
  | interrupt (i : Interrupt)
  deriving DecidableEq, Repr

/-- The codes of R213. -/
def exnCode : Exn → Nat
  | .instrAddrMisaligned => 0
  | .instrAccessFault => 1
  | .illegalInstr => 2
  | .breakpoint => 3
  | .loadAddrMisaligned => 4
  | .loadAccessFault => 5
  | .storeAddrMisaligned => 6
  | .storeAccessFault => 7
  | .ecallU => 8
  | .ecallS => 9
  | .ecallM => 11
  | .instrPageFault => 12
  | .loadPageFault => 13
  | .storePageFault => 15

/-- The codes of R212, which are also the bit positions in `mip`, `mie` and `mideleg` (10_state.md R40, R41, R43). -/
def interruptCode : Interrupt → Nat
  | .mei => 11
  | .msi => 3
  | .mti => 7
  | .sei => 9
  | .ssi => 1
  | .sti => 5

/-- The value written to `mcause` or `scause` (R211): the Interrupt bit at XLEN-1, the code below it. -/
def causeValue (x : XLen) : Cause → Word
  | .exception e => BitVec.ofNat 64 (exnCode e)
  | .interrupt i => BitVec.ofNat 64 (2 ^ (x.bits - 1) + interruptCode i)

end Sys2Proof.Machine
end

