-- ==== Sys2Proof/Machine/Bits.lean ====
section
/-! DEFINITION. Bit-field helpers and the XLEN-dependent arithmetic of 00_scope.md R5 and R6. -/

namespace Sys2Proof.Machine

/-- `old` with the bits of `mask` taken from `new`. -/
def withMask (old new mask : Word) : Word := (old &&& ~~~mask) ||| (new &&& mask)

/-- `w` with bit `i` set to `b`. -/
def withBit (w : Word) (i : Nat) (b : Bool) : Word :=
  withMask w (if b then BitVec.twoPow 64 i else 0#64) (BitVec.twoPow 64 i)

/-- The word whose low `n` bits are one. -/
def lowMask (n : Nat) : Word := BitVec.ofNat 64 (2 ^ n - 1)

/-- `w` with bits 1:0 cleared (10_state.md R35, R36, R49, R50). -/
def clearLow2 (w : Word) : Word := w &&& ~~~3#64

/-- The low XLEN bits of `w`: reduction modulo 2^XLEN (10_state.md R22). -/
def truncXlen (x : XLen) (w : Word) : Word :=
  match x with
  | .rv32 => w &&& 0xFFFFFFFF#64
  | .rv64 => w

/-- `sext_XLEN` of a 32-bit value (00_scope.md R6). -/
def sextXlen (x : XLen) (v : BitVec 32) : Word :=
  match x with
  | .rv32 => v.setWidth 64
  | .rv64 => v.signExtend 64

/-- The low 32 bits of a register (44_amoadd_w.md R205). -/
def low32 (w : Word) : BitVec 32 := w.extractLsb' 0 32

/-- The number of a mode: U = 0, S = 1, M = 3 (10_state.md R21). -/
def modeCode : Mode → Nat
  | .user => 0
  | .supervisor => 1
  | .machine => 3

/-- The mode a two-bit field holds (R21). The reserved value 2, which no field of a reachable state holds (R26, D34),
is read as M (DESIGN CHOICE, notes/assumptions/17.md). -/
def modeOfCode (v : BitVec 2) : Mode :=
  if v = 0#2 then .user else if v = 1#2 then .supervisor else .machine

end Sys2Proof.Machine
end

