-- ==== Sys2Proof/Machine/Flags.lean ====
section
/-! DEFINITION. Status bits. The hart has no condition codes (10_state.md R63): the only flags are fields of
`mstatus` (R25) and the pending and enable bits of `mip` and `mie` (R40, R41). -/

namespace Sys2Proof.Machine

/-! ## Bit positions of `mstatus` (R25) -/

abbrev bitSIE : Nat := 1
abbrev bitMIE : Nat := 3
abbrev bitSPIE : Nat := 5
abbrev bitMPIE : Nat := 7
abbrev bitSPP : Nat := 8
abbrev bitMPRV : Nat := 17
abbrev bitSUM : Nat := 18
abbrev bitMXR : Nat := 19
abbrev bitTVM : Nat := 20
abbrev bitTW : Nat := 21
abbrev bitTSR : Nat := 22

/-- The bits of `mstatus.MPP`, 12:11 (R25). -/
def maskMPP : Word := 0x1800

/-- One bit of `mstatus`. -/
def State.flag (s : State) (i : Nat) : Bool := s.mstatus.getLsbD i

/-- `mstatus.MPP` of an `mstatus` value, as a mode (R21, R26). -/
def mppOf (m : Word) : Mode := modeOfCode (m.extractLsb' 11 2)

/-- An `mstatus` value with MPP set to a mode. -/
def withMpp (m : Word) (p : Mode) : Word := withMask m (BitVec.ofNat 64 (modeCode p * 2 ^ 11)) maskMPP

/-- `mstatus.SPP` as a mode: 0 is U, 1 is S (R21, R27). -/
def sppOf (m : Word) : Mode := if m.getLsbD bitSPP then .supervisor else .user

/-! ## Which fields software may write (R34, R47, R48) -/

/-- The bits of `mstatus` other than MPP that a write changes (R34): MIE and MPIE always; SIE, SPIE, SPP, SUM, MXR,
TVM, TW, TSR with S-mode; MPRV with U-mode. -/
def mstatusWritable (c : Config) : Word :=
  0x88#64 ||| (if c.hasS then 0x7C0122#64 else 0#64) ||| (if c.hasU then 0x20000#64 else 0#64)

/-- The bits of `mstatus` that `sstatus` shows and writes (R47, R48). -/
def sstatusMask : Word := 0x000C0122

/-- Is this a mode the configuration has (00_scope.md R2)? -/
def hasMode (c : Config) : Mode → Bool
  | .user => c.hasU
  | .supervisor => c.hasS
  | .machine => true

/-- The two bits are a mode the configuration has: the values a write to MPP accepts (R26, R34, D34). -/
def legalMpp (c : Config) (v : BitVec 2) : Bool :=
  decide (v ≠ 2#2) && hasMode c (modeOfCode v)

/-- `mstatus` after an explicit write of `v` (R34). -/
def mstatusWritten (c : Config) (old v : Word) : Word :=
  let m := withMask old v (mstatusWritable c)
  if legalMpp c (v.extractLsb' 11 2) then withMask m v maskMPP else m

/-! ## Interrupt bits (R40, R41, R54; 60_exceptions.md R230) -/

/-- The supervisor interrupt bits 1, 5, 9, which exist with S-mode (R40, R41; DEDUCED, notes/assumptions/18.md). -/
def supervisorBits (c : Config) : Word := if c.hasS then 0x222 else 0

/-- The interrupt bits that exist in `mie` and `mip` (R40, R41). -/
def interruptBits (c : Config) : Word := 0x888 ||| supervisorBits c

/-- The input lines at their bits of `mip`: MEIP 11, MTIP 7, MSIP 3, SEIP 9 (R41). -/
def linesWord (l : Lines) : Word :=
  (if l.meip then 0x800#64 else 0#64) ||| (if l.mtip then 0x080#64 else 0#64)
    ||| (if l.msip then 0x008#64 else 0#64) ||| (if l.seip then 0x200#64 else 0#64)

/-- `mip` as a CSR read and the interrupt logic see it: bit 9 is `SEIP_sw or SEIP_in` (R41). -/
def State.mip (s : State) : Word := (s.mipSw ||| linesWord s.lines) &&& interruptBits s.cfg

/-- `mip` as a set or clear instruction modifies it: bit 9 is `SEIP_sw` alone (R41; 43_csr_access.md R192). -/
def State.mipForModify (s : State) : Word :=
  (s.mipSw ||| linesWord { s.lines with seip := false }) &&& interruptBits s.cfg

/-- Some interrupt is pending and enabled in `mie`: the wake-up condition of `wfi` (41_sfence_wfi.md R171). -/
def State.wakeUp (s : State) : Bool := decide (s.mip &&& s.mie ≠ 0#64)

end Sys2Proof.Machine
end

