-- ==== Sys2Proof/WellFormed.lean ====
section
/-! DEFINITION. Well-formedness checks. An instruction is well-formed by its type (each operand has its field's width,
30_encoding.md R141), so no check is left for `Instr`. A configuration is plain data and is checked here, one Boolean
per clause of 00_scope.md R2 and R4. -/

namespace Sys2Proof

/-- R2, D26: S-mode comes only with U-mode. -/
def Config.modesOk (c : Config) : Bool := !c.hasS || c.hasU

/-- R4, D19: `PhysicalAddressSize` is 1 to 34 on RV32 and 1 to 56 on RV64. -/
def Config.pasizeOk (c : Config) : Bool :=
  decide (1 ≤ c.pasize) && decide (c.pasize ≤ match c.xlen with | .rv32 => 34 | .rv64 => 56)

/-- R4, D18: at most 16 PMP entries. -/
def Config.pmpCountOk (c : Config) : Bool := decide (c.pmpCount ≤ 16)

/-- R4, D20: `ASIDLEN` is at most the width of the field of `satp`. -/
def Config.asidLenOk (c : Config) : Bool :=
  decide (c.asidLen ≤ match c.xlen with | .rv32 => 9 | .rv64 => 16)

/-- R4, D21, D22: `SATP_MODES` lists modes of this XLEN; with S-mode at least one, since MODE after reset is a member of
it (10_state.md R61; DEDUCED, notes/assumptions/11.md). -/
def Config.satpModesOk (c : Config) : Bool :=
  (!c.hasS || !c.satpModes.isEmpty) &&
    c.satpModes.all fun m =>
      match c.xlen, m with
      | _, .bare => true
      | .rv32, .sv32 => true
      | .rv64, .sv39 => true
      | .rv64, .sv48 => true
      | _, _ => false

/-- R4, D5: `RESET_VECTOR` is a 4-byte aligned XLEN-bit address. -/
def Config.resetVectorOk (c : Config) : Bool :=
  decide (c.resetVector.toNat % 4 = 0) && decide (c.resetVector.toNat < 2 ^ c.xlen.bits)

/-- 20_memory.md R81, D19: nothing exists at or above 2^PASIZE. -/
def Config.regionsOk (c : Config) : Bool :=
  c.regions.all fun r => decide (r.base + r.size ≤ 2 ^ c.pasize)

/-- The cells of a memory in canonical form: addresses strictly rising, no byte that an unlisted address reads as. -/
def cellsOk : List Host.Cell → Bool
  | [] => true
  | [c] => decide (c.2 ≠ 0#8)
  | c :: d :: m => decide (c.2 ≠ 0#8) && decide (c.1 < d.1) && cellsOk (d :: m)

/-- 10_state.md R61: the platform gives contents only for its ROM. -/
def Config.romOk (c : Config) : Bool :=
  cellsOk c.romContents &&
    c.romContents.all fun cell =>
      c.regions.any fun r =>
        decide (r.kind = .rom) && decide (r.base ≤ cell.1) && decide (cell.1 < r.base + r.size)

/-- A configuration that R2 and R4 admit. -/
def Config.wf (c : Config) : Bool :=
  c.modesOk && c.pasizeOk && c.pmpCountOk && c.asidLenOk && c.satpModesOk && c.resetVectorOk && c.regionsOk && c.romOk

end Sys2Proof
end

