-- ==== Sys2Proof/Machine/Ops.lean ====
section
/-! DEFINITION. The named operations over registers and memory, and taking a trap and returning from one, each written
once. -/

namespace Sys2Proof.Machine

/-- What an operation that may raise an exception answers: a value, an exception with its trap value, or a refusal. A
raised exception carries the state, since what was done before it stays (00_scope.md R6; 60_exceptions.md R237). -/
inductive Res (α : Type) where
  | ok (a : α) (s : State)
  | raised (e : Exn) (tval : Word) (s : State)
  | refused (r : Refusal)

/-! ## Integer registers and the program counter -/

/-- `x[r]`: register 0 reads as zero (10_state.md R23). -/
def State.readReg (s : State) (r : RegIdx) : Word :=
  if r = 0#5 then 0#64 else s.x[r.toNat]'r.isLt

/-- `x[r] <- v`: a write to register 0 is discarded (10_state.md R23). -/
def State.writeReg (s : State) (r : RegIdx) (v : Word) : State :=
  { s with x := if r = 0#5 then s.x else s.x.set r.toNat v r.isLt }

/-- `pc <- pc + 4` modulo 2^XLEN (10_state.md R22). -/
def State.advance (s : State) : State := { s with pc := truncXlen s.cfg.xlen (s.pc + 4#64) }

/-! ## Physical memory -/

/-- The byte at an address; an unlisted address reads as zero (DESIGN CHOICE, notes/assumptions/4.md). -/
def Memory.read : Memory → Nat → Byte
  | [], _ => 0#8
  | c :: m, a => if c.1 = a then c.2 else Memory.read m a

/-- The memory after a byte is stored: the entry of the address is replaced, put in its place, or taken out when the
byte is what an unlisted address reads as. -/
def Memory.write : Memory → Nat → Byte → Memory
  | [], a, b => if b = 0#8 then [] else [(a, b)]
  | c :: m, a, b =>
    if a < c.1 then (if b = 0#8 then c :: m else (a, b) :: c :: m)
    else if c.1 = a then (if b = 0#8 then m else (a, b) :: m)
    else c :: Memory.write m a b

/-- The canonical form of a memory: addresses strictly rising, no zero byte. -/
abbrev Memory.wf (m : Memory) : Bool := cellsOk m

/-- The `n` bytes from an address up, lowest address first. -/
def Memory.readBytes (m : Memory) (a : Nat) : Nat → List Byte
  | 0 => []
  | n + 1 => m.read a :: Memory.readBytes m (a + 1) n

/-- Bytes stored from an address up, the first at the lowest address. -/
def Memory.writeBytes (m : Memory) (a : Nat) : List Byte → Memory
  | [] => m
  | b :: bs => Memory.writeBytes (Memory.write m a b) (a + 1) bs

/-- A number put into a rising list without repeats. -/
def insertRising (n : Nat) : List Nat → List Nat
  | [] => [n]
  | k :: ks => if n < k then n :: k :: ks else if k = n then k :: ks else k :: insertRising n ks

/-- The words that `n` bytes from an address up lie in, put into a list of word numbers (20_memory.md R123). -/
def markWords (a : Nat) (ws : List Nat) : Nat → List Nat
  | 0 => ws
  | n + 1 => markWords (a + 1) (insertRising (a / 4) ws) n

/-- `PhysRead(pa, 4)`: little-endian (20_memory.md R82; 00_scope.md R6). -/
def State.physRead32 (s : State) (pa : Nat) : BitVec 32 := BitVec.ofNat 32 (leValue (s.mem.readBytes pa 4))

/-- `PhysWrite(pa, n, v)` of the hart, with the bytes of `v` given (00_scope.md R6). The record of R121 keeps what stood
there and the record of R123 the words written. -/
def State.physWrite (s : State) (pa : Nat) (bytes : List Byte) : State :=
  { s with
    mem := s.mem.writeBytes pa bytes
    written := markWords pa s.written bytes.length
    hist := .wrote pa (s.mem.readBytes pa bytes.length) :: s.hist }

/-! ## Taking a trap and returning from one -/

/-- Is the trap taken in S-mode (60_exceptions.md R234)? -/
def State.delegated (s : State) (c : Cause) : Bool :=
  s.cfg.hasS && decide (s.priv ≠ .machine) &&
    match c with
    | .exception e => s.medeleg.getLsbD (exnCode e)
    | .interrupt i => s.mideleg.getLsbD (interruptCode i)

/-- Trap entry to M-mode (60_exceptions.md R235). -/
def State.trapToM (s : State) (c : Cause) (tval epc : Word) : State :=
  { s with
    mepc := clearLow2 epc
    mcause := causeValue s.cfg.xlen c
    mtval := tval
    mstatus := withMpp (withBit (withBit s.mstatus bitMPIE (s.flag bitMIE)) bitMIE false) s.priv
    priv := .machine
    pc := s.mtvec
    waiting := false }

/-- Trap entry to S-mode (60_exceptions.md R236). -/
def State.trapToS (s : State) (c : Cause) (tval epc : Word) : State :=
  { s with
    sepc := clearLow2 epc
    scause := causeValue s.cfg.xlen c
    stval := tval
    mstatus :=
      withBit (withBit (withBit s.mstatus bitSPIE (s.flag bitSIE)) bitSIE false) bitSPP (decide (s.priv = .supervisor))
    priv := .supervisor
    pc := s.stvec
    waiting := false }

/-- `Trap(cause, tval, epc)` (60_exceptions.md R234): to S-mode when delegated, else to M-mode; the wfi flag is cleared
either way. -/
def State.takeTrap (s : State) (c : Cause) (tval epc : Word) : State :=
  if s.delegated c then s.trapToS c tval epc else s.trapToM c tval epc

/-- `raise E(info)` (00_scope.md R6): the saved pc is the instruction's own (60_exceptions.md R239). -/
def State.raise (s : State) (e : Exn) (tval : Word) : State := s.takeTrap (.exception e) tval s.pc

/-- The trap value of an illegal instruction: the word, zero-extended (60_exceptions.md R217, R238, D14), or zero on a
hart that does not capture it (`TVAL_ILLEGAL_BITS` false, I26). -/
def illegalTval (c : Config) (w : InstrWord) : Word := if c.tvalIllegalBits then w.setWidth 64 else 0#64

/-- `raise IllegalInstr(w)` (60_exceptions.md R217). -/
def State.raiseIllegal (s : State) (w : InstrWord) : State := s.raise .illegalInstr (illegalTval s.cfg w)

/-- The five assignments of `mret` (40_trap_return.md R160). -/
def State.returnFromM (s : State) : State :=
  { s with
    pc := s.mepc
    priv := mppOf s.mstatus
    mstatus :=
      withMpp (withBit (withBit s.mstatus bitMIE (s.flag bitMPIE)) bitMPIE true)
        (if s.cfg.hasU then .user else .machine) }

/-- The five assignments of `sret` (40_trap_return.md R161). -/
def State.returnFromS (s : State) : State :=
  { s with
    pc := s.sepc
    priv := sppOf s.mstatus
    mstatus := withBit (withBit (withBit s.mstatus bitSIE (s.flag bitSPIE)) bitSPIE true) bitSPP false }

end Sys2Proof.Machine
end

