-- ==== Sys2Proof/Machine/Protection.lean ====
section
/-! DEFINITION. Which physical addresses an access may reach: physical memory attributes (20_memory.md R81, R87, R125,
R126) and physical memory protection (R115-R118). -/

namespace Sys2Proof.Machine

/-- The access kinds (20_memory.md R83). -/
inductive Access where
  | fetch
  | load
  | store
  deriving DecidableEq, Repr

/-! ## Physical memory attributes -/

/-- Does the region support the access? ROM "allows Fetch and Load and denies Store" (R87). -/
def regionPermits (r : Region) : Access → Bool
  | .fetch => r.fetch || decide (r.kind = .rom)
  | .load => r.load || decide (r.kind = .rom)
  | .store => r.store && decide (r.kind ≠ .rom)

/-- Does the region hold the whole of `[pa, pa+n)`? -/
def regionHolds (pa n : Nat) (r : Region) : Bool := decide (r.base ≤ pa) && decide (pa + n ≤ r.base + r.size)

/-- The region that decides an access: the first that holds it; none for an address with a bit at or above PASIZE
(R81, D19; DESIGN CHOICE, notes/assumptions/10.md). -/
def regionOf (c : Config) (pa n : Nat) : Option Region :=
  if pa + n ≤ 2 ^ c.pasize then c.regions.find? (regionHolds pa n) else none

/-- `PMA(pa, n, acc)` (00_scope.md R4; 20_memory.md R87). -/
def pmaAllows (c : Config) (pa n : Nat) (acc : Access) : Bool :=
  match regionOf c pa n with
  | none => false
  | some r => regionPermits r acc

/-- Does the region support atomic memory operations (44_amoadd_w.md R205)? -/
def pmaAtomic (c : Config) (pa n : Nat) : Bool :=
  match regionOf c pa n with
  | none => false
  | some r => r.atomic

/-- Is the address in a device region (20_memory.md R126)? -/
def pmaDevice (c : Config) (pa n : Nat) : Bool :=
  match regionOf c pa n with
  | none => false
  | some r => decide (r.kind = .device)

/-! ## Physical memory protection -/

/-- `pmp<i>cfg`; zero where there is no such entry. -/
def State.pmpCfg (s : State) (i : Nat) : Byte := if h : i < 16 then s.pmpcfg[i] else 0#8

/-- `pmpaddr<i>`; zero where there is no such entry. -/
def State.pmpAddr (s : State) (i : Nat) : Word := if h : i < 16 then s.pmpaddr[i] else 0#64

/-- The R, W, X, L bits and the A field of a configuration byte (10_state.md R46). -/
def pmpR (b : Byte) : Bool := b.getLsbD 0
def pmpW (b : Byte) : Bool := b.getLsbD 1
def pmpX (b : Byte) : Bool := b.getLsbD 2
def pmpA (b : Byte) : BitVec 2 := b.extractLsb' 3 2
def pmpL (b : Byte) : Bool := b.getLsbD 7

/-- The number of consecutive one bits of `a` from bit `i` upward, at most `n`. -/
def onesFrom (a : Word) (i : Nat) : Nat → Nat
  | 0 => 0
  | n + 1 => if a.getLsbD i then onesFrom a (i + 1) n + 1 else 0

/-- The region of entry `i` as the addresses `lo <= y < hi` (20_memory.md R116); `none` for OFF. -/
def State.pmpRegion (s : State) (i : Nat) : Option (Nat × Nat) :=
  let a := (s.pmpAddr i).toNat
  let k := onesFrom (s.pmpAddr i) 0 s.cfg.xlen.bits
  let base := a / 2 ^ (k + 1) * 2 ^ (k + 1) * 4
  if pmpA (s.pmpCfg i) = 0#2 then none
  else if pmpA (s.pmpCfg i) = 1#2 then some ((if i = 0 then 0 else (s.pmpAddr (i - 1)).toNat) * 4, a * 4)
  else if pmpA (s.pmpCfg i) = 2#2 then some (a * 4, a * 4 + 4)
  else some (base, base + 2 ^ (k + 3))

/-- The answer of a matching entry (20_memory.md R117): an unlocked entry does not bind M-mode. -/
def pmpGrants (b : Byte) (acc : Access) (p : Mode) : Bool :=
  (decide (p = .machine) && !pmpL b) ||
    match acc with
    | .fetch => pmpX b
    | .load => pmpR b
    | .store => pmpW b

/-- The entries from `i` on, `n` of them, in order (R117): the first that matches a byte decides; a partial match
fails; with no match M succeeds. -/
def State.pmpFrom (s : State) (pa len : Nat) (acc : Access) (p : Mode) (i : Nat) : Nat → Bool
  | 0 => decide (p = .machine)
  | n + 1 =>
    match s.pmpRegion i with
    | none => s.pmpFrom pa len acc p (i + 1) n
    | some (lo, hi) =>
      if max lo pa < min hi (pa + len) then
        (decide (lo ≤ pa) && decide (pa + len ≤ hi)) && pmpGrants (s.pmpCfg i) acc p
      else s.pmpFrom pa len acc p (i + 1) n

/-- `PMPCheck(pa, n, acc, p)` (20_memory.md R117, R118). -/
def State.pmpCheck (s : State) (pa len : Nat) (acc : Access) (p : Mode) : Bool :=
  decide (s.cfg.pmpCount = 0) || s.pmpFrom pa len acc p 0 s.cfg.pmpCount

end Sys2Proof.Machine
end

