-- ==== Sys2Proof/Machine/Translate.lean ====
section
/-! DEFINITION. Address translation (20_memory.md R86-R114) with the remembered translations of R121 and
10_state.md R58. -/

namespace Sys2Proof.Machine

/-! ## `satp` (10_state.md R55-R57) -/

/-- The MODE field (R55, R56); `none` for a value the figures do not list. -/
def satpModeOf (x : XLen) (v : Word) : Option SatpMode :=
  match x with
  | .rv32 => if v.getLsbD 31 then some .sv32 else some .bare
  | .rv64 =>
    if v.extractLsb' 60 4 = 0#4 then some .bare
    else if v.extractLsb' 60 4 = 8#4 then some .sv39
    else if v.extractLsb' 60 4 = 9#4 then some .sv48
    else none

/-- The PPN field as a number: bits 21:0 on RV32, 43:0 on RV64 (R55, R56). -/
def satpPpn (x : XLen) (v : Word) : Nat :=
  match x with
  | .rv32 => v.toNat % 2 ^ 22
  | .rv64 => v.toNat % 2 ^ 44

/-- The ASID field as a number: bits 30:22 on RV32, 59:44 on RV64 (R55, R56). -/
def satpAsid (x : XLen) (v : Word) : Nat :=
  match x with
  | .rv32 => v.toNat / 2 ^ 22 % 2 ^ 9
  | .rv64 => v.toNat / 2 ^ 44 % 2 ^ 16

/-- The mode `satp` selects; Bare where MODE is a value it cannot hold (R57). -/
def State.satpMode (s : State) (v : Word) : SatpMode := (satpModeOf s.cfg.xlen v).getD .bare

/-! ## Constants and fields of the schemes (R88, R89, R99-R101, R113) -/

/-- LEVELS (R101; Sv48: R113). -/
def levels : SatpMode → Nat
  | .bare => 0
  | .sv32 => 2
  | .sv39 => 3
  | .sv48 => 4

/-- PTESIZE in bytes (R101; Sv48: R113). -/
def pteSize : SatpMode → Nat
  | .sv32 => 4
  | _ => 8

/-- The width of `va.vpn[i]` below the top level (R99). -/
def vpnBits : SatpMode → Nat
  | .sv32 => 10
  | _ => 9

/-- `va.vpn[i]` (R99). -/
def vpnOf (m : SatpMode) (va : Word) (i : Nat) : Nat := va.toNat / 2 ^ (12 + vpnBits m * i) % 2 ^ vpnBits m

/-- `pte.ppn`: bits 31:10 of an Sv32 entry (R88), bits 53:10 of an Sv39 or Sv48 entry (R89, R113). -/
def ptePpn (m : SatpMode) (pte : Word) : Nat :=
  match m with
  | .sv32 => pte.toNat / 2 ^ 10 % 2 ^ 22
  | _ => pte.toNat / 2 ^ 10 % 2 ^ 44

/-- The flag bits of an entry (R88, R89). -/
def pteV (pte : Word) : Bool := pte.getLsbD 0
def pteR (pte : Word) : Bool := pte.getLsbD 1
def pteW (pte : Word) : Bool := pte.getLsbD 2
def pteX (pte : Word) : Bool := pte.getLsbD 3
def pteU (pte : Word) : Bool := pte.getLsbD 4
def pteG (pte : Word) : Bool := pte.getLsbD 5
def pteA (pte : Word) : Bool := pte.getLsbD 6
def pteD (pte : Word) : Bool := pte.getLsbD 7

/-- Step 3 (R104): the entry is not valid. -/
def pteInvalid (pte : Word) : Bool := !pteV pte || (!pteR pte && pteW pte)

/-- Step 4 (R105): a valid entry is a leaf. -/
def pteLeaf (pte : Word) : Bool := pteR pte || pteX pte

/-- The entry is a leaf PTE: valid, and a leaf by step 4. With V = 0 no other bit counts (R90). -/
def pteValidLeaf (pte : Word) : Bool := !pteInvalid pte && pteLeaf pte

/-- Step 6, corrected (R107, `90_conflicts.md` C1): a superpage whose page number is not a multiple of its size. -/
def misalignedSuperpage (m : SatpMode) (pte : Word) (level : Nat) : Bool :=
  decide (ptePpn m pte % 2 ^ (vpnBits m * level) ≠ 0)

/-- Step 7 (R108): A, or D for a store, is missing. -/
def needsUpdate (pte : Word) (acc : Access) : Bool :=
  !pteA pte || (decide (acc = .store) && !pteD pte)

/-- The entry step 7 writes back (R108): A set, D too for a store, every other bit kept (R96, R98). -/
def pteUpdated (pte : Word) (acc : Access) : Word :=
  if acc = .store then pte ||| 0xC0#64 else pte ||| 0x40#64

/-- Step 8 (R109): the page offset and, below the leaf's level, the virtual page number, from the address; the rest
from the entry. -/
def physicalAddress (m : SatpMode) (va : Word) (pte : Word) (level : Nat) : Nat :=
  ptePpn m pte / 2 ^ (vpnBits m * level) * 2 ^ (vpnBits m * level + 12)
    + va.toNat % 2 ^ (vpnBits m * level + 12)

/-- The virtual address is one the scheme translates: every 32-bit address for Sv32, bits 63:39 equal to bit 38 for
Sv39 (R112), bits 63:48 equal to bit 47 for Sv48 (R113). -/
def canonical (m : SatpMode) (va : Word) : Bool :=
  match m with
  | .sv39 => decide (va = (va.extractLsb' 0 39).signExtend 64)
  | .sv48 => decide (va = (va.extractLsb' 0 48).signExtend 64)
  | _ => true

/-! ## Privilege and permission -/

/-- `EffPriv(acc)` (R85). -/
def State.effPriv (s : State) : Access → Mode
  | .fetch => s.priv
  | _ => if s.flag bitMPRV then mppOf s.mstatus else s.priv

/-- `Translated(p)` (R86). -/
def State.translated (s : State) (p : Mode) : Bool :=
  s.cfg.hasS && decide (s.satpMode s.satp ≠ .bare) && decide (p ≠ .machine)

/-- The page-fault exception of an access kind (R111). -/
def pageFaultOf : Access → Exn
  | .fetch => .instrPageFault
  | .load => .loadPageFault
  | .store => .storePageFault

/-- The access-fault exception of an access kind (R87). -/
def accessFaultOf : Access → Exn
  | .fetch => .instrAccessFault
  | .load => .loadAccessFault
  | .store => .storeAccessFault

/-- The address-misaligned exception of an access kind (R84). -/
def misalignedOf : Access → Exn
  | .fetch => .instrAddrMisaligned
  | .load => .loadAddrMisaligned
  | .store => .storeAddrMisaligned

/-- `PermOK(pte, acc, p)` (R106), for `p` S or U. -/
def State.permOk (s : State) (pte : Word) (acc : Access) (p : Mode) : Bool :=
  (match acc with
    | .fetch => pteX pte
    | .load => pteR pte || (s.flag bitMXR && pteX pte)
    | .store => pteW pte) &&
  (if p = .user then pteU pte else !pteU pte || (s.flag bitSUM && decide (acc ≠ .fetch)))

/-! ## What a location has held since a fence (R58, R121) -/

/-- One of the values in order, the first for 0 and the last for every number past the end. -/
def pick {α : Type} (first : α) : List α → Nat → α
  | [], _ => first
  | _ :: _, 0 => first
  | a :: as, n + 1 => pick a as n

/-- `bytes`, which stand at `a`, with the bytes that `old` at `pa` covers replaced by `old`'s. -/
def overlay (pa : Nat) (old : List Byte) (a : Nat) : List Byte → List Byte
  | [] => []
  | b :: bs => (if pa ≤ a then old.getD (a - pa) b else b) :: overlay pa old (a + 1) bs

/-- The earlier contents of the bytes at `a`, newest first, each with its age: the number of entries of the record
newer than it. -/
def heldBytes (a : Nat) (bytes : List Byte) (age : Nat) : List HistEvent → List (List Byte × Nat)
  | [] => []
  | .wrote pa old :: es =>
    if max pa a < min (pa + old.length) (a + bytes.length) then
      (overlay pa old a bytes, age + 1) :: heldBytes a (overlay pa old a bytes) (age + 1) es
    else heldBytes a bytes (age + 1) es
  | .satpWas _ :: es => heldBytes a bytes (age + 1) es
  | .fence _ _ :: es => heldBytes a bytes (age + 1) es

/-- The contents of `bytes`, which stand at `a`, before the `n` newest entries of the record. -/
def bytesBefore (a : Nat) (bytes : List Byte) : Nat → List HistEvent → List Byte
  | 0, _ => bytes
  | _ + 1, [] => bytes
  | n + 1, .wrote pa old :: es => bytesBefore a (overlay pa old a bytes) n es
  | n + 1, .satpWas _ :: es => bytesBefore a bytes n es
  | n + 1, .fence _ _ :: es => bytesBefore a bytes n es

/-- The earlier values of `satp` under which a walk was possible (MODE not Bare), newest first, each with its age
(R121; DEDUCED, notes/assumptions/9.md). -/
def heldSatp (x : XLen) (age : Nat) : List HistEvent → List (Word × Nat)
  | [] => []
  | .satpWas v :: es =>
    if (satpModeOf x v).getD .bare = .bare then heldSatp x (age + 1) es
    else (v, age + 1) :: heldSatp x (age + 1) es
  | .wrote _ _ :: es => heldSatp x (age + 1) es
  | .fence _ _ :: es => heldSatp x (age + 1) es

/-- The value `satp` had before the `n` newest entries of the record, where it is `v` now. -/
def satpBefore (v : Word) : Nat → List HistEvent → Word
  | 0, _ => v
  | _ + 1, [] => v
  | n + 1, .satpWas w :: es => satpBefore w n es
  | n + 1, .wrote _ _ :: es => satpBefore v n es
  | n + 1, .fence _ _ :: es => satpBefore v n es

/-- The value of the PTE at a physical address (R82, R103). -/
def State.pteAt (s : State) (m : SatpMode) (addr : Nat) : Word :=
  BitVec.ofNat 64 (leValue (s.mem.readBytes addr (pteSize m)))

/-- The earlier values of the PTE at a physical address, with their ages. -/
def State.pteHeld (s : State) (m : SatpMode) (addr : Nat) : List (Word × Nat) :=
  (heldBytes addr (s.mem.readBytes addr (pteSize m)) 0 s.hist).map fun c => (BitVec.ofNat 64 (leValue c.1), c.2)

/-- The value the PTE at a physical address had before the `n` newest entries of the record. -/
def State.pteBefore (s : State) (m : SatpMode) (addr n : Nat) : Word :=
  BitVec.ofNat 64 (leValue (bytesBefore addr (s.mem.readBytes addr (pteSize m)) n s.hist))

/-! ## The walk (R102-R107, R110) -/

/-- One PTE read of a walk: the level, the physical address, the value used, and its age (0: the current value). -/
structure PteUse where
  level : Nat
  addr : Nat
  value : Word
  age : Nat
  deriving DecidableEq, Repr

/-- How steps 1 to 6 end. -/
inductive WalkEnd where
  | pageFault
  | accessFault
  | device
  | leaf (level addr : Nat) (pte : Word)
  deriving DecidableEq, Repr

/-- The PTE reads of a walk and its end. -/
structure Walk where
  uses : List PteUse
  result : WalkEnd
  deriving DecidableEq, Repr

/-- Steps 5 and 6 on a leaf: allowed and aligned. -/
def State.leafOk (s : State) (m : SatpMode) (acc : Access) (p : Mode) (pte : Word) (level : Nat) : Bool :=
  s.permOk pte acc p && !misalignedSuperpage m pte level

/-- A leaf that would reach step 7 with A or D missing, having passed steps 5 and 6: a remembered one is read again first
(R121; DESIGN CHOICE, notes/assumptions/24.md). -/
def State.reachesUpdate (s : State) (m : SatpMode) (acc : Access) (p : Mode) (pte : Word) (level : Nat) : Bool :=
  !pteInvalid pte && pteLeaf pte && s.leafOk m acc p pte level && needsUpdate pte acc

/-- The PTE value a walk uses at a location, with its age: the current one or an earlier one, as `choice` says (R121). A
remembered leaf that must be read again is replaced by the current entry as the value of step 2, so that steps 3 to 6 are
made anew with it; R121 does not say which steps are, and this is the model's choice (DESIGN CHOICE,
notes/assumptions/24.md). -/
def State.pteUsed (s : State) (m : SatpMode) (acc : Access) (p : Mode) (addr level choice : Nat) : Word × Nat :=
  let chosen := pick (s.pteAt m addr, 0) (s.pteHeld m addr) choice
  if s.reachesUpdate m acc p chosen.1 level then (s.pteAt m addr, 0) else chosen

/-- Steps 2 to 6 from the table at physical address `a`, with `n` levels left; `choice` says which value the read at
each level returns. -/
def State.walkFrom (s : State) (m : SatpMode) (va : Word) (acc : Access) (p : Mode) (choice : Nat → Nat) :
    Nat → Nat → Walk
  | 0, _ => { uses := [], result := .pageFault }
  | i + 1, a =>
    let addr := a + vpnOf m va i * pteSize m
    if !(s.pmpCheck addr (pteSize m) .load .supervisor && pmaAllows s.cfg addr (pteSize m) .load) then
      { uses := [], result := .accessFault }
    else if pmaDevice s.cfg addr (pteSize m) then { uses := [], result := .device }
    else
      let used := s.pteUsed m acc p addr i (choice i)
      let pte := used.1
      let use : PteUse := { level := i, addr := addr, value := pte, age := used.2 }
      if pteInvalid pte then { uses := [use], result := .pageFault }
      else if pteLeaf pte then
        { uses := [use], result := if s.leafOk m acc p pte i then .leaf i addr pte else .pageFault }
      else
        let rest := s.walkFrom m va acc p choice i (ptePpn m pte * 4096)
        { uses := use :: rest.uses, result := rest.result }

/-- Step 1 and the canonical-address check, under a value of `satp`, then the walk (R102, R110, R112). -/
def State.walk (s : State) (satp va : Word) (acc : Access) (p : Mode) (choice : Nat → Nat) : Walk :=
  let m := s.satpMode satp
  if canonical m va then s.walkFrom m va acc p choice (levels m) (satpPpn s.cfg.xlen satp * 4096)
  else { uses := [], result := .pageFault }

/-! ## Which remembered values a fence has taken away (R121; 41_sfence_wfi.md R170)

A fence is judged as of the time it ran: by what the walk's locations held then, and by the values the walk uses if they
were remembered from before it. `n` is the number of entries of the record newer than the fence. -/

/-- A value remembered from before the fence is one of the leaf PTE of its page, which a fence with an address covers:
it stands at level 0, or it is a leaf PTE itself, or it is invalid where a leaf PTE stood at the fence. A pointer above
level 0 is not: after changing one, software must use `rs1 = x0` (R170; DEDUCED, notes/assumptions/8.md). -/
def State.leafAtFence (s : State) (m : SatpMode) (u : PteUse) (n : Nat) : Bool :=
  decide (u.level = 0) || pteValidLeaf u.value || (pteInvalid u.value && pteValidLeaf (s.pteBefore m u.addr n))

/-- Does the fence cover a PTE read of the leaf at level `leafLevel`, or of a pointer or of `satp` (`none`), in a
translation of `va` in address space `asid` by a mapping that is global or not? With an address only the leaf PTE of its
page is covered; with an ASID only that space, and no global mapping (R170). -/
def fenceCovers (m : SatpMode) (va : Word) (asid : Nat) (isGlobal : Bool) (leafLevel : Option Nat) (fva : Option Word)
    (fasid : Option Nat) : Bool :=
  (match fasid with
    | none => true
    | some a => decide (a = asid) && !isGlobal) &&
  (match fva, leafLevel with
    | none, _ => true
    | some _, none => false
    | some v, some l => decide (v.toNat / 2 ^ (12 + vpnBits m * l) = va.toNat / 2 ^ (12 + vpnBits m * l)))

/-- Some fence among the `age` newest entries covers the read; `n` entries are newer than the list. -/
def coveredWithin (covers : Nat → Option Word → Option Nat → Bool) (n : Nat) : Nat → List HistEvent → Bool
  | 0, _ => false
  | _ + 1, [] => false
  | k + 1, .fence va asid :: es => covers n va asid || coveredWithin covers (n + 1) k es
  | k + 1, .wrote _ _ :: es => coveredWithin covers (n + 1) k es
  | k + 1, .satpWas _ :: es => coveredWithin covers (n + 1) k es

/-- The values that the walk's reads `uses` return for the PTE of a level at an address. -/
def usedAt (uses : List PteUse) (level addr : Nat) : List PteUse :=
  uses.filter fun u => decide (u.level = level) && decide (u.addr = addr)

/-- An earlier value, of age `age`, of the PTE of a level is still remembered at the fence as part of a global mapping of
`va`: no fence between the two covers it. -/
def State.rememberedAtFence (s : State) (m : SatpMode) (va : Word) (level addr n : Nat) (value : Word) (age : Nat) : Bool :=
  decide (n < age) &&
    !coveredWithin (fun k => fenceCovers m va 0 true
        (if s.leafAtFence m { level := level, addr := addr, value := value, age := age } k then some level else none))
      n (age - n) (s.hist.drop n)

/-- The values from the time of the fence that the walk returns for a PTE: those remembered from before it, and the one in
memory then. -/
def State.usedAtFence (s : State) (m : SatpMode) (uses : List PteUse) (level addr n : Nat) : List Word :=
  ((usedAt uses level addr).filter fun u => decide (n < u.age) || decide (u.value = s.pteBefore m addr n)).map PteUse.value

/-- The values of a PTE at the fence as the walk has them: those it returns from that time, else the one in memory then. -/
def State.pteOfWalk (s : State) (m : SatpMode) (uses : List PteUse) (level addr n : Nat) : List Word :=
  let used := s.usedAtFence m uses level addr n
  if used.isEmpty then [s.pteBefore m addr n] else used

/-- The values a PTE may have had in a mapping of `va` at the fence that agrees with the walk: those the walk returns from
that time; where it returns none, the one in memory then or a remembered one (R170; DEDUCED, notes/assumptions/8.md). -/
def State.pteAtFence (s : State) (m : SatpMode) (va : Word) (uses : List PteUse) (level addr n : Nat) : List Word :=
  let used := s.usedAtFence m uses level addr n
  if used.isEmpty then
    s.pteBefore m addr n ::
      ((s.pteHeld m addr).filter fun c => s.rememberedAtFence m va level addr n c.1 c.2).map Prod.fst
  else used

/-- Some mapping of `va` from the table at physical address `a` with some levels left, whose PTEs have values among
`entries` of their level and address, ends in a leaf PTE that `accepts` holds of. -/
def mappingHas (m : SatpMode) (va : Word) (entries : Nat → Nat → List Word) (accepts : Word → Bool) : Nat → Nat → Bool
  | 0, _ => false
  | i + 1, a =>
    (entries i (a + vpnOf m va i * pteSize m)).any fun pte =>
      (pteValidLeaf pte && accepts pte) ||
        (!pteInvalid pte && !pteLeaf pte && mappingHas m va entries accepts i (ptePpn m pte * 4096))

/-- The same, from the root that `satp` names, where the pointers that the walk uses are followed too, also those written
after the fence. -/
def State.fenceMappingHas (s : State) (satp va : Word) (uses : List PteUse) (entries : Nat → Nat → List Word)
    (accepts : Word → Bool) : Bool :=
  let m := s.satpMode satp
  let pointers := fun level addr =>
    ((usedAt uses level addr).map PteUse.value).filter fun pte => !pteInvalid pte && !pteLeaf pte
  canonical m va && mappingHas m va (fun level addr => entries level addr ++ pointers level addr) accepts (levels m)
    (satpPpn s.cfg.xlen satp * 4096)

/-- A mapping of `va` from the root that `satp` names had a leaf PTE with G = 1 in memory at the fence. -/
def State.memoryGlobal (s : State) (satp va : Word) (uses : List PteUse) (n : Nat) : Bool :=
  s.fenceMappingHas satp va uses (fun _ addr => [s.pteBefore (s.satpMode satp) addr n]) pteG

/-- The mapping of `va` had a leaf PTE with G = 1 at the fence. Where the walk uses a leaf PTE from before the fence, that
is the mapping's leaf (95_test_vectors.md SF2: with G = 0 it is dropped). Else it is the leaf of a mapping from the `satp`
value the walk uses, in memory then or remembered then, that agrees with what the walk uses. Where the values the walk uses
from that time mapped nothing (it uses an invalid entry over which a leaf PTE was written), the mapping is the one in memory
then, from that `satp` value or, if it is one from before the fence, from the one at the fence too where that is of the same
address space. What the tables hold now does not matter (R170; DEDUCED, notes/assumptions/8.md). -/
def State.globalAtFence (s : State) (satp : Word) (satpAge : Nat) (va : Word) (uses : List PteUse) (n : Nat) : Bool :=
  let m := s.satpMode satp
  let atFence := satpBefore s.satp n s.hist
  match uses.find? fun u => decide (n < u.age) && pteValidLeaf u.value with
  | some u => pteG u.value
  | none =>
    s.fenceMappingHas satp va uses (fun level addr => s.pteAtFence m va uses level addr n) pteG ||
      (!s.fenceMappingHas satp va uses (fun level addr => s.pteOfWalk m uses level addr n) (fun _ => true) &&
        (s.memoryGlobal satp va uses n ||
          (decide (n < satpAge) && decide (satpAsid s.cfg.xlen atFence = satpAsid s.cfg.xlen satp) &&
            s.memoryGlobal atFence va uses n)))

/-- No remembered value of the walk is older than the last fence that covers it (R121). The address space of a walk is
the ASID of the `satp` value it uses, current or earlier: the spec does not say whose ASID a fence with `rs2 != x0` is
compared with, and this is the model's choice (DESIGN CHOICE, notes/assumptions/23.md). -/
def State.walkAllowed (s : State) (satp : Word) (satpAge : Nat) (va : Word) (w : Walk) : Bool :=
  let m := s.satpMode satp
  let asid := satpAsid s.cfg.xlen satp
  let isGlobal := s.globalAtFence satp satpAge va w.uses
  !coveredWithin (fun n => fenceCovers m va asid (isGlobal n) none) 0 satpAge s.hist &&
    w.uses.all fun u =>
      !coveredWithin (fun n => fenceCovers m va asid (isGlobal n) (if s.leafAtFence m u n then some u.level else none))
        0 u.age s.hist

/-- The walk of translation number `s.draws`, with the `satp` value it uses: the one the free choices name when R121
allows it, else the one that uses current values throughout. -/
def State.chosenWalk (s : State) (va : Word) (acc : Access) (p : Mode) : Word × Walk :=
  let satp := pick (s.satp, 0) (heldSatp s.cfg.xlen 0 s.hist) (Config.staleSatp s.draws)
  let w := s.walk satp.1 va acc p (Config.stalePte s.draws)
  if s.walkAllowed satp.1 satp.2 va w then (satp.1, w) else (s.satp, s.walk s.satp va acc p fun _ => 0)

/-! ## Steps 7 and 8 (R108, R109) -/

/-- Does step 7 raise the page fault (`AD_POLICY`, R108, D6)? -/
def State.adFault (s : State) : Bool :=
  match s.cfg.adPolicy with
  | .fault => true
  | .hardwareUpdate => false
  | .either => Config.adFaults s.draws

/-- The state with the number of the next free choice moved on. -/
def State.drawn (s : State) : State := { s with draws := s.draws + 1 }

/-- `Translate(va, acc, p)` (R110), for `p` S or U and `satp.MODE` not Bare: the physical address, or the exception
of the access. -/
def State.translate (s : State) (va : Word) (acc : Access) (p : Mode) : Res Nat :=
  let chosen := s.chosenWalk va acc p
  let m := s.satpMode chosen.1
  match chosen.2.result with
  | .pageFault => .raised (pageFaultOf acc) va s.drawn
  | .accessFault => .raised (accessFaultOf acc) va s.drawn
  | .device => .refused .deviceRegion
  | .leaf level addr pte =>
    if needsUpdate pte acc then
      if s.adFault then .raised (pageFaultOf acc) va s.drawn
      else if !(s.pmpCheck addr (pteSize m) .store .supervisor && pmaAllows s.cfg addr (pteSize m) .store) then
        .raised (accessFaultOf acc) va s.drawn
      else
        .ok (physicalAddress m va pte level)
          (s.drawn.physWrite addr (leBytes (pteSize m) (pteUpdated pte acc).toNat))
    else .ok (physicalAddress m va pte level) s.drawn

/-- Alignment, privilege and translation, the first three steps of `Access` for a 4-byte access (R83, R84, R86;
for a fetch DEDUCED, notes/assumptions/19.md). -/
def State.locate (s : State) (va : Word) (acc : Access) : Res Nat :=
  if va.toNat % 4 ≠ 0 then .raised (misalignedOf acc) va s
  else if s.translated (s.effPriv acc) then s.translate va acc (s.effPriv acc)
  else .ok va.toNat s

/-- `MemRead(pc, 4, Fetch)` (R83; 00_scope.md R8 step 4): the fetched word. A fetch from a device region or from a
word the hart has written is refused (R123, R126; DEDUCED, notes/assumptions/12.md and 20.md). -/
def State.fetch (s : State) : Res InstrWord :=
  match s.locate s.pc .fetch with
  | .refused r => .refused r
  | .raised e tval t => .raised e tval t
  | .ok pa t =>
    if !(t.pmpCheck pa 4 .fetch (s.effPriv .fetch) && pmaAllows t.cfg pa 4 .fetch) then .raised .instrAccessFault s.pc t
    else if pmaDevice t.cfg pa 4 then .refused .deviceRegion
    else if t.written.contains (pa / 4) then .refused .fetchOfWrittenWord
    else .ok (t.physRead32 pa) t

end Sys2Proof.Machine
end

