-- ==== Sys2Proof/Machine/Amo.lean ====
section
/-! DEFINITION. `amoadd.w` (44_amoadd_w.md R205). -/

namespace Sys2Proof.Machine

/-- The checks of `amoadd.w` at its physical address (R205): PMP and `PMA` for the read and the write, and atomics. -/
def State.amoPermitted (s : State) (pa : Nat) (p : Mode) : Bool :=
  s.pmpCheck pa 4 .load p && s.pmpCheck pa 4 .store p && pmaAllows s.cfg pa 4 .load && pmaAllows s.cfg pa 4 .store
    && pmaAtomic s.cfg pa 4

/-- The read, the add, the write and the register write of `amoadd.w` at physical address `pa` (R205). -/
def State.amoAdd (s : State) (rd : RegIdx) (pa : Nat) (addend : BitVec 32) : State :=
  ((s.physWrite pa (leBytes 4 (s.physRead32 pa + addend).toNat)).writeReg rd
    (sextXlen s.cfg.xlen (s.physRead32 pa))).advance

/-- `amoadd.w rd, rs2, (rs1)` (R205). `aq` and `rl` have no effect with one hart (20_memory.md R127;
DESIGN CHOICE, notes/assumptions/22.md). -/
def execAmoaddW (_aq _rl : Bool) (rd rs1 rs2 : RegIdx) (s : State) : Host.Outcome State Fault Refusal :=
  match s.locate (s.readReg rs1) .store with
  | .refused r => .refused r
  | .raised e tval t => .next (t.raise e tval)
  | .ok pa t =>
    if !t.amoPermitted pa (s.effPriv .store) then .next (t.raise .storeAccessFault (s.readReg rs1))
    else if pmaDevice t.cfg pa 4 then .refused .deviceRegion
    else .next (t.amoAdd rd pa (low32 (s.readReg rs2)))

end Sys2Proof.Machine
end

