-- ==== Sys2Proof/Machine/Operands.lean ====
section
/-! DEFINITION. Operand forms (30_encoding.md R146): a register (`State.readReg`), a 5-bit immediate, and a CSR number
with the register it names (10_state.md R60, R62). -/

namespace Sys2Proof.Machine

/-- `uimm`, zero-extended (30_encoding.md R146). -/
def immOperand (uimm : BitVec 5) : Word := uimm.setWidth 64

/-- The CSRs of R60. -/
inductive Csr where
  | sstatus | sie | stvec | sscratch | sepc | scause | stval | sip | satp
  | mstatus | medeleg | mideleg | mie | mtvec | mscratch | mepc | mcause | mtval | mip
  | pmpcfg (k : Fin 4)
  | pmpaddr (i : Fin 16)
  deriving DecidableEq, Repr

/-- The CSR a number names (R60), whether or not the configuration has it. -/
def csrOfNumber (n : Nat) : Option Csr :=
  match n with
  | 0x100 => some .sstatus
  | 0x104 => some .sie
  | 0x105 => some .stvec
  | 0x140 => some .sscratch
  | 0x141 => some .sepc
  | 0x142 => some .scause
  | 0x143 => some .stval
  | 0x144 => some .sip
  | 0x180 => some .satp
  | 0x300 => some .mstatus
  | 0x302 => some .medeleg
  | 0x303 => some .mideleg
  | 0x304 => some .mie
  | 0x305 => some .mtvec
  | 0x340 => some .mscratch
  | 0x341 => some .mepc
  | 0x342 => some .mcause
  | 0x343 => some .mtval
  | 0x344 => some .mip
  | _ =>
    if 0x3A0 ≤ n ∧ n < 0x3A4 then some (.pmpcfg (Fin.ofNat 4 (n - 0x3A0)))
    else if 0x3B0 ≤ n ∧ n < 0x3C0 then some (.pmpaddr (Fin.ofNat 16 (n - 0x3B0)))
    else none

/-- "Exists when" (R60, R45). -/
def csrExists (c : Config) : Csr → Bool
  | .sstatus => c.hasS
  | .sie => c.hasS
  | .stvec => c.hasS
  | .sscratch => c.hasS
  | .sepc => c.hasS
  | .scause => c.hasS
  | .stval => c.hasS
  | .sip => c.hasS
  | .satp => c.hasS
  | .medeleg => c.hasS
  | .mideleg => c.hasS
  | .mstatus => true
  | .mie => true
  | .mtvec => true
  | .mscratch => true
  | .mepc => true
  | .mcause => true
  | .mtval => true
  | .mip => true
  | .pmpcfg k => decide (4 * k.val < c.pmpCount) && (decide (k.val % 2 = 0) || decide (c.xlen = .rv32))
  | .pmpaddr i => decide (i.val < c.pmpCount)

/-- The numbers of the CSRs that real harts have and the spec does not define (R62, D36; 00_scope.md R3). PRESUMED
beyond the numbers R62 prints (notes/assumptions/13.md): `misa`, the four identification registers, `mcounteren`,
`scounteren`, `sedeleg`, `sideleg`, the counters and performance-monitor registers, their upper halves on RV32. -/
def csrOutside (x : XLen) (n : Nat) : Bool :=
  decide (n = 0x301) || decide (0xF11 ≤ n ∧ n ≤ 0xF14) || decide (n = 0x306) || decide (n = 0x106)
    || decide (n = 0x102) || decide (n = 0x103)
    || decide (0x323 ≤ n ∧ n ≤ 0x33F)
    || decide (n = 0xB00) || decide (0xB02 ≤ n ∧ n ≤ 0xB1F)
    || decide (0xC00 ≤ n ∧ n ≤ 0xC1F)
    || (decide (x = .rv32) &&
        (decide (n = 0xB80) || decide (0xB82 ≤ n ∧ n ≤ 0xB9F) || decide (0xC80 ≤ n ∧ n ≤ 0xC9F)))

end Sys2Proof.Machine
end

