-- ==== Sys2Proof/Machine/Csr.lean ====
section
/-! DEFINITION. The access check, the read and the write of a CSR (43_csr_access.md R190), by the register rules of
10_state.md. -/

namespace Sys2Proof.Machine

/-! ## PMP registers (10_state.md R44-R46) -/

/-- How many configuration bytes a `pmpcfg` register holds (R45); register `k` begins with entry `4k`. -/
def pmpPerReg : XLen → Nat
  | .rv32 => 4
  | .rv64 => 8

/-- Entry `i` is locked (R46). -/
def State.pmpLocked (s : State) (i : Nat) : Bool := pmpL (s.pmpCfg i)

/-- A configuration byte after `v` is written over `old` (R46, D47): bits 6:5 stay zero; R = 0 with W = 1 leaves R, W, X
as they were. -/
def pmpCfgWritten (old v : Byte) : Byte :=
  (v &&& 0x98#8) ||| ((if !pmpR v && pmpW v then old else v) &&& 0x07#8)

/-- The bytes of `pmpcfg<k>`, entry `4k` first; an entry at or above `PMP_COUNT` reads zero (R45). -/
def State.pmpCfgBytes (s : State) (k : Nat) : Nat → List Byte
  | 0 => []
  | n + 1 => (if k < s.cfg.pmpCount then s.pmpCfg k else 0#8) :: s.pmpCfgBytes (k + 1) n

/-- `pmpcfg<k>` (R45). -/
def State.readPmpCfg (s : State) (k : Nat) : Word :=
  BitVec.ofNat 64 (leValue (s.pmpCfgBytes (4 * k) (pmpPerReg s.cfg.xlen)))

/-- `pmpcfg<k> <- v` (R45, R46): each byte on its own; locked and absent entries keep theirs. -/
def State.writePmpCfg (s : State) (k : Nat) (v : Word) : State :=
  { s with
    pmpcfg := Vector.ofFn fun i : Fin 16 =>
      if 4 * k ≤ i.val ∧ i.val < 4 * k + pmpPerReg s.cfg.xlen ∧ i.val < s.cfg.pmpCount ∧ s.pmpLocked i.val = false then
        pmpCfgWritten (s.pmpCfg i.val) (v.extractLsb' (8 * (i.val - 4 * k)) 8)
      else s.pmpCfg i.val }

/-- Writes to `pmpaddr<i>` are ignored: the entry is locked, or the entry above it is locked with A = TOR (R46). -/
def State.pmpAddrLocked (s : State) (i : Nat) : Bool :=
  s.pmpLocked i || (s.pmpLocked (i + 1) && decide (pmpA (s.pmpCfg (i + 1)) = 1#2))

/-- `pmpaddr<i> <- v` (R44): bits above `PASIZE - 3` stay zero. -/
def State.writePmpAddr (s : State) (i : Fin 16) (v : Word) : State :=
  { s with
    pmpaddr := if s.pmpAddrLocked i.val then s.pmpaddr else s.pmpaddr.set i.val (v &&& lowMask (s.cfg.pasize - 2)) i.isLt }

/-! ## `satp` (10_state.md R57) -/

/-- The bits of `satp` that are kept: MODE, the low `ASIDLEN` bits of ASID, the low `PASIZE - 12` bits of PPN (R55-R57). -/
def satpMask (c : Config) : Word :=
  match c.xlen with
  | .rv32 => 0x80000000#64 ||| (lowMask (min c.asidLen 9) <<< 22) ||| lowMask (min (c.pasize - 12) 22)
  | .rv64 => 0xF000000000000000#64 ||| (lowMask (min c.asidLen 16) <<< 44) ||| lowMask (min (c.pasize - 12) 44)

/-- `satp` after a write of `v`: unchanged when MODE is not in `SATP_MODES` (R57, D21). -/
def satpWritten (c : Config) (old v : Word) : Word :=
  match satpModeOf c.xlen v with
  | some m => if c.satpModes.contains m then v &&& satpMask c else old
  | none => old

/-- `satp <- v` (R57). The record of R121 keeps the value it held; no remembered translation is dropped. -/
def State.writeSatp (s : State) (v : Word) : State :=
  { s with
    satp := satpWritten s.cfg s.satp v
    hist := if satpWritten s.cfg s.satp v = s.satp then s.hist else .satpWas s.satp :: s.hist }

/-! ## Read and write (R190) -/

/-- `CsrRead(csr)` (R190). -/
def State.csrRead (s : State) : Csr → Word
  | .sstatus => s.mstatus &&& sstatusMask
  | .sie => s.mie &&& s.mideleg &&& 0x222#64
  | .stvec => s.stvec
  | .sscratch => s.sscratch
  | .sepc => s.sepc
  | .scause => s.scause
  | .stval => s.stval
  | .sip => s.mip &&& s.mideleg &&& 0x222#64
  | .satp => s.satp
  | .mstatus => s.mstatus
  | .medeleg => s.medeleg
  | .mideleg => s.mideleg
  | .mie => s.mie
  | .mtvec => s.mtvec
  | .mscratch => s.mscratch
  | .mepc => s.mepc
  | .mcause => s.mcause
  | .mtval => s.mtval
  | .mip => s.mip
  | .pmpcfg k => s.readPmpCfg k.val
  | .pmpaddr i => s.pmpAddr i.val

/-- `oldw` of R192: the value a set or clear instruction modifies, which for `mip` has `SEIP_sw` alone in bit 9. -/
def State.csrReadForModify (s : State) : Csr → Word
  | .mip => s.mipForModify
  | c => s.csrRead c

/-- `CsrWrite(csr, v)` (R190): only writable fields change. -/
def State.csrWrite (s : State) (c : Csr) (v : Word) : State :=
  match c with
  | .sstatus => { s with mstatus := withMask s.mstatus v sstatusMask }
  | .sie => { s with mie := withMask s.mie v (s.mideleg &&& 0x222#64) }
  | .stvec => { s with stvec := clearLow2 v }
  | .sscratch => { s with sscratch := v }
  | .sepc => { s with sepc := clearLow2 v }
  | .scause => { s with scause := v }
  | .stval => { s with stval := v }
  | .sip => { s with mipSw := withMask s.mipSw v (s.mideleg &&& 0x2#64) }
  | .satp => s.writeSatp v
  | .mstatus => { s with mstatus := mstatusWritten s.cfg s.mstatus v }
  | .medeleg => { s with medeleg := v &&& 0xB3FF#64 }
  | .mideleg => { s with mideleg := v &&& 0x222#64 }
  | .mie => { s with mie := v &&& interruptBits s.cfg }
  | .mtvec => { s with mtvec := clearLow2 v }
  | .mscratch => { s with mscratch := v }
  | .mepc => { s with mepc := clearLow2 v }
  | .mcause => { s with mcause := v }
  | .mtval => { s with mtval := v }
  | .mip => { s with mipSw := v &&& supervisorBits s.cfg }
  | .pmpcfg k => s.writePmpCfg k.val v
  | .pmpaddr i => s.writePmpAddr i v

/-! ## The access check (R190) -/

/-- What `CsrCheck` answers. -/
inductive CsrAccess where
  | granted (c : Csr)
  | illegal
  | outside
  deriving DecidableEq, Repr

/-- `csr[9:8]`: the lowest mode that may access the CSR, as a mode number (10_state.md R60). -/
def csrLevel (n : CsrNum) : Nat := (n.extractLsb' 8 2).toNat

/-- `csr[11:10] = 0b11`: a read-only CSR (10_state.md R60). -/
def csrReadOnly (n : CsrNum) : Bool := decide (n.extractLsb' 10 2 = 3#2)

/-- `CsrCheck(csr, willWrite)` (R190). -/
def State.csrCheck (s : State) (n : CsrNum) (willWrite : Bool) : CsrAccess :=
  if csrOutside s.cfg.xlen n.toNat then .outside
  else
    match csrOfNumber n.toNat with
    | none => .illegal
    | some c =>
      if !csrExists s.cfg c then .illegal
      else if modeCode s.priv < csrLevel n then .illegal
      else if willWrite && csrReadOnly n then .illegal
      else if decide (c = .satp) && decide (s.priv = .supervisor) && s.flag bitTVM then .illegal
      else .granted c

/-- The common body of the six CSR instructions (R190-R196): check, read, write the new value if the instruction
writes, then `rd` and the pc. `new` is applied to the value a set or clear instruction modifies. -/
def State.csrInstr (s : State) (w : InstrWord) (n : CsrNum) (rd : RegIdx) (willWrite : Bool) (new : Word → Word) :
    Host.Outcome State Fault Refusal :=
  match s.csrCheck n willWrite with
  | .outside => .refused .csrOutsideSpec
  | .illegal => .next (s.raiseIllegal w)
  | .granted c =>
    .next (((if willWrite then s.csrWrite c (new (s.csrReadForModify c)) else s).writeReg rd (s.csrRead c)).advance)

end Sys2Proof.Machine
end

