-- ==== Sys2Proof/Machine/CsrInstr.lean ====
section
/-! DEFINITION. The six CSR access instructions (43_csr_access.md R191-R196). The tests for 0 are on the register field
or the immediate field, not on a register's value. -/

namespace Sys2Proof.Machine

/-- `csrrw rd, csr, rs1` (R191). Reading a CSR has no side effect (R190), so `rd = x0` needs no case of its own. -/
def execCsrrw (rd : RegIdx) (csr : CsrNum) (rs1 : RegIdx) (s : State) : Host.Outcome State Fault Refusal :=
  s.csrInstr (encode (.csrrw rd csr rs1)) csr rd true fun _ => s.readReg rs1

/-- `csrrs rd, csr, rs1` (R192). -/
def execCsrrs (rd : RegIdx) (csr : CsrNum) (rs1 : RegIdx) (s : State) : Host.Outcome State Fault Refusal :=
  s.csrInstr (encode (.csrrs rd csr rs1)) csr rd (decide (rs1 ≠ 0#5)) fun old => old ||| s.readReg rs1

/-- `csrrc rd, csr, rs1` (R193). -/
def execCsrrc (rd : RegIdx) (csr : CsrNum) (rs1 : RegIdx) (s : State) : Host.Outcome State Fault Refusal :=
  s.csrInstr (encode (.csrrc rd csr rs1)) csr rd (decide (rs1 ≠ 0#5)) fun old => old &&& ~~~s.readReg rs1

/-- `csrrwi rd, csr, uimm` (R194). -/
def execCsrrwi (rd : RegIdx) (csr : CsrNum) (uimm : BitVec 5) (s : State) : Host.Outcome State Fault Refusal :=
  s.csrInstr (encode (.csrrwi rd csr uimm)) csr rd true fun _ => immOperand uimm

/-- `csrrsi rd, csr, uimm` (R195). -/
def execCsrrsi (rd : RegIdx) (csr : CsrNum) (uimm : BitVec 5) (s : State) : Host.Outcome State Fault Refusal :=
  s.csrInstr (encode (.csrrsi rd csr uimm)) csr rd (decide (uimm ≠ 0#5)) fun old => old ||| immOperand uimm

/-- `csrrci rd, csr, uimm` (R196). -/
def execCsrrci (rd : RegIdx) (csr : CsrNum) (uimm : BitVec 5) (s : State) : Host.Outcome State Fault Refusal :=
  s.csrInstr (encode (.csrrci rd csr uimm)) csr rd (decide (uimm ≠ 0#5)) fun old => old &&& ~~~immOperand uimm

end Sys2Proof.Machine
end

