-- ==== Sys2Proof/Machine/Environment.lean ====
section
/-! DEFINITION. `ecall` and `ebreak` (42_ecall_ebreak.md). -/

namespace Sys2Proof.Machine

/-- The environment-call exception of a mode (R180). -/
def ecallOf : Mode → Exn
  | .user => .ecallU
  | .supervisor => .ecallS
  | .machine => .ecallM

/-- `ecall` (R180). -/
def execEcall (s : State) : Host.Outcome State Fault Refusal := .next (s.raise (ecallOf s.priv) 0#64)

/-- `ebreak` (R181). -/
def execEbreak (s : State) : Host.Outcome State Fault Refusal := .next (s.raise .breakpoint 0#64)

end Sys2Proof.Machine
end

