-- ==== Sys2Proof/Machine/FenceWait.lean ====
section
/-! DEFINITION. `sfence.vma` and `wfi` (41_sfence_wfi.md). -/

namespace Sys2Proof.Machine

/-- The record of R121 after a fence (R170): with no arguments every remembered value goes; otherwise the fence is put
down, which takes away what it covers (`fenceCovers`). -/
def histFenced (va : Option Word) (asid : Option Nat) (h : List HistEvent) : List HistEvent :=
  match va, asid with
  | none, none => []
  | _, _ => if h.isEmpty then [] else .fence va asid :: h

/-- `sfence.vma rs1, rs2` (R170); the tests for 0 are on the register fields. -/
def execSfenceVma (rs1 rs2 : RegIdx) (s : State) : Host.Outcome State Fault Refusal :=
  .next
    (if !s.cfg.hasS || decide (s.priv = .user) || (decide (s.priv = .supervisor) && s.flag bitTVM) then
      s.raiseIllegal (encode (.sfenceVma rs1 rs2))
    else
      let va := if rs1 = 0#5 then none else some (s.readReg rs1)
      let asid := if rs2 = 0#5 then none else some ((s.readReg rs2).toNat % 2 ^ s.cfg.asidLen)
      ({ s with hist := histFenced va asid s.hist } : State).advance)

/-- Where R171 says "either raise IllegalInstr or continue": below M-mode with TW = 1, or in U-mode with S-mode. -/
def State.wfiMayTrap (s : State) : Bool :=
  (decide (s.priv ≠ .machine) && s.flag bitTW) || (decide (s.priv = .user) && s.cfg.hasS)

/-- Does a `wfi` wait (`WFI_POLICY`, R171, D16)? -/
def State.wfiWants (s : State) : Bool :=
  match s.cfg.wfiPolicy with
  | .nop => false
  | .wait => true
  | .either => Config.wfiWaits s.draws

/-- `wfi` (R171). It does not wait when the wake-up condition holds at once (corner case (b)). One choice covers both
lines under which it may raise (DEDUCED, notes/assumptions/15.md). -/
def execWfi (s : State) : Host.Outcome State Fault Refusal :=
  .next
    (if s.wfiMayTrap && Config.wfiTraps s.draws then s.drawn.raiseIllegal (encode .wfi)
    else { s.drawn.advance with waiting := s.wfiWants && !s.wakeUp })

end Sys2Proof.Machine
end

