-- ==== Sys2Proof/Machine/TrapReturn.lean ====
section
/-! DEFINITION. `mret` and `sret` (40_trap_return.md). -/

namespace Sys2Proof.Machine

/-- `mret` (R160). -/
def execMret (s : State) : Host.Outcome State Fault Refusal :=
  .next (if s.priv = .machine then s.returnFromM else s.raiseIllegal (encode .mret))

/-- `sret` (R161). -/
def execSret (s : State) : Host.Outcome State Fault Refusal :=
  .next
    (if !s.cfg.hasS || decide (s.priv = .user) || (decide (s.priv = .supervisor) && s.flag bitTSR) then
      s.raiseIllegal (encode .sret)
    else s.returnFromS)

end Sys2Proof.Machine
end

