-- ==== Sys2Proof/Machine/Interrupts.lean ====
section
/-! DEFINITION. Sampling the input lines and choosing an interrupt (00_scope.md R8 steps 1 and 2; 60_exceptions.md
R230-R232). -/

namespace Sys2Proof.Machine

/-- Step 1 of R8: the next entry of the environment's schedule becomes what `mip` shows; when the schedule is at its end
the lines stay as they are (DESIGN CHOICE, notes/assumptions/5.md). -/
def State.sampleLines (s : State) : State :=
  { s with lines := s.inputs.headD s.lines, inputs := s.inputs.tail }

/-- `pendingEnabled(i)` (R231). -/
def State.pendingEnabled (s : State) (i : Interrupt) : Bool :=
  s.mip.getLsbD (interruptCode i) && s.mie.getLsbD (interruptCode i)

/-- `destS(i)` (R231). -/
def State.boundForS (s : State) (i : Interrupt) : Bool := s.cfg.hasS && s.mideleg.getLsbD (interruptCode i)

/-- `takeableM(i)` (R231). -/
def State.takeableM (s : State) (i : Interrupt) : Bool :=
  s.pendingEnabled i && !s.boundForS i && (decide (s.priv ≠ .machine) || s.flag bitMIE)

/-- `takeableS(i)` (R231). -/
def State.takeableS (s : State) (i : Interrupt) : Bool :=
  s.pendingEnabled i && s.boundForS i && (decide (s.priv = .user) || (decide (s.priv = .supervisor) && s.flag bitSIE))

/-- The order within one destination, highest first (R232). -/
def interruptOrder : List Interrupt := [.mei, .msi, .mti, .sei, .ssi, .sti]

/-- The interrupt to take, if any: M-bound ones before S-bound ones (R232). -/
def State.nextInterrupt (s : State) : Option Interrupt :=
  match interruptOrder.find? s.takeableM with
  | some i => some i
  | none => interruptOrder.find? s.takeableS

/-- Step 2 of R8: the trap of an interrupt has trap value 0 and saves the pc (R238, R239). -/
def State.takeInterrupt (s : State) (i : Interrupt) : State := s.takeTrap (.interrupt i) 0#64 s.pc

end Sys2Proof.Machine
end

