-- ==== Sys2Proof/Machine/Hart.lean ====
section
/-! DEFINITION. The hart step (00_scope.md R8) and the placing of a program's word for it to fetch. -/

namespace Sys2Proof.Machine

/-- Steps 5 and 6 of R8 on a fetched word: its instruction is executed; an illegal word raises `IllegalInstr(w)`
(30_encoding.md R147(a)-(c)); a word outside this spec is refused (R147(d)). -/
def State.runWord (s : State) (w : InstrWord) : Host.Outcome State Fault Refusal :=
  match decode w with
  | .instr i => exec i s
  | .illegal _ => .next (s.raiseIllegal w)
  | .outside => .refused .wordOutsideSpec

/-- Steps 4 to 6 of R8. -/
def State.runNext (s : State) : Host.Outcome State Fault Refusal :=
  match s.fetch with
  | .refused r => .refused r
  | .raised e tval t => .next (t.raise e tval)
  | .ok w t => t.runWord w

/-- Step 3 of R8: a waiting hart with nothing pending and enabled stays as it is; any other goes on, no longer waiting. -/
def State.waitOrRun (s : State) : Host.Outcome State Fault Refusal :=
  if s.waiting && !s.wakeUp then .next s else ({ s with waiting := false } : State).runNext

/-- R8 after step 1: an interrupt that can be taken is taken. -/
def State.hartStep (s : State) : Host.Outcome State Fault Refusal :=
  match s.nextInterrupt with
  | some i => .next (s.takeInterrupt i)
  | none => s.waitOrRun

/-- The physical address the next fetch reads: the pc's translation, or the pc itself. -/
def State.fetchAddress (s : State) : Nat :=
  match s.locate s.pc .fetch with
  | .ok pa _ => pa
  | _ => s.pc.toNat

/-- A four-byte word stored at an address from outside the machine: the word is no longer one the hart has written. -/
def State.loadWord (s : State) (pa w : Nat) : State :=
  { s with
    mem := s.mem.writeBytes pa (leBytes 4 w)
    written := s.written.filter (fun k => decide (k ≠ pa / 4)) }

end Sys2Proof.Machine
end

