-- ==== Sys2Proof/Machine/Step.lean ====
section
/-! DEFINITION. One step of the machine (00_scope.md R8). -/

namespace Sys2Proof.Machine

/-- Sample the input lines into `mip`, then do the first of steps 2 to 6 of R8 that applies. -/
def step (s : State) : Host.Outcome State Fault Refusal := s.sampleLines.hartStep

/-- `s` with the instruction word `w` (its bits from `nbits` up zero) where the next fetch reads it
(DESIGN CHOICE, notes/assumptions/14.md). -/
def State.withFetchWord (s : State) (nbits w : Nat) : State := s.loadWord s.fetchAddress (w % 2 ^ nbits)

end Sys2Proof.Machine
end

