-- ==== Sys2Proof/Safety.lean ====
section
/-! DEFINITION. The terms claims are stated in: the invariant of the states a run can reach, what an instruction leaves
as it was, and what a trap, a CSR instruction, a page-table walk and a PMP match look like from outside. -/

namespace Sys2Proof.Machine

/-- The value is an XLEN-bit value: on RV32 the upper half of the container is zero (DESIGN CHOICE,
notes/assumptions/2.md). -/
def fits (x : XLen) (w : Word) : Prop := truncXlen x w = w

/-- Bits 1:0 are zero (10_state.md R22, R35, R36, R49, R50). -/
def aligned4 (w : Word) : Prop := w.toNat % 4 = 0

/-- Every register holds an XLEN-bit value (10_state.md R22-R24). -/
structure State.WidthsOk (s : State) : Prop where
  pc : fits s.cfg.xlen s.pc
  x : ∀ r : RegIdx, fits s.cfg.xlen (s.readReg r)
  mstatus : fits s.cfg.xlen s.mstatus
  mtvec : fits s.cfg.xlen s.mtvec
  mepc : fits s.cfg.xlen s.mepc
  mcause : fits s.cfg.xlen s.mcause
  mtval : fits s.cfg.xlen s.mtval
  mscratch : fits s.cfg.xlen s.mscratch
  stvec : fits s.cfg.xlen s.stvec
  sepc : fits s.cfg.xlen s.sepc
  scause : fits s.cfg.xlen s.scause
  stval : fits s.cfg.xlen s.stval
  sscratch : fits s.cfg.xlen s.sscratch
  satp : fits s.cfg.xlen s.satp

/-- The pc and the registers it is loaded from are multiples of 4 (10_state.md R22). -/
structure State.Aligned (s : State) : Prop where
  pc : aligned4 s.pc
  mtvec : aligned4 s.mtvec
  mepc : aligned4 s.mepc
  stvec : aligned4 s.stvec
  sepc : aligned4 s.sepc

/-- The mode and the fields that hold a mode are modes the configuration has (10_state.md R20, R26), and the bits of
`mstatus` that are hardwired read zero (R27-R33). -/
structure State.ModesOk (s : State) : Prop where
  priv : hasMode s.cfg s.priv = true
  mpp : legalMpp s.cfg (s.mstatus.extractLsb' 11 2) = true
  hardwired : s.mstatus &&& ~~~(mstatusWritable s.cfg ||| maskMPP) = 0#64

/-- Bits that do not exist read zero in the interrupt and delegation registers (10_state.md R40-R43). -/
structure State.InterruptRegsOk (s : State) : Prop where
  mie : s.mie &&& ~~~interruptBits s.cfg = 0#64
  mipSw : s.mipSw &&& ~~~supervisorBits s.cfg = 0#64
  medeleg : s.medeleg &&& ~~~0xB3FF#64 = 0#64
  mideleg : s.mideleg &&& ~~~0x222#64 = 0#64

/-- `satp`, where it is there, holds a mode of `SATP_MODES`, and it holds only implemented bits (10_state.md R57). -/
structure State.SatpOk (s : State) : Prop where
  mode : s.cfg.hasS = true → ∃ m, satpModeOf s.cfg.xlen s.satp = some m ∧ s.cfg.satpModes.contains m = true
  bits : s.satp &&& ~~~satpMask s.cfg = 0#64

/-- PMP registers: configuration bits 6:5 zero and no R = 0 with W = 1 (10_state.md R46, D47); address bits above
`PASIZE - 3` zero (R44); nothing at or above `PMP_COUNT` (R45). -/
structure State.PmpOk (s : State) : Prop where
  reserved : ∀ i, s.pmpCfg i &&& 0x60#8 = 0#8
  readWrite : ∀ i, pmpW (s.pmpCfg i) = true → pmpR (s.pmpCfg i) = true
  addr : ∀ i, s.pmpAddr i &&& ~~~lowMask (s.cfg.pasize - 2) = 0#64
  absentCfg : ∀ i, s.cfg.pmpCount ≤ i → s.pmpCfg i = 0#8
  absentAddr : ∀ i, s.cfg.pmpCount ≤ i → s.pmpAddr i = 0#64

/-- Strictly rising numbers. -/
def rising : List Nat → Bool
  | [] => true
  | [_] => true
  | a :: b :: l => decide (a < b) && rising (b :: l)

/-- Memory and the record of written words are in their canonical forms. -/
structure State.MemoryOk (s : State) : Prop where
  mem : Memory.wf s.mem = true
  written : rising s.written = true

/-- The invariant of every reachable state. -/
structure State.Inv (s : State) : Prop where
  cfg : s.cfg.wf = true
  widths : s.WidthsOk
  aligned : s.Aligned
  modes : s.ModesOk
  interrupts : s.InterruptRegsOk
  satp : s.SatpOk
  pmp : s.PmpOk
  memory : s.MemoryOk

/-- Every integer register reads as before. -/
def sameRegs (s t : State) : Prop := ∀ r : RegIdx, t.readReg r = s.readReg r

/-- Every byte of memory reads as before. -/
def sameBytes (s t : State) : Prop := ∀ a : Nat, t.mem.read a = s.mem.read a

/-- Every byte of memory outside the `n` bytes from `a` up reads as before. -/
def sameBytesOutside (s t : State) (a n : Nat) : Prop := ∀ b : Nat, (b < a ∨ a + n ≤ b) → t.mem.read b = s.mem.read b

/-- The registers a trap to M-mode saves into are as before (60_exceptions.md R235). -/
def sameMachineTrapRegs (s t : State) : Prop := t.mepc = s.mepc ∧ t.mcause = s.mcause ∧ t.mtval = s.mtval

/-- The registers a trap to S-mode saves into are as before (60_exceptions.md R236). -/
def sameSupervisorTrapRegs (s t : State) : Prop := t.sepc = s.sepc ∧ t.scause = s.scause ∧ t.stval = s.stval

/-- Every CSR that no trap writes is as before. -/
def sameOtherCsrs (s t : State) : Prop :=
  t.mtvec = s.mtvec ∧ t.mscratch = s.mscratch ∧ t.mie = s.mie ∧ t.mipSw = s.mipSw ∧ t.medeleg = s.medeleg ∧
    t.mideleg = s.mideleg ∧ t.pmpcfg = s.pmpcfg ∧ t.pmpaddr = s.pmpaddr ∧ t.stvec = s.stvec ∧
    t.sscratch = s.sscratch ∧ t.satp = s.satp

/-- Every CSR is as before, `mip` as far as it is written by software (`sameSurroundings` speaks of the lines it shows). -/
def sameCsrs (s t : State) : Prop :=
  t.mstatus = s.mstatus ∧ sameMachineTrapRegs s t ∧ sameSupervisorTrapRegs s t ∧ sameOtherCsrs s t

/-- The implementation, the input lines and the schedule are as before. -/
def sameSurroundings (s t : State) : Prop := t.cfg = s.cfg ∧ t.lines = s.lines ∧ t.inputs = s.inputs

/-- What no trap touches is as before (60_exceptions.md R235, R236). -/
structure UntouchedByTrap (s t : State) : Prop where
  regs : sameRegs s t
  csrs : sameOtherCsrs s t
  bytes : sameBytes s t
  surroundings : sameSurroundings s t
  record : t.written = s.written ∧ t.hist = s.hist ∧ t.draws = s.draws

/-- `t` is `s` after a trap to M-mode with this cause, trap value and saved pc (60_exceptions.md R235), bit by bit. -/
structure TookTrapM (s t : State) (isInterrupt : Bool) (code : Nat) (tval epc : Word) : Prop where
  mepc : t.mepc = epc &&& ~~~3#64
  mcause : t.mcause = BitVec.ofNat 64 ((if isInterrupt then 2 ^ (s.cfg.xlen.bits - 1) else 0) + code)
  mtval : t.mtval = tval
  mpie : t.mstatus.getLsbD 7 = s.mstatus.getLsbD 3
  mie : t.mstatus.getLsbD 3 = false
  mpp : t.mstatus.extractLsb' 11 2 = BitVec.ofNat 2 (modeCode s.priv)
  status : ∀ i, i ≠ 3 → i ≠ 7 → i ≠ 11 → i ≠ 12 → t.mstatus.getLsbD i = s.mstatus.getLsbD i
  priv : t.priv = .machine
  pc : t.pc = s.mtvec
  waiting : t.waiting = false
  supervisor : sameSupervisorTrapRegs s t
  rest : UntouchedByTrap s t

/-- `t` is `s` after a trap to S-mode with this cause, trap value and saved pc (60_exceptions.md R236), bit by bit. -/
structure TookTrapS (s t : State) (isInterrupt : Bool) (code : Nat) (tval epc : Word) : Prop where
  sepc : t.sepc = epc &&& ~~~3#64
  scause : t.scause = BitVec.ofNat 64 ((if isInterrupt then 2 ^ (s.cfg.xlen.bits - 1) else 0) + code)
  stval : t.stval = tval
  spie : t.mstatus.getLsbD 5 = s.mstatus.getLsbD 1
  sie : t.mstatus.getLsbD 1 = false
  spp : t.mstatus.getLsbD 8 = decide (s.priv = .supervisor)
  status : ∀ i, i ≠ 1 → i ≠ 5 → i ≠ 8 → t.mstatus.getLsbD i = s.mstatus.getLsbD i
  priv : t.priv = .supervisor
  pc : t.pc = s.stvec
  waiting : t.waiting = false
  machine : sameMachineTrapRegs s t
  rest : UntouchedByTrap s t

/-- A trap is taken in S-mode: S-mode is there, the hart is below M-mode, and the bit of the cause is set in `medeleg`
or `mideleg` (60_exceptions.md R234). -/
def goesToS (s : State) (isInterrupt : Bool) (code : Nat) : Prop :=
  s.cfg.hasS = true ∧ s.priv ≠ .machine ∧
    (if isInterrupt then s.mideleg.getLsbD code else s.medeleg.getLsbD code) = true

/-- The cause is an interrupt. -/
def causeIsInterrupt : Cause → Bool
  | .exception _ => false
  | .interrupt _ => true

/-- The code of the cause (60_exceptions.md R212, R213). -/
def causeCode : Cause → Nat
  | .exception e => exnCode e
  | .interrupt i => interruptCode i

/-- `t` is `s` after the trap, in the mode R234 says. -/
def TookTrap (s t : State) (isInterrupt : Bool) (code : Nat) (tval epc : Word) : Prop :=
  (goesToS s isInterrupt code → TookTrapS s t isInterrupt code tval epc) ∧
    (¬ goesToS s isInterrupt code → TookTrapM s t isInterrupt code tval epc)

/-- `pc <- pc + 4` modulo 2^XLEN (10_state.md R22). -/
def pcAdvanced (s t : State) : Prop := t.pc.toNat = (s.pc.toNat + 4) % 2 ^ s.cfg.xlen.bits

/-- `t` is `s` after a CSR instruction: `rd` holds the old value (`x0` is not written), the pc has moved on, and all else
is `w`, which is `s` with the CSR written or `s` itself (43_csr_access.md R191-R196). -/
structure CsrDone (s w t : State) (rd : RegIdx) (old : Word) : Prop where
  regs : ∀ r, t.readReg r = if r = 0#5 then 0#64 else if r = rd then old else s.readReg r
  pc : pcAdvanced s t
  rest : t = { w with x := t.x, pc := t.pc }

/-- The CSR number names the CSR `c`, which the configuration has and the mode may access (43_csr_access.md R190). -/
def csrAccessible (s : State) (n : CsrNum) (c : Csr) : Prop :=
  csrOfNumber n.toNat = some c ∧ csrExists s.cfg c = true ∧ (n.extractLsb' 8 2).toNat ≤ modeCode s.priv ∧
    ¬ (c = .satp ∧ s.priv = .supervisor ∧ s.mstatus.getLsbD 20 = true)

/-- The CSR number of a CSR instruction. -/
def csrNumberOf : Instr → Option CsrNum
  | .ecall => none
  | .ebreak => none
  | .sret => none
  | .mret => none
  | .wfi => none
  | .sfenceVma _ _ => none
  | .csrrw _ n _ => some n
  | .csrrs _ n _ => some n
  | .csrrc _ n _ => some n
  | .csrrwi _ n _ => some n
  | .csrrsi _ n _ => some n
  | .csrrci _ n _ => some n
  | .amoaddW _ _ _ _ _ => none

/-- The destination register of an instruction; `x0` for one that has none. -/
def destOf : Instr → RegIdx
  | .ecall => 0
  | .ebreak => 0
  | .sret => 0
  | .mret => 0
  | .wfi => 0
  | .sfenceVma _ _ => 0
  | .csrrw rd _ _ => rd
  | .csrrs rd _ _ => rd
  | .csrrc rd _ _ => rd
  | .csrrwi rd _ _ => rd
  | .csrrsi rd _ _ => rd
  | .csrrci rd _ _ => rd
  | .amoaddW _ _ rd _ _ => rd

/-- The CSR whose storage a CSR shows: `sstatus`, `sie` and `sip` are views (10_state.md R47, R54). -/
def csrHome (c : Csr) : Csr :=
  match c with
  | .sstatus => .mstatus
  | .sie => .mie
  | .sip => .mip
  | other => other

/-- The hart with its lines sampled and its wfi flag clear: where steps 4 to 6 of R8 begin. -/
def State.awake (s : State) : State := { s.sampleLines with waiting := false }

/-- The step reaches the fetch (00_scope.md R8): no interrupt is taken and the hart does not stay in `wfi`. -/
def reachesFetch (s : State) : Prop :=
  s.sampleLines.nextInterrupt = none ∧ (s.waiting = true → s.sampleLines.mip &&& s.mie ≠ 0#64)

/-- `takeableM(i)` on the bits of the registers (60_exceptions.md R231). -/
def wantsM (s : State) (i : Interrupt) : Prop :=
  (s.mip.getLsbD (interruptCode i) = true ∧ s.mie.getLsbD (interruptCode i) = true) ∧
    (s.cfg.hasS = false ∨ s.mideleg.getLsbD (interruptCode i) = false) ∧
    (s.priv ≠ .machine ∨ s.mstatus.getLsbD 3 = true)

/-- `takeableS(i)` on the bits of the registers (60_exceptions.md R231). -/
def wantsS (s : State) (i : Interrupt) : Prop :=
  (s.mip.getLsbD (interruptCode i) = true ∧ s.mie.getLsbD (interruptCode i) = true) ∧
    (s.cfg.hasS = true ∧ s.mideleg.getLsbD (interruptCode i) = true) ∧
    (s.priv = .user ∨ (s.priv = .supervisor ∧ s.mstatus.getLsbD 1 = true))

/-- The place of an interrupt in the order of 60_exceptions.md R232, 0 the highest. -/
def interruptRank : Interrupt → Nat
  | .mei => 0
  | .msi => 1
  | .mti => 2
  | .sei => 3
  | .ssi => 4
  | .sti => 5

/-- Byte `a` lies in the page-table entry in which translation step 7 sets A, or D for a store, when the hart makes this
access: the leaf of a walk that is made, with one of the two bits missing (20_memory.md R108). -/
def walkUpdates (s : State) (va : Word) (acc : Access) (a : Nat) : Prop :=
  s.translated (s.effPriv acc) = true ∧
    ∃ level addr pte, (s.chosenWalk va acc (s.effPriv acc)).2.result = .leaf level addr pte ∧
      (pte.getLsbD 6 = false ∨ (acc = .store ∧ pte.getLsbD 7 = false)) ∧
      addr ≤ a ∧ a < addr + pteSize (s.satpMode (s.chosenWalk va acc (s.effPriv acc)).1)

/-- The scheme has these numbers of levels, of bytes of a PTE, of bits of a page-number field of the virtual address, and of
bits of the page number in a PTE, and the fields are where they are drawn: `va.vpn[i]` above the 12-bit page offset and the
fields below it, `pte.ppn` from bit 10 up (20_memory.md R88, R89, R99, R101, R113). -/
structure SchemeIs (m : SatpMode) (levelCount pteBytes vpnWidth ppnWidth : Nat) : Prop where
  levels : levels m = levelCount
  pteSize : pteSize m = pteBytes
  vpnBits : vpnBits m = vpnWidth
  vpn : ∀ (va : Word) (i j : Nat),
    (vpnOf m va i).testBit j = (decide (j < vpnWidth) && va.getLsbD (12 + vpnWidth * i + j))
  ppn : ∀ (pte : Word) (j : Nat), (ptePpn m pte).testBit j = (decide (j < ppnWidth) && pte.getLsbD (10 + j))

/-- The scheme translates the address: under Sv39 bits 63:39 equal bit 38 (20_memory.md R112), under Sv48 bits 63:48 equal
bit 47 (R113). -/
def translatable (m : SatpMode) (va : Word) : Prop :=
  (m = .sv39 → ∀ i, 39 ≤ i → i < 64 → va.getLsbD i = va.getLsbD 38) ∧
    (m = .sv48 → ∀ i, 48 ≤ i → i < 64 → va.getLsbD i = va.getLsbD 47)

/-- PMP, as an S-mode load, and PMA let a walk read the page-table entry (20_memory.md R103). -/
def pteReadable (s : State) (m : SatpMode) (addr : Nat) : Prop :=
  s.pmpCheck addr (pteSize m) .load .supervisor = true ∧ pmaAllows s.cfg addr (pteSize m) .load = true

/-- PMP, as an S-mode store, and PMA let step 7 write the page-table entry (20_memory.md R108). -/
def pteWritable (s : State) (m : SatpMode) (addr : Nat) : Prop :=
  s.pmpCheck addr (pteSize m) .store .supervisor = true ∧ pmaAllows s.cfg addr (pteSize m) .store = true

/-- PTE reads that follow the tables from physical address `a` with `i` levels left (20_memory.md R102, R103, R105):
each at its table's address plus its index, each table at the page the entry before it names. -/
def followsTables (m : SatpMode) (va : Word) : Nat → Nat → List PteUse → Prop
  | _, _, [] => True
  | a, i, u :: us =>
    u.level + 1 = i ∧ u.addr = a + vpnOf m va u.level * pteSize m ∧
      followsTables m va (ptePpn m u.value * 4096) u.level us

/-- The page-table entry a walk goes on to read after the given reads, from the table at physical address `a` with `i`
levels left (20_memory.md R102, R103, R105); none after a read that is not of a valid pointer, or with no level left. -/
def nextEntry (m : SatpMode) (va : Word) : Nat → Nat → List PteUse → Option Nat
  | _, 0, [] => none
  | a, i + 1, [] => some (a + vpnOf m va i * pteSize m)
  | _, _, u :: us =>
    if pteInvalid u.value || pteLeaf u.value then none else nextEntry m va (ptePpn m u.value * 4096) u.level us

/-- `PermOK` (20_memory.md R106) on the bits of a leaf PTE and of `mstatus`. -/
def leafPermits (s : State) (pte : Word) (acc : Access) (p : Mode) : Prop :=
  ((acc = .fetch ∧ pte.getLsbD 3 = true) ∨
    (acc = .load ∧ (pte.getLsbD 1 = true ∨ (s.mstatus.getLsbD 19 = true ∧ pte.getLsbD 3 = true))) ∨
    (acc = .store ∧ pte.getLsbD 2 = true)) ∧
  ((p = .user ∧ pte.getLsbD 4 = true) ∨ (p = .supervisor ∧ pte.getLsbD 4 = false) ∨
    (p = .supervisor ∧ pte.getLsbD 4 = true ∧ s.mstatus.getLsbD 18 = true ∧ acc ≠ .fetch))

/-- The entry is a valid pointer to the next table (20_memory.md R91). -/
def pointerEntry (pte : Word) : Prop :=
  pte.getLsbD 0 = true ∧ pte.getLsbD 1 = false ∧ pte.getLsbD 2 = false ∧ pte.getLsbD 3 = false

/-- The entry is a valid leaf that permits the access and is aligned to the size it maps (20_memory.md R91, R106, R107). -/
def usableLeaf (s : State) (m : SatpMode) (u : PteUse) (acc : Access) (p : Mode) : Prop :=
  u.value.getLsbD 0 = true ∧ (u.value.getLsbD 1 = true ∨ u.value.getLsbD 3 = true) ∧
    (u.value.getLsbD 2 = true → u.value.getLsbD 1 = true) ∧ leafPermits s u.value acc p ∧
    ptePpn m u.value % 2 ^ (vpnBits m * u.level) = 0

/-- Which fault a translation raises, by the end of its walk, where `pageFault` and `accessFault` say that it raises the one
or the other: the page fault where the walk ends so; the access fault where PMP or PMA denies the read of the entry the walk
goes on to, and then alone a walk ends so; at a leaf with A clear, or D for a store, the page fault under the policy Fault,
the access fault under HardwareUpdate when the write is denied, and one of the two under Either then (20_memory.md R103,
R108). -/
structure FaultsByWalk (s : State) (va : Word) (acc : Access) (p : Mode) (pageFault accessFault : Prop) : Prop where
  walkFault : (s.chosenWalk va acc p).2.result = .pageFault → pageFault
  deniedOnly : (s.chosenWalk va acc p).2.result = .accessFault → accessFault ∧
    ∃ addr, nextEntry (s.satpMode (s.chosenWalk va acc p).1) va (satpPpn s.cfg.xlen (s.chosenWalk va acc p).1 * 4096)
        (levels (s.satpMode (s.chosenWalk va acc p).1)) (s.chosenWalk va acc p).2.uses = some addr ∧
      ¬ pteReadable s (s.satpMode (s.chosenWalk va acc p).1) addr
  denied : ∀ addr, translatable (s.satpMode (s.chosenWalk va acc p).1) va →
    nextEntry (s.satpMode (s.chosenWalk va acc p).1) va (satpPpn s.cfg.xlen (s.chosenWalk va acc p).1 * 4096)
      (levels (s.satpMode (s.chosenWalk va acc p).1)) (s.chosenWalk va acc p).2.uses = some addr →
    ¬ pteReadable s (s.satpMode (s.chosenWalk va acc p).1) addr → accessFault
  update : ∀ level addr pte, (s.chosenWalk va acc p).2.result = .leaf level addr pte →
    (pte.getLsbD 6 = false ∨ (acc = .store ∧ pte.getLsbD 7 = false)) →
    (s.cfg.adPolicy = .fault → pageFault) ∧
      (¬ pteWritable s (s.satpMode (s.chosenWalk va acc p).1) addr →
        (s.cfg.adPolicy = .hardwareUpdate → accessFault) ∧ (s.cfg.adPolicy = .either → pageFault ∨ accessFault))

/-- A mapping of `va`, from the table at physical address `a` with some levels left, whose entries `entry` admits at their
level and address, ends in a leaf PTE that `accepts` holds of (20_memory.md R102 to R105). -/
def mapsTo (m : SatpMode) (va : Word) (entry : Nat → Nat → Word → Prop) (accepts : Word → Prop) : Nat → Nat → Prop
  | 0, _ => False
  | i + 1, a =>
    ∃ v, entry i (a + vpnOf m va i * pteSize m) v ∧
      ((pteValidLeaf v = true ∧ accepts v) ∨
        (pteInvalid v = false ∧ pteLeaf v = false ∧ mapsTo m va entry accepts i (ptePpn m v * 4096)))

/-- A mapping of `va`, from the root that `satp` names, has a leaf PTE with G = 1 (20_memory.md R93). Its entries are in
memory or remembered, and agree with the reads `uses` of a walk: where one of these is of the same entry, the value is the
one it returned. If the values the walk returned, with memory's for the entries it did not read, map nothing, a mapping whose
entries are in memory or among those reads is enough, from that root or from the current one of the same address space. -/
def mapsGlobally (s : State) (satp va : Word) (uses : List PteUse) : Prop :=
  let m := s.satpMode satp
  let returned := fun (level addr : Nat) (v : Word) => ∃ u ∈ uses, u.level = level ∧ u.addr = addr ∧ u.value = v
  let isRead := fun level addr => ∃ v, returned level addr v
  let isGlobal := fun v => pteG v = true
  let fromRoot := fun (root : Word) (entry : Nat → Nat → Word → Prop) (accepts : Word → Prop) =>
    canonical (s.satpMode root) va = true ∧
      mapsTo (s.satpMode root) va entry accepts (levels (s.satpMode root)) (satpPpn s.cfg.xlen root * 4096)
  fromRoot satp (fun level addr v =>
      (v = s.pteAt m addr ∨ v ∈ (s.pteHeld m addr).map Prod.fst) ∧ (isRead level addr → returned level addr v)) isGlobal ∨
  (¬ fromRoot satp (fun level addr v => returned level addr v ∨ (¬ isRead level addr ∧ v = s.pteAt m addr))
      (fun _ => True) ∧
    ∃ root, (root = satp ∨ (root = s.satp ∧ satpAsid s.cfg.xlen root = satpAsid s.cfg.xlen satp)) ∧
      fromRoot root (fun level addr v => v = s.pteAt (s.satpMode root) addr ∨ returned level addr v) isGlobal)

/-- Some byte of `[pa, pa+n)` is in the region of PMP entry `i` (20_memory.md R117). -/
def pmpTouches (s : State) (i pa n : Nat) : Prop :=
  ∃ lo hi y, s.pmpRegion i = some (lo, hi) ∧ pa ≤ y ∧ y < pa + n ∧ lo ≤ y ∧ y < hi

/-- Every byte of `[pa, pa+n)` is in the region of PMP entry `i`. -/
def pmpCovers (s : State) (i pa n : Nat) : Prop :=
  ∃ lo hi, s.pmpRegion i = some (lo, hi) ∧ ∀ y, pa ≤ y → y < pa + n → lo ≤ y ∧ y < hi

end Sys2Proof.Machine
end

