-- ==== Sys2Proof/Certificates/Slice0/Obligations.lean ====
section
/-! DEFINITION. The statements for the provers. A statement names the rules of spec/ it rests on; where it holds for
every value of a free choice, it says what holds whichever choice is made. -/

open Sys2Proof Sys2Proof.Machine

/-! ## Encoding (30_encoding.md) -/

/-- Every instruction, with every operand, is what the decoder reads from its word, and from its word's four bytes
whatever bytes follow (R140-R146). -/
def Obligations.DecodeEncodeRoundTrip : Prop :=
  ∀ (i : Instr) (rest : List Byte),
    decode (encode i) = .instr i ∧ decodeBytes (leBytes 4 (encode i).toNat ++ rest) = some (.instr i, rest)

/-- A word that decodes to an instruction is that instruction's word: decoding drops no bit (R140-R146). -/
def Obligations.EncodeDecodeRoundTrip : Prop :=
  ∀ (w : InstrWord) (i : Instr), decode w = .instr i → encode i = w

/-- The decoder follows the opcode table (R153): the rows are mutually exclusive, and a word decodes to an instruction
of a row exactly when it has the row's match value under the row's mask. -/
def Obligations.DecodeFollowsTable : Prop :=
  (∀ (w : InstrWord) (i j : Instr), w &&& (opcodeRow i).1 = (opcodeRow i).2 →
    w &&& (opcodeRow j).1 = (opcodeRow j).2 → opcodeRow i = opcodeRow j) ∧
  ∀ (w : InstrWord) (i : Instr), w &&& (opcodeRow i).1 = (opcodeRow i).2 ↔
    ∃ j, decode w = .instr j ∧ opcodeRow j = opcodeRow i

/-- The four classes of a word that matches no row (R147, R148): the first three raise an illegal-instruction exception
whose trap value is the word (zero on a hart that does not capture it), the last is refused. -/
def Obligations.UnknownWordClasses : Prop :=
  ∀ (s : State) (w : InstrWord), (∀ i, w &&& (opcodeRow i).1 ≠ (opcodeRow i).2) →
    ((w.extractLsb' 0 7 = 0b1110011#7 ∨ w = 0x00000000#32 ∨ w = 0xFFFFFFFF#32 ∨ w.extractLsb' 0 2 ≠ 0b11#2) →
      ∃ t, s.runWord w = .next t ∧
        TookTrap s t false 2 (if s.cfg.tvalIllegalBits then w.setWidth 64 else 0#64) s.pc) ∧
    (¬ (w.extractLsb' 0 7 = 0b1110011#7 ∨ w = 0x00000000#32 ∨ w = 0xFFFFFFFF#32 ∨ w.extractLsb' 0 2 ≠ 0b11#2) →
      s.runWord w = .refused .wordOutsideSpec)

/-- Words the spec prints, with the instructions it says they are (R142-R145, R152 and the worked examples). -/
def Obligations.PrintedWordsDecode : Prop :=
  decode 0x00000073#32 = .instr .ecall ∧ decode 0x00100073#32 = .instr .ebreak ∧
  decode 0x10200073#32 = .instr .sret ∧ decode 0x30200073#32 = .instr .mret ∧ decode 0x10500073#32 = .instr .wfi ∧
  decode 0x12B50073#32 = .instr (.sfenceVma 10 11) ∧
  decode 0x34051573#32 = .instr (.csrrw 10 0x340 10) ∧ decode 0x30032073#32 = .instr (.csrrs 0 0x300 6) ∧
  decode 0x30033073#32 = .instr (.csrrc 0 0x300 6) ∧ decode 0x3402D073#32 = .instr (.csrrwi 0 0x340 5) ∧
  decode 0x30046073#32 = .instr (.csrrsi 0 0x300 8) ∧ decode 0x10017573#32 = .instr (.csrrci 10 0x100 2) ∧
  decode 0x00B6252F#32 = .instr (.amoaddW false false 10 12 11) ∧
  decode 0x06B6252F#32 = .instr (.amoaddW true true 10 12 11)

/-! ## The step (00_scope.md R8) -/

/-- A step that reaches the fetch and fetches a word runs that word's instruction, on the state after the fetch: the
lines sampled, the wfi flag clear, and whatever the fetch's translation left (R8 steps 1, 3-6). That the lines of the steps
to come are a list, of which each step takes one entry, and that they stay as they are when it ends, is the model's choice,
not R8's (notes/assumptions/5.md). -/
def Obligations.StepRunsFetchedInstruction : Prop :=
  ∀ (s u : State) (w : InstrWord), reachesFetch s → s.awake.fetch = .ok w u →
    step s = u.runWord w ∧ (∀ i, decode w = .instr i → step s = exec i u) ∧
    u.pc = s.pc ∧ u.priv = s.priv ∧ u.cfg = s.cfg ∧ sameRegs s u ∧ sameCsrs s u ∧ u.waiting = false ∧
    u.lines = s.inputs.headD s.lines ∧ u.inputs = s.inputs.tail

/-- When the four bytes at the pc are an instruction's word and the fetch is permitted, a step of an untranslated hart
is that instruction executed; the step adds only the sampling of the lines and the clear wfi flag. -/
def Obligations.StepRunsInstructionInMemory : Prop :=
  ∀ (s : State) (i : Instr), reachesFetch s → s.translated s.priv = false → s.pc.toNat % 4 = 0 →
    s.mem.readBytes s.pc.toNat 4 = leBytes 4 (encode i).toNat →
    s.pmpCheck s.pc.toNat 4 .fetch s.priv = true → pmaAllows s.cfg s.pc.toNat 4 .fetch = true →
    pmaDevice s.cfg s.pc.toNat 4 = false → s.written.contains (s.pc.toNat / 4) = false →
    step s = exec i s.awake

/-- A waiting hart with no interrupt to take stays as it is while nothing is pending and enabled in `mie`, whatever the
global enables and `mideleg` hold, and otherwise goes on to the fetch (R8 step 3, 41_sfence_wfi.md R171). -/
def Obligations.WaitingHart : Prop :=
  ∀ s : State, s.waiting = true → s.sampleLines.nextInterrupt = none →
    (s.sampleLines.mip &&& s.mie = 0#64 → step s = .next s.sampleLines) ∧
    (s.sampleLines.mip &&& s.mie ≠ 0#64 → step s = s.awake.runNext)

/-- A step never answers anything but a next state or one of the four refusals the spec asks for: the hart has no halt
(70_reset_and_hazards.md R278; 30_encoding.md R147; 10_state.md R62; 20_memory.md R123, R126). -/
def Obligations.HartNeverHalts : Prop :=
  ∀ s : State, (∃ t, step s = .next t) ∨ step s = .refused .wordOutsideSpec ∨ step s = .refused .csrOutsideSpec ∨
    step s = .refused .deviceRegion ∨ step s = .refused .fetchOfWrittenWord

/-! ## Fetch faults (60_exceptions.md R216, R226) -/

/-- A fetch at a physical address that PMP or PMA denies raises the instruction access fault with the pc as trap value
and as saved pc (R216, R238). -/
def Obligations.FetchAccessFault : Prop :=
  ∀ (s u : State) (pa : Nat), reachesFetch s → s.awake.locate s.pc .fetch = .ok pa u →
    ¬ (u.pmpCheck pa 4 .fetch s.priv = true ∧ pmaAllows u.cfg pa 4 .fetch = true) →
    ∃ t, step s = .next t ∧ TookTrap u t false 1 s.pc s.pc

/-- A fetch whose translation raises: whatever `locate` raises is code 12 or code 1, with the pc as trap value and as saved
pc. Code 12 when the walk ends in a page fault; code 1 when PMP or PMA denies the read of the page-table entry the walk
goes on to, and then alone a walk ends so; at a leaf with A clear, code 12
under the policy Fault, code 1 under HardwareUpdate when PMP or PMA denies the write, and one of the two under Either then
(R216, R226, R238; 20_memory.md R103, R108). -/
def Obligations.FetchTranslationFaults : Prop :=
  ∀ s : State, reachesFetch s → s.pc.toNat % 4 = 0 → s.translated s.priv = true →
    let raises := fun code : Nat => ∃ e u, exnCode e = code ∧ s.awake.locate s.pc .fetch = .raised e s.pc u ∧
      u = s.awake.drawn ∧ ∃ t, step s = .next t ∧ TookTrap u t false code s.pc s.pc
    (∀ e tval u, s.awake.locate s.pc .fetch = .raised e tval u → tval = s.pc ∧ (raises 12 ∨ raises 1) ∧
      raises (exnCode e)) ∧
    FaultsByWalk s.awake s.pc .fetch s.priv (raises 12) (raises 1)

/-- A permitted fetch from a device region, or from a word the hart has written since reset, is refused; so is a fetch whose
own page-table walk reaches a device region (20_memory.md R123, R126). -/
def Obligations.FetchRefusals : Prop :=
  ∀ s : State, reachesFetch s →
    (∀ pa u, s.awake.locate s.pc .fetch = .ok pa u →
      u.pmpCheck pa 4 .fetch s.priv = true → pmaAllows u.cfg pa 4 .fetch = true →
      (pmaDevice u.cfg pa 4 = true → step s = .refused .deviceRegion) ∧
      (pmaDevice u.cfg pa 4 = false → pa / 4 ∈ u.written → step s = .refused .fetchOfWrittenWord)) ∧
    (∀ r, s.awake.locate s.pc .fetch = .refused r → r = .deviceRegion ∧ step s = .refused .deviceRegion)

/-! ## Interrupts (60_exceptions.md R230-R232) -/

/-- Which interrupt is taken: any M-bound one that is takeable before any S-bound one, and within a destination the
highest in the order MEI, MSI, MTI, SEI, SSI, STI (R231, R232). -/
def Obligations.InterruptPriority : Prop :=
  ∀ (s : State) (i : Interrupt), s.nextInterrupt = some i ↔
    (wantsM s i ∧ ∀ j, wantsM s j → interruptRank i ≤ interruptRank j) ∨
    ((∀ j, ¬ wantsM s j) ∧ wantsS s i ∧ ∀ j, wantsS s j → interruptRank i ≤ interruptRank j)

/-- R231 in words: in M-mode MIE gates everything not delegated, and delegated interrupts wait; in S-mode every M-bound
interrupt is enabled and S-bound ones follow SIE; in U-mode everything pending and enabled is taken. -/
def Obligations.InterruptEnabledByMode : Prop :=
  ∀ s : State,
    (s.priv = .machine → (s.nextInterrupt ≠ none ↔ s.mstatus.getLsbD 3 = true ∧ ∃ i, s.mip.getLsbD (interruptCode i) = true ∧
      s.mie.getLsbD (interruptCode i) = true ∧ (s.cfg.hasS = false ∨ s.mideleg.getLsbD (interruptCode i) = false))) ∧
    (s.priv = .supervisor → (s.nextInterrupt ≠ none ↔ ∃ i, s.mip.getLsbD (interruptCode i) = true ∧
      s.mie.getLsbD (interruptCode i) = true ∧
      (s.cfg.hasS = false ∨ s.mideleg.getLsbD (interruptCode i) = false ∨ s.mstatus.getLsbD 1 = true))) ∧
    (s.priv = .user → (s.nextInterrupt ≠ none ↔ ∃ i, s.mip.getLsbD (interruptCode i) = true ∧
      s.mie.getLsbD (interruptCode i) = true))

/-- A step that can take an interrupt takes it before any instruction: trap value 0, the pc saved, the pending and
enable bits left as they are (R8 step 2, R230, R238, R239). -/
def Obligations.StepTakesInterrupt : Prop :=
  ∀ (s : State) (i : Interrupt), s.sampleLines.nextInterrupt = some i →
    ∃ t, step s = .next t ∧ TookTrap s.sampleLines t true (interruptCode i) 0#64 s.pc ∧
      t.mip = s.sampleLines.mip ∧ t.mie = s.mie

/-! ## Traps (60_exceptions.md R210, R211, R234-R240) -/

/-- The value a trap writes to `mcause` or `scause` (R211): the Interrupt bit at XLEN-1, the code below it; and the codes of
the interrupts (R212) and of the synchronous exceptions (R213). -/
def Obligations.CauseEncoding : Prop :=
  (∀ (x : XLen) (c : Cause), (causeValue x c).toNat =
    match c with
    | .exception e => exnCode e
    | .interrupt i => 2 ^ (x.bits - 1) + interruptCode i) ∧
  (interruptCode .ssi = 1 ∧ interruptCode .msi = 3 ∧ interruptCode .sti = 5 ∧ interruptCode .mti = 7 ∧
    interruptCode .sei = 9 ∧ interruptCode .mei = 11) ∧
  exnCode .instrAddrMisaligned = 0 ∧ exnCode .instrAccessFault = 1 ∧ exnCode .illegalInstr = 2 ∧
    exnCode .breakpoint = 3 ∧ exnCode .loadAddrMisaligned = 4 ∧ exnCode .loadAccessFault = 5 ∧
    exnCode .storeAddrMisaligned = 6 ∧ exnCode .storeAccessFault = 7 ∧ exnCode .ecallU = 8 ∧ exnCode .ecallS = 9 ∧
    exnCode .ecallM = 11 ∧ exnCode .instrPageFault = 12 ∧ exnCode .loadPageFault = 13 ∧ exnCode .storePageFault = 15

/-- Trap entry, to M-mode or to S-mode as delegation says, with everything it writes and everything it leaves
(R234, R235, R236). -/
def Obligations.TrapEntry : Prop :=
  ∀ (s : State) (tval epc : Word),
    (∀ e : Exn, TookTrap s (s.takeTrap (.exception e) tval epc) false (exnCode e) tval epc) ∧
    (∀ i : Interrupt, TookTrap s (s.takeTrap (.interrupt i) tval epc) true (interruptCode i) tval epc)

/-- A trap never lowers the privilege mode, and never ends in U-mode (R210, R250). -/
def Obligations.TrapNeverLowersPrivilege : Prop :=
  ∀ (s : State) (c : Cause) (tval epc : Word),
    modeCode s.priv ≤ modeCode (s.takeTrap c tval epc).priv ∧ (s.takeTrap c tval epc).priv ≠ .user

/-- `mret` right after a trap to M-mode, and `sret` right after a trap to S-mode with TSR clear, whether an exception's or
an interrupt's, go back to the trapped instruction in its mode with the interrupt enable as it was; the integer registers,
memory and the other mode's trap registers are as before (R240; 40_trap_return.md R160, R161). -/
def Obligations.ReturnUndoesTrap : Prop :=
  ∀ (s : State) (c : Cause) (tval : Word), s.pc.toNat % 4 = 0 →
    (¬ goesToS s (causeIsInterrupt c) (causeCode c) → ∃ t, exec .mret (s.takeTrap c tval s.pc) = .next t ∧
      t.pc = s.pc ∧ t.priv = s.priv ∧ t.mstatus.getLsbD 3 = s.mstatus.getLsbD 3 ∧ sameRegs s t ∧ sameBytes s t ∧
      sameSupervisorTrapRegs s t ∧ sameOtherCsrs s t ∧
      ∀ i, i ≠ 3 → i ≠ 7 → i ≠ 11 → i ≠ 12 → t.mstatus.getLsbD i = s.mstatus.getLsbD i) ∧
    (goesToS s (causeIsInterrupt c) (causeCode c) → s.mstatus.getLsbD 22 = false →
      ∃ t, exec .sret (s.takeTrap c tval s.pc) = .next t ∧
      t.pc = s.pc ∧ t.priv = s.priv ∧ t.mstatus.getLsbD 1 = s.mstatus.getLsbD 1 ∧ sameRegs s t ∧ sameBytes s t ∧
      sameMachineTrapRegs s t ∧ sameOtherCsrs s t ∧
      ∀ i, i ≠ 1 → i ≠ 5 → i ≠ 8 → t.mstatus.getLsbD i = s.mstatus.getLsbD i)

/-! ## `ecall`, `ebreak` (42_ecall_ebreak.md) -/

/-- `ecall` always traps, with code 8 from U-mode, 9 from S-mode and 11 from M-mode, trap value 0 and its own address
saved (R180; 60_exceptions.md R223-R225). -/
def Obligations.EcallTraps : Prop :=
  ∀ s : State, ∃ t, exec .ecall s = .next t ∧
    (s.priv = .user → TookTrap s t false 8 0#64 s.pc) ∧ (s.priv = .supervisor → TookTrap s t false 9 0#64 s.pc) ∧
    (s.priv = .machine → TookTrapM s t false 11 0#64 s.pc)

/-- `ebreak` always traps, in every mode, with code 3, trap value 0 and its own address saved (R181). -/
def Obligations.EbreakTraps : Prop :=
  ∀ s : State, ∃ t, exec .ebreak s = .next t ∧ TookTrap s t false 3 0#64 s.pc

/-! ## `mret`, `sret` (40_trap_return.md) -/

/-- `mret` in M-mode completes with its five assignments and changes nothing else; in S- or U-mode it raises an
illegal-instruction exception (R160). The mode of the value 2 of MPP, which MPP never holds, is left out. -/
def Obligations.MretResult : Prop :=
  ∀ s : State, ∃ t, exec .mret s = .next t ∧
    (s.priv = .machine →
      t.pc = s.mepc ∧
      (s.mstatus.extractLsb' 11 2 = 0#2 → t.priv = .user) ∧
      (s.mstatus.extractLsb' 11 2 = 1#2 → t.priv = .supervisor) ∧
      (s.mstatus.extractLsb' 11 2 = 3#2 → t.priv = .machine) ∧
      t.mstatus.getLsbD 3 = s.mstatus.getLsbD 7 ∧ t.mstatus.getLsbD 7 = true ∧
      t.mstatus.extractLsb' 11 2 = (if s.cfg.hasU then 0#2 else 3#2) ∧
      (∀ i, i ≠ 3 → i ≠ 7 → i ≠ 11 → i ≠ 12 → t.mstatus.getLsbD i = s.mstatus.getLsbD i) ∧
      t = { s with pc := t.pc, priv := t.priv, mstatus := t.mstatus }) ∧
    (s.priv ≠ .machine →
      TookTrap s t false 2 (if s.cfg.tvalIllegalBits then 0x30200073#64 else 0#64) s.pc)

/-- `sret` in M-mode, or in S-mode with TSR clear, on a hart with S-mode, completes with its five assignments and
changes nothing else; otherwise it raises an illegal-instruction exception (R161). -/
def Obligations.SretResult : Prop :=
  ∀ s : State, ∃ t, exec .sret s = .next t ∧
    (s.cfg.hasS = true ∧ (s.priv = .machine ∨ (s.priv = .supervisor ∧ s.mstatus.getLsbD 22 = false)) →
      t.pc = s.sepc ∧ t.priv = (if s.mstatus.getLsbD 8 then .supervisor else .user) ∧
      t.mstatus.getLsbD 1 = s.mstatus.getLsbD 5 ∧ t.mstatus.getLsbD 5 = true ∧ t.mstatus.getLsbD 8 = false ∧
      (∀ i, i ≠ 1 → i ≠ 5 → i ≠ 8 → t.mstatus.getLsbD i = s.mstatus.getLsbD i) ∧
      t = { s with pc := t.pc, priv := t.priv, mstatus := t.mstatus }) ∧
    (s.cfg.hasS = false ∨ s.priv = .user ∨ (s.priv = .supervisor ∧ s.mstatus.getLsbD 22 = true) →
      TookTrap s t false 2 (if s.cfg.tvalIllegalBits then 0x10200073#64 else 0#64) s.pc)

/-! ## `sfence.vma`, `wfi` (41_sfence_wfi.md) -/

/-- `sfence.vma` in M-mode, or in S-mode with TVM clear, on a hart with S-mode, completes: the pc moves on and nothing
changes but what is remembered of translations. Otherwise it raises an illegal-instruction exception (R170). -/
def Obligations.SfenceVmaResult : Prop :=
  ∀ (s : State) (rs1 rs2 : RegIdx), ∃ t, exec (.sfenceVma rs1 rs2) s = .next t ∧
    (s.cfg.hasS = true ∧ (s.priv = .machine ∨ (s.priv = .supervisor ∧ s.mstatus.getLsbD 20 = false)) →
      pcAdvanced s t ∧ t = { s with pc := t.pc, hist := t.hist } ∧ (rs1 = 0#5 → rs2 = 0#5 → t.hist = [])) ∧
    (s.cfg.hasS = false ∨ s.priv = .user ∨ (s.priv = .supervisor ∧ s.mstatus.getLsbD 20 = true) →
      TookTrap s t false 2
        (if s.cfg.tvalIllegalBits then (encode (.sfenceVma rs1 rs2)).setWidth 64 else 0#64) s.pc)

/-- Right after an `sfence.vma` that completes, every PTE read of a translation it covers returns current memory, whichever
free choice the translation makes: with `rs1 = x0` every level, and the current `satp`, are used; with an address, the
leaf's place in the page that holds it (level 0, or where the value read is a leaf PTE, or is invalid while a leaf PTE
stands there). With `rs2 != x0` that is so for translations in the named address space, unless a mapping of the address,
in memory or remembered in agreement with what is read, or in memory where what is read maps nothing, has a global leaf
(R170; 20_memory.md R121, R128). The record that stands for the remembered translations is the model's
(notes/assumptions/7.md); so are which reads a fence with an address covers, by which page size, and which mapping's leaf is
meant (notes/assumptions/8.md, unsafe for this statement), and that the address space is that of the `satp` value the walk
uses (notes/assumptions/23.md). -/
def Obligations.FenceForgetsTranslations : Prop :=
  ∀ (s t : State) (rs1 rs2 : RegIdx) (va : Word) (acc : Access) (p : Mode),
    s.cfg.hasS = true → (s.priv = .machine ∨ (s.priv = .supervisor ∧ s.mstatus.getLsbD 20 = false)) →
    exec (.sfenceVma rs1 rs2) s = .next t →
    let m := t.satpMode (t.chosenWalk va acc p).1
    (rs2 = 0#5 ∨
      (satpAsid t.cfg.xlen (t.chosenWalk va acc p).1 = (s.readReg rs2).toNat % 2 ^ s.cfg.asidLen ∧
        ¬ mapsGlobally t (t.chosenWalk va acc p).1 va (t.chosenWalk va acc p).2.uses)) →
    (rs1 = 0#5 → (t.chosenWalk va acc p).1 = t.satp ∧
      ∀ u ∈ (t.chosenWalk va acc p).2.uses, u.value = t.pteAt m u.addr) ∧
    (rs1 ≠ 0#5 → ∀ u ∈ (t.chosenWalk va acc p).2.uses,
      (u.level = 0 ∨ pteValidLeaf u.value = true ∨
        (pteInvalid u.value = true ∧ pteValidLeaf (t.pteAt m u.addr) = true)) →
      (s.readReg rs1).toNat / 2 ^ (12 + vpnBits m * u.level) = va.toNat / 2 ^ (12 + vpnBits m * u.level) →
      u.value = t.pteAt m u.addr)

/-- `wfi` completes with the pc moved on in M-mode, and in S- or U-mode with TW clear unless it is U-mode on a hart with
S-mode; there it completes so or raises an illegal-instruction exception. It waits only if the policy lets it and nothing
is pending and enabled, and does wait then under the policy Wait. Whichever free choice is made (R171). -/
def Obligations.WfiResult : Prop :=
  ∀ s : State,
    let done := fun t : State =>
      pcAdvanced s t ∧ t = { s with pc := t.pc, waiting := t.waiting, draws := t.draws } ∧
        (t.waiting = true → s.cfg.wfiPolicy ≠ .nop ∧ s.mip &&& s.mie = 0#64) ∧
        (s.cfg.wfiPolicy = .wait → s.mip &&& s.mie = 0#64 → t.waiting = true)
    let mayTrap := (s.priv ≠ .machine ∧ s.mstatus.getLsbD 21 = true) ∨ (s.priv = .user ∧ s.cfg.hasS = true)
    (¬ mayTrap → ∃ t, exec .wfi s = .next t ∧ done t) ∧
    (mayTrap → ∃ t, exec .wfi s = .next t ∧
      (done t ∨ TookTrap s.drawn t false 2 (if s.cfg.tvalIllegalBits then 0x10500073#64 else 0#64) s.pc))

/-! ## The CSR instructions (43_csr_access.md) -/

/-- `csrrw` and `csrrwi` on a CSR that the configuration has and the mode may access: the CSR is written with `x[rs1]` or
the zero-extended immediate, `rd` gets the value before the write (R191, R194). -/
def Obligations.CsrReadWriteResult : Prop :=
  ∀ (s : State) (rd rs1 : RegIdx) (n : CsrNum) (uimm : BitVec 5) (c : Csr), csrAccessible s n c →
    (∃ t, exec (.csrrw rd n rs1) s = .next t ∧ CsrDone s (s.csrWrite c (s.readReg rs1)) t rd (s.csrRead c)) ∧
    (∃ t, exec (.csrrwi rd n uimm) s = .next t ∧
      CsrDone s (s.csrWrite c (uimm.setWidth 64)) t rd (s.csrRead c))

/-- `csrrs` and `csrrsi`: the bits of the mask are set, `rd` gets the value before; with `rs1 = x0` or `uimm = 0` the CSR
is not written (R192, R195). -/
def Obligations.CsrSetBitsResult : Prop :=
  ∀ (s : State) (rd rs1 : RegIdx) (n : CsrNum) (uimm : BitVec 5) (c : Csr), csrAccessible s n c →
    (∃ t, exec (.csrrs rd n rs1) s = .next t ∧
      CsrDone s (if rs1 = 0#5 then s else s.csrWrite c (s.csrReadForModify c ||| s.readReg rs1)) t rd (s.csrRead c)) ∧
    (∃ t, exec (.csrrsi rd n uimm) s = .next t ∧
      CsrDone s (if uimm = 0#5 then s else s.csrWrite c (s.csrReadForModify c ||| uimm.setWidth 64)) t rd (s.csrRead c))

/-- `csrrc` and `csrrci`: the bits of the mask are cleared, `rd` gets the value before; with `rs1 = x0` or `uimm = 0` the
CSR is not written (R193, R196). -/
def Obligations.CsrClearBitsResult : Prop :=
  ∀ (s : State) (rd rs1 : RegIdx) (n : CsrNum) (uimm : BitVec 5) (c : Csr), csrAccessible s n c →
    (∃ t, exec (.csrrc rd n rs1) s = .next t ∧
      CsrDone s (if rs1 = 0#5 then s else s.csrWrite c (s.csrReadForModify c &&& ~~~s.readReg rs1)) t rd
        (s.csrRead c)) ∧
    (∃ t, exec (.csrrci rd n uimm) s = .next t ∧
      CsrDone s (if uimm = 0#5 then s else s.csrWrite c (s.csrReadForModify c &&& ~~~(uimm.setWidth 64))) t rd
        (s.csrRead c))

/-- Which CSR each number names and when it exists (R60), and what an access to any other does (R190): a CSR instruction
that names a CSR real harts have and the spec does not define is refused (R62); any other that the configuration or the
mode does not allow raises an illegal-instruction exception with the word as trap value, and reads and writes nothing.
`csrOutside` holds the numbers R62 prints; which it holds beyond them is the model's choice (notes/assumptions/13.md, PRESUMED, unsafe
for a number it leaves out). -/
def Obligations.CsrAccessRefused : Prop :=
  (∀ (s : State) (i : Instr) (n : CsrNum), csrNumberOf i = some n →
    (csrOutside s.cfg.xlen n.toNat = true → exec i s = .refused .csrOutsideSpec) ∧
    (csrOutside s.cfg.xlen n.toNat = false → (¬ ∃ c, csrAccessible s n c) →
      ∃ t, exec i s = .next t ∧
        TookTrap s t false 2 (if s.cfg.tvalIllegalBits then (encode i).setWidth 64 else 0#64) s.pc)) ∧
  (∀ x : XLen, ∀ n ∈ [0x301, 0xF11, 0xF12, 0xF13, 0xF14, 0x306, 0x106], csrOutside x n = true) ∧
  (∀ (n : Nat) (c : Csr), csrOfNumber n = some c ↔
    (n, c) ∈ [(0x100, Csr.sstatus), (0x104, .sie), (0x105, .stvec), (0x140, .sscratch), (0x141, .sepc),
      (0x142, .scause), (0x143, .stval), (0x144, .sip), (0x180, .satp), (0x300, .mstatus), (0x302, .medeleg),
      (0x303, .mideleg), (0x304, .mie), (0x305, .mtvec), (0x340, .mscratch), (0x341, .mepc), (0x342, .mcause),
      (0x343, .mtval), (0x344, .mip)] ∨
    (∃ k : Fin 4, n = 0x3A0 + k.val ∧ c = .pmpcfg k) ∨ (∃ i : Fin 16, n = 0x3B0 + i.val ∧ c = .pmpaddr i)) ∧
  ∀ cfg : Config,
    (∀ c ∈ [Csr.sstatus, .sie, .stvec, .sscratch, .sepc, .scause, .stval, .sip, .satp, .medeleg, .mideleg],
      csrExists cfg c = cfg.hasS) ∧
    (∀ c ∈ [Csr.mstatus, .mie, .mtvec, .mscratch, .mepc, .mcause, .mtval, .mip], csrExists cfg c = true) ∧
    (csrExists cfg (.pmpcfg 0) = true ↔ cfg.pmpCount > 0) ∧
    (csrExists cfg (.pmpcfg 1) = true ↔ cfg.xlen = .rv32 ∧ cfg.pmpCount > 4) ∧
    (csrExists cfg (.pmpcfg 2) = true ↔ cfg.pmpCount > 8) ∧
    (csrExists cfg (.pmpcfg 3) = true ↔ cfg.xlen = .rv32 ∧ cfg.pmpCount > 12) ∧
    ∀ i : Fin 16, csrExists cfg (.pmpaddr i) = true ↔ i.val < cfg.pmpCount

/-! ## The registers behind the CSRs (10_state.md) -/

/-- A write to `mstatus` changes exactly the writable fields, MPP only to a mode the configuration has; every other bit is
unchanged, and zero where the hardwired bits are zero; a read gives the register (R34, R26). -/
def Obligations.MstatusWrite : Prop :=
  ∀ (s t : State) (v : Word), s.csrWrite .mstatus v = t →
    t.csrRead .mstatus = t.mstatus ∧
    t.mstatus.getLsbD 3 = v.getLsbD 3 ∧ t.mstatus.getLsbD 7 = v.getLsbD 7 ∧
    t.mstatus.extractLsb' 11 2 =
      (if v.extractLsb' 11 2 = 3#2 ∨ (v.extractLsb' 11 2 = 1#2 ∧ s.cfg.hasS = true) ∨
          (v.extractLsb' 11 2 = 0#2 ∧ s.cfg.hasU = true) then v.extractLsb' 11 2
        else s.mstatus.extractLsb' 11 2) ∧
    (∀ i ∈ [1, 5, 8, 18, 19, 20, 21, 22], t.mstatus.getLsbD i = if s.cfg.hasS then v.getLsbD i else s.mstatus.getLsbD i) ∧
    t.mstatus.getLsbD 17 = (if s.cfg.hasU then v.getLsbD 17 else s.mstatus.getLsbD 17) ∧
    ∀ i, i ∉ [1, 3, 5, 7, 8, 11, 12, 17, 18, 19, 20, 21, 22] →
      t.mstatus.getLsbD i = s.mstatus.getLsbD i ∧ (s.ModesOk → t.mstatus.getLsbD i = false)

/-- `sstatus` shows SIE, SPIE, SPP, SUM and MXR of `mstatus` and reads zero elsewhere; a write to it changes those five
and nothing else (R47, R48). -/
def Obligations.SstatusIsViewOfMstatus : Prop :=
  ∀ (s : State) (v : Word) (i : Nat),
    (s.csrRead .sstatus).getLsbD i = (decide (i ∈ [1, 5, 8, 18, 19]) && s.mstatus.getLsbD i) ∧
    (s.csrWrite .sstatus v).mstatus.getLsbD i =
      (if i ∈ [1, 5, 8, 18, 19] then v.getLsbD i else s.mstatus.getLsbD i)

/-- `sie` and `sip` are views of `mie` and `mip` restricted to the delegated supervisor interrupts; a write to `sie`
changes only those bits of `mie`, a write to `sip` only SSIP, and only if it is delegated (R54). -/
def Obligations.SieSipAreViews : Prop :=
  ∀ (s : State) (v : Word) (i : Nat),
    (s.csrRead .sie).getLsbD i = (decide (i ∈ [1, 5, 9]) && s.mie.getLsbD i && s.mideleg.getLsbD i) ∧
    (s.csrRead .sip).getLsbD i = (decide (i ∈ [1, 5, 9]) && s.mip.getLsbD i && s.mideleg.getLsbD i) ∧
    (s.csrWrite .sie v).mie.getLsbD i =
      (if i ∈ [1, 5, 9] ∧ s.mideleg.getLsbD i = true then v.getLsbD i else s.mie.getLsbD i) ∧
    (s.csrWrite .sip v).mipSw.getLsbD i =
      (if i = 1 ∧ s.mideleg.getLsbD 1 = true then v.getLsbD 1 else s.mipSw.getLsbD i)

/-- `mip`: MEIP, MTIP and MSIP show their lines and ignore writes; SSIP and STIP are written bits; SEIP reads as its
written bit or its line, while a set or clear instruction starts from the written bit alone; every other bit reads zero
(R41, on a state of the invariant). That the supervisor bits read zero without S-mode is the model's reading
(notes/assumptions/18.md). -/
def Obligations.MipReadsAndWrites : Prop :=
  ∀ (s : State) (v : Word), s.InterruptRegsOk →
    (s.csrRead .mip).getLsbD 11 = s.lines.meip ∧ (s.csrRead .mip).getLsbD 7 = s.lines.mtip ∧
    (s.csrRead .mip).getLsbD 3 = s.lines.msip ∧
    (s.csrRead .mip).getLsbD 9 = (s.cfg.hasS && (s.mipSw.getLsbD 9 || s.lines.seip)) ∧
    (s.csrReadForModify .mip).getLsbD 9 = s.mipSw.getLsbD 9 ∧
    (∀ i, i ≠ 9 → (s.csrReadForModify .mip).getLsbD i = (s.csrRead .mip).getLsbD i) ∧
    (∀ i ∈ [1, 5], (s.csrRead .mip).getLsbD i = s.mipSw.getLsbD i) ∧
    (∀ i, i ∉ [1, 3, 5, 7, 9, 11] → (s.csrRead .mip).getLsbD i = false) ∧
    (∀ i, (s.csrWrite .mip v).mipSw.getLsbD i = (s.cfg.hasS && decide (i ∈ [1, 5, 9]) && v.getLsbD i)) ∧
    (∀ c, c ≠ .mip → s.csrReadForModify c = s.csrRead c)

/-- The trap vectors and saved pcs take a written value with bits 1:0 cleared; the cause, trap-value and scratch
registers take any value; a read gives the register that trap entry and return use (R35-R39, R49-R53). -/
def Obligations.TrapRegistersReadBack : Prop :=
  ∀ (s : State) (v : Word),
    (s.csrRead .mtvec = s.mtvec ∧ s.csrRead .mepc = s.mepc ∧ s.csrRead .mcause = s.mcause ∧ s.csrRead .mtval = s.mtval ∧
      s.csrRead .mscratch = s.mscratch ∧ s.csrRead .stvec = s.stvec ∧ s.csrRead .sepc = s.sepc ∧
      s.csrRead .scause = s.scause ∧ s.csrRead .stval = s.stval ∧ s.csrRead .sscratch = s.sscratch) ∧
    (∀ c ∈ [Csr.mtvec, .mepc, .stvec, .sepc], ∀ i,
      ((s.csrWrite c v).csrRead c).getLsbD i = (decide (2 ≤ i) && v.getLsbD i)) ∧
    ∀ c ∈ [Csr.mcause, .mtval, .mscratch, .scause, .stval, .sscratch], (s.csrWrite c v).csrRead c = v

/-- The bits that exist in `mie`, `medeleg` and `mideleg` are written, every other bit reads zero; a read gives the register
that delegation and the interrupt logic use (R40, R42, R43). -/
def Obligations.EnableAndDelegationBits : Prop :=
  ∀ (s : State) (v : Word) (i : Nat),
    (s.csrRead .mie = s.mie ∧ s.csrRead .medeleg = s.medeleg ∧ s.csrRead .mideleg = s.mideleg) ∧
    ((s.csrWrite .mie v).csrRead .mie).getLsbD i =
      ((decide (i ∈ [3, 7, 11]) || (s.cfg.hasS && decide (i ∈ [1, 5, 9]))) && v.getLsbD i) ∧
    ((s.csrWrite .medeleg v).csrRead .medeleg).getLsbD i =
      ((decide (i ≤ 9) || decide (i ∈ [12, 13, 15])) && v.getLsbD i) ∧
    ((s.csrWrite .mideleg v).csrRead .mideleg).getLsbD i = (decide (i ∈ [1, 5, 9]) && v.getLsbD i)

/-- A write to a `pmpcfg` register writes each of its bytes on its own: a locked or absent entry keeps its byte; bits 6:5
stay zero; a write of R = 0 with W = 1 leaves R, W and X; A and L are taken. A read gives the bytes of the register's
entries, entry `4k` lowest, zero for an absent entry and above the last (R45, R46). -/
def Obligations.PmpConfigWrite : Prop :=
  ∀ (s : State) (k : Fin 4) (v : Word) (i : Nat), i < 16 →
    let per := match s.cfg.xlen with | .rv32 => 4 | .rv64 => 8
    let b : Byte := v.extractLsb' (8 * (i - 4 * k.val)) 8
    let new := (s.csrWrite (.pmpcfg k) v).pmpCfg i
    let old := s.pmpCfg i
    (∀ j, j < 8 → (s.csrRead (.pmpcfg k)).extractLsb' (8 * j) 8 =
      if j < per ∧ 4 * k.val + j < s.cfg.pmpCount then s.pmpCfg (4 * k.val + j) else 0#8) ∧
    (4 * k.val ≤ i ∧ i < 4 * k.val + per ∧ i < s.cfg.pmpCount ∧ old.getLsbD 7 = false →
      new.getLsbD 7 = b.getLsbD 7 ∧ new.extractLsb' 5 2 = 0#2 ∧ new.extractLsb' 3 2 = b.extractLsb' 3 2 ∧
      new.extractLsb' 0 3 =
        (if b.getLsbD 0 = false ∧ b.getLsbD 1 = true then old.extractLsb' 0 3 else b.extractLsb' 0 3)) ∧
    (¬ (4 * k.val ≤ i ∧ i < 4 * k.val + per ∧ i < s.cfg.pmpCount ∧ old.getLsbD 7 = false) → new = old)

/-- A write to `pmpaddr<i>` is ignored while entry `i` is locked or entry `i+1` is locked with A = TOR; otherwise the bits
that exist are taken and those above `PASIZE - 3` read zero. No other address register changes. A read gives the register
the PMP check uses (R44, R46). -/
def Obligations.PmpAddressWrite : Prop :=
  ∀ (s : State) (i : Fin 16) (v : Word) (j : Nat), j < 16 →
    let kept := (s.pmpCfg i.val).getLsbD 7 = true ∨
      ((s.pmpCfg (i.val + 1)).getLsbD 7 = true ∧ (s.pmpCfg (i.val + 1)).extractLsb' 3 2 = 1#2)
    s.csrRead (.pmpaddr i) = s.pmpAddr i.val ∧
    (j = i.val → ¬ kept → ∀ b,
      ((s.csrWrite (.pmpaddr i) v).pmpAddr j).getLsbD b = (decide (b < s.cfg.pasize - 2) && v.getLsbD b)) ∧
    (j ≠ i.val ∨ kept → (s.csrWrite (.pmpaddr i) v).pmpAddr j = s.pmpAddr j)

/-- A write to `satp` whose MODE is not in `SATP_MODES` is ignored whole; otherwise MODE is taken, ASID keeps its low
`ASIDLEN` bits and PPN its low `PASIZE - 12` bits. The record of what translation may remember (notes/assumptions/7.md) is
as before, with the value `satp` had put before it where that changes, so nothing remembered is dropped. A read gives the
register translation uses, and its fields are where the figures draw them: on RV32 PPN in bits 21:0, ASID in 30:22 and MODE
in 31, 0 Bare and 1 Sv32; on RV64 PPN in 43:0, ASID in 59:44 and MODE in 63:60, 0 Bare, 8 Sv39, 9 Sv48 and no other (R57,
R55, R56). -/
def Obligations.SatpWrite : Prop :=
  ∀ (s t : State) (v : Word), s.csrWrite .satp v = t →
    t.csrRead .satp = t.satp ∧ (t.satp = s.satp → t.hist = s.hist) ∧
    (t.satp ≠ s.satp → t.hist = .satpWas s.satp :: s.hist) ∧
    ((¬ ∃ m ∈ s.cfg.satpModes, satpModeOf s.cfg.xlen v = some m) → t.satp = s.satp) ∧
    ((∃ m ∈ s.cfg.satpModes, satpModeOf s.cfg.xlen v = some m) →
      (s.cfg.xlen = .rv32 → ∀ i, t.satp.getLsbD i =
        (v.getLsbD i && (decide (i = 31) || (decide (22 ≤ i ∧ i < 31) && decide (i - 22 < s.cfg.asidLen)) ||
          (decide (i < 22) && decide (i < s.cfg.pasize - 12))))) ∧
      (s.cfg.xlen = .rv64 → ∀ i, t.satp.getLsbD i =
        (v.getLsbD i && (decide (60 ≤ i) || (decide (44 ≤ i ∧ i < 60) && decide (i - 44 < s.cfg.asidLen)) ||
          (decide (i < 44) && decide (i < s.cfg.pasize - 12)))))) ∧
    (∀ m, satpModeOf .rv32 v = some m ↔
      (m = .bare ∧ v.getLsbD 31 = false) ∨ (m = .sv32 ∧ v.getLsbD 31 = true)) ∧
    (∀ m, satpModeOf .rv64 v = some m ↔
      (m = .bare ∧ v.toNat / 2 ^ 60 = 0) ∨ (m = .sv39 ∧ v.toNat / 2 ^ 60 = 8) ∨ (m = .sv48 ∧ v.toNat / 2 ^ 60 = 9)) ∧
    (∀ m, satpModeOf s.cfg.xlen v = some m → s.satpMode v = m) ∧
    (∀ i, (satpPpn .rv32 v).testBit i = (decide (i < 22) && v.getLsbD i) ∧
      (satpAsid .rv32 v).testBit i = (decide (i < 9) && v.getLsbD (22 + i)) ∧
      (satpPpn .rv64 v).testBit i = (decide (i < 44) && v.getLsbD i) ∧
      (satpAsid .rv64 v).testBit i = (decide (i < 16) && v.getLsbD (44 + i)))

/-- A CSR write leaves the integer registers, the pc, the mode, memory, the wfi flag, the surroundings and the number of free
choices made as they are, what is remembered of translations (notes/assumptions/7.md) where it is not `satp` that is written,
and every CSR but the one written, the views that share its storage, and `sie` and `sip` when `mideleg` is written (R190,
R47, R54, R57). -/
def Obligations.CsrWriteFrame : Prop :=
  ∀ (s : State) (c c' : Csr) (v : Word),
    sameRegs s (s.csrWrite c v) ∧ sameBytes s (s.csrWrite c v) ∧ sameSurroundings s (s.csrWrite c v) ∧
    (s.csrWrite c v).pc = s.pc ∧ (s.csrWrite c v).priv = s.priv ∧ (s.csrWrite c v).written = s.written ∧
    (s.csrWrite c v).waiting = s.waiting ∧ (s.csrWrite c v).draws = s.draws ∧
    (c ≠ .satp → (s.csrWrite c v).hist = s.hist) ∧
    (csrExists s.cfg c = true → csrExists s.cfg c' = true → csrHome c ≠ csrHome c' →
      ¬ (c = .mideleg ∧ (c' = .sie ∨ c' = .sip)) → (s.csrWrite c v).csrRead c' = s.csrRead c')

/-! ## `amoadd.w` (44_amoadd_w.md) -/

/-- `amoadd.w` at an aligned address whose translation succeeds, with both PMP checks and PMA passed in ordinary memory:
the word there is increased modulo 2^32, `rd` gets the old word sign-extended, the pc moves on; outside the four bytes at
the physical address memory is as the translation left it, and no CSR, no input line and not the wfi flag changes. The four
bytes count as written by the hart (20_memory.md R123), and what they held is what a later walk may still read (R121; the
record is the model's, notes/assumptions/7.md). Untranslated, the physical address is the register's value. `aq` and `rl`
change nothing (R205). -/
def Obligations.AmoaddResult : Prop :=
  ∀ (s u : State) (aq rl : Bool) (rd rs1 rs2 : RegIdx) (pa : Nat), Memory.wf s.mem = true →
    s.locate (s.readReg rs1) .store = .ok pa u →
    u.pmpCheck pa 4 .load (s.effPriv .store) = true → u.pmpCheck pa 4 .store (s.effPriv .store) = true →
    pmaAllows u.cfg pa 4 .load = true → pmaAllows u.cfg pa 4 .store = true → pmaAtomic u.cfg pa 4 = true →
    pmaDevice u.cfg pa 4 = false →
    (s.translated (s.effPriv .store) = false → pa = (s.readReg rs1).toNat ∧ u = s) ∧
    ∃ t, exec (.amoaddW aq rl rd rs1 rs2) s = .next t ∧
      t.physRead32 pa = u.physRead32 pa + (s.readReg rs2).setWidth 32 ∧
      (∀ r, t.readReg r = if r = 0#5 then 0#64 else if r = rd then
        (match s.cfg.xlen with
          | .rv32 => (u.physRead32 pa).setWidth 64
          | .rv64 => (u.physRead32 pa).signExtend 64) else s.readReg r) ∧
      pcAdvanced s t ∧ sameBytesOutside u t pa 4 ∧ sameCsrs s t ∧ sameSurroundings s t ∧ t.priv = s.priv ∧
      t.waiting = s.waiting ∧ t.hist = .wrote pa (u.mem.readBytes pa 4) :: u.hist ∧
      ∀ k, k ∈ t.written ↔ (∃ j, j < 4 ∧ k = (pa + j) / 4) ∨ k ∈ u.written

/-- `amoadd.w` on a hart that does not translate the access: on the address, the mode and the protection alone, it
completes with the word at the register's value increased and `rd` the old word, sign-extended, and changes nothing else
but the pc and what is recorded of the store (R205, 20_memory.md R86). -/
def Obligations.AmoaddUntranslatedResult : Prop :=
  ∀ (s : State) (aq rl : Bool) (rd rs1 rs2 : RegIdx), Memory.wf s.mem = true →
    s.translated (s.effPriv .store) = false → (s.readReg rs1).toNat % 4 = 0 →
    s.pmpCheck (s.readReg rs1).toNat 4 .load (s.effPriv .store) = true →
    s.pmpCheck (s.readReg rs1).toNat 4 .store (s.effPriv .store) = true →
    pmaAllows s.cfg (s.readReg rs1).toNat 4 .load = true → pmaAllows s.cfg (s.readReg rs1).toNat 4 .store = true →
    pmaAtomic s.cfg (s.readReg rs1).toNat 4 = true → pmaDevice s.cfg (s.readReg rs1).toNat 4 = false →
    ∃ t, exec (.amoaddW aq rl rd rs1 rs2) s = .next t ∧
      t.physRead32 (s.readReg rs1).toNat = s.physRead32 (s.readReg rs1).toNat + (s.readReg rs2).setWidth 32 ∧
      (∀ r, t.readReg r = if r = 0#5 then 0#64 else if r = rd then
        (match s.cfg.xlen with
          | .rv32 => (s.physRead32 (s.readReg rs1).toNat).setWidth 64
          | .rv64 => (s.physRead32 (s.readReg rs1).toNat).signExtend 64) else s.readReg r) ∧
      pcAdvanced s t ∧ sameBytesOutside s t (s.readReg rs1).toNat 4 ∧
      t = { s with x := t.x, pc := t.pc, mem := t.mem, written := t.written, hist := t.hist }

/-- When `amoadd.w` traps or is refused: a misaligned address raises code 6; a translation's fault, page fault 15 or
access fault 7, is raised as it is: 15 when the walk ends in a page fault; 7 when PMP or PMA denies the read of the page-table
entry the walk goes on to, and then alone a walk ends so; at a leaf with A or D clear, 15 under the policy Fault, 7 under
HardwareUpdate when the write is denied, and one of the two under Either then. A denied access raises code 7; always with the
virtual address as trap value; an access to a device region, of its own or of its translation's walk, is refused (R205;
60_exceptions.md R221, R222, R228; 20_memory.md R84, R103, R108, R126). What PMA answers: what the flags of the region say,
and no device but a device region; a ROM region denies a store and allows a fetch and a load (R87); every access that
reaches 2^PASIZE (R81), and one that no region holds whole, is denied. That PMA is a list of regions, the first that holds
the access deciding, is the model's choice (notes/assumptions/10.md). -/
def Obligations.AmoaddFaults : Prop :=
  ∀ (s : State) (aq rl : Bool) (rd rs1 rs2 : RegIdx),
    ((s.readReg rs1).toNat % 4 ≠ 0 →
      ∃ t, exec (.amoaddW aq rl rd rs1 rs2) s = .next t ∧ TookTrap s t false 6 (s.readReg rs1) s.pc) ∧
    (∀ e tval u, (s.readReg rs1).toNat % 4 = 0 → s.locate (s.readReg rs1) .store = .raised e tval u →
      u = s.drawn ∧ (exnCode e = 15 ∨ exnCode e = 7) ∧
        ∃ t, exec (.amoaddW aq rl rd rs1 rs2) s = .next t ∧ TookTrap u t false (exnCode e) (s.readReg rs1) s.pc) ∧
    (let raises := fun code : Nat => ∃ e, exnCode e = code ∧
        s.locate (s.readReg rs1) .store = .raised e (s.readReg rs1) s.drawn ∧
        ∃ t, exec (.amoaddW aq rl rd rs1 rs2) s = .next t ∧ TookTrap s.drawn t false code (s.readReg rs1) s.pc;
      (s.readReg rs1).toNat % 4 = 0 → s.translated (s.effPriv .store) = true →
        FaultsByWalk s (s.readReg rs1) .store (s.effPriv .store) (raises 15) (raises 7)) ∧
    (∀ pa u, s.locate (s.readReg rs1) .store = .ok pa u →
      ¬ (u.pmpCheck pa 4 .load (s.effPriv .store) = true ∧ u.pmpCheck pa 4 .store (s.effPriv .store) = true ∧
        pmaAllows u.cfg pa 4 .load = true ∧ pmaAllows u.cfg pa 4 .store = true ∧ pmaAtomic u.cfg pa 4 = true) →
      ∃ t, exec (.amoaddW aq rl rd rs1 rs2) s = .next t ∧ TookTrap u t false 7 (s.readReg rs1) s.pc) ∧
    (∀ pa u, s.locate (s.readReg rs1) .store = .ok pa u →
      u.pmpCheck pa 4 .load (s.effPriv .store) = true → u.pmpCheck pa 4 .store (s.effPriv .store) = true →
      pmaAllows u.cfg pa 4 .load = true → pmaAllows u.cfg pa 4 .store = true → pmaAtomic u.cfg pa 4 = true →
      pmaDevice u.cfg pa 4 = true → exec (.amoaddW aq rl rd rs1 rs2) s = .refused .deviceRegion) ∧
    (∀ r, s.locate (s.readReg rs1) .store = .refused r →
      r = .deviceRegion ∧ exec (.amoaddW aq rl rd rs1 rs2) s = .refused .deviceRegion) ∧
    (∀ (pa n : Nat) (acc : Access),
      (∀ r, regionOf s.cfg pa n = some r →
        (∃ before after, s.cfg.regions = before ++ r :: after ∧
          ∀ q ∈ before, ¬ (q.base ≤ pa ∧ pa + n ≤ q.base + q.size)) ∧
        r.base ≤ pa ∧ pa + n ≤ r.base + r.size ∧ pmaAtomic s.cfg pa n = r.atomic ∧
        (pmaDevice s.cfg pa n = true ↔ r.kind = .device) ∧
        (r.kind = .rom → (pmaAllows s.cfg pa n acc = true ↔ acc ≠ .store)) ∧
        (r.kind ≠ .rom → (pmaAllows s.cfg pa n acc = true ↔
          (acc = .fetch ∧ r.fetch = true) ∨ (acc = .load ∧ r.load = true) ∨ (acc = .store ∧ r.store = true)))) ∧
      (regionOf s.cfg pa n = none → pmaAllows s.cfg pa n acc = false ∧ pmaAtomic s.cfg pa n = false ∧
        pmaDevice s.cfg pa n = false) ∧
      (2 ^ s.cfg.pasize < pa + n → pmaAllows s.cfg pa n acc = false) ∧
      (pa + n ≤ 2 ^ s.cfg.pasize → (∃ r ∈ s.cfg.regions, r.base ≤ pa ∧ pa + n ≤ r.base + r.size) →
        ∃ r, regionOf s.cfg pa n = some r) ∧
      ((∀ r ∈ s.cfg.regions, ¬ (r.base ≤ pa ∧ pa + n ≤ r.base + r.size)) → pmaAllows s.cfg pa n acc = false))

/-! ## Physical memory protection (20_memory.md R116, R117) -/

/-- The region of a PMP entry by its A field (R116). -/
def Obligations.PmpRegions : Prop :=
  ∀ (s : State) (i : Nat), i < 16 →
    ((s.pmpCfg i).extractLsb' 3 2 = 0#2 → s.pmpRegion i = none) ∧
    ((s.pmpCfg i).extractLsb' 3 2 = 1#2 → s.pmpRegion i =
      some ((if i = 0 then 0 else (s.pmpAddr (i - 1)).toNat) * 4, (s.pmpAddr i).toNat * 4)) ∧
    ((s.pmpCfg i).extractLsb' 3 2 = 2#2 → s.pmpRegion i =
      some ((s.pmpAddr i).toNat * 4, (s.pmpAddr i).toNat * 4 + 4)) ∧
    ((s.pmpCfg i).extractLsb' 3 2 = 3#2 → ∀ k, k ≤ s.cfg.xlen.bits → (∀ j, j < k → (s.pmpAddr i).getLsbD j = true) →
      (k < s.cfg.xlen.bits → (s.pmpAddr i).getLsbD k = false) →
      s.pmpRegion i = some ((s.pmpAddr i).toNat / 2 ^ (k + 1) * 2 ^ (k + 1) * 4,
        (s.pmpAddr i).toNat / 2 ^ (k + 1) * 2 ^ (k + 1) * 4 + 2 ^ (k + 3)))

/-- The PMP check (R117): the lowest-numbered entry whose region holds some byte of the access decides; it grants only an
access it holds whole, by its R, W or X bit, or to M-mode when it is not locked. With no match M succeeds, S and U fail;
with no entries everything succeeds. -/
def Obligations.PmpFirstMatchDecides : Prop :=
  ∀ (s : State) (pa n : Nat) (acc : Access) (p : Mode),
    (s.cfg.pmpCount = 0 → s.pmpCheck pa n acc p = true) ∧
    (∀ i, i < s.cfg.pmpCount → (∀ j, j < i → ¬ pmpTouches s j pa n) → pmpTouches s i pa n →
      (s.pmpCheck pa n acc p = true ↔ pmpCovers s i pa n ∧
        ((p = .machine ∧ (s.pmpCfg i).getLsbD 7 = false) ∨ (acc = .load ∧ (s.pmpCfg i).getLsbD 0 = true) ∨
          (acc = .store ∧ (s.pmpCfg i).getLsbD 1 = true) ∨ (acc = .fetch ∧ (s.pmpCfg i).getLsbD 2 = true)))) ∧
    (0 < s.cfg.pmpCount → (∀ j, j < s.cfg.pmpCount → ¬ pmpTouches s j pa n) →
      (s.pmpCheck pa n acc p = true ↔ p = .machine))

/-! ## Address translation (20_memory.md R85-R112) -/

/-- The effective privilege of an access (R85). -/
def Obligations.EffectivePrivilege : Prop :=
  ∀ s : State, s.effPriv .fetch = s.priv ∧ ∀ acc ∈ [Access.load, .store],
    (s.mstatus.getLsbD 17 = false → s.effPriv acc = s.priv) ∧
    (s.mstatus.getLsbD 17 = true → s.mstatus.extractLsb' 11 2 ≠ 2#2 →
      modeCode (s.effPriv acc) = (s.mstatus.extractLsb' 11 2).toNat)

/-- When translation applies: with S-mode, a MODE that is not Bare and an effective privilege of S or U. Where it does, an
aligned access goes to the physical address the translation at its effective privilege gives, or ends as that does. Where it
does not, the physical address of an aligned access is the virtual address, with no page-based check, and nothing changes
(R83, R86, R80). -/
def Obligations.WhenTranslationApplies : Prop :=
  ∀ (s : State) (va : Word) (acc : Access),
    (∀ p : Mode, s.translated p = true ↔
      s.cfg.hasS = true ∧ s.satpMode s.satp ≠ .bare ∧ (p = .supervisor ∨ p = .user)) ∧
    (va.toNat % 4 = 0 → s.translated (s.effPriv acc) = true →
      s.locate va acc = s.translate va acc (s.effPriv acc)) ∧
    (va.toNat % 4 = 0 → (s.cfg.hasS = false ∨ s.satpMode s.satp = .bare ∨ s.effPriv acc = .machine) →
      s.locate va acc = .ok va.toNat s)

/-- A translation by Sv39, whichever value of `satp` it uses: an address whose bits 63:39 do not all equal bit 38 raises the
page fault of its kind, with the address as trap value and nothing read or written (R112, R111). -/
def Obligations.NonCanonicalAddressFaults : Prop :=
  ∀ (s : State) (va : Word) (acc : Access) (p : Mode),
    s.satpMode (s.chosenWalk va acc p).1 = .sv39 →
    (∃ i, 39 ≤ i ∧ i < 64 ∧ va.getLsbD i ≠ va.getLsbD 38) →
    s.translate va acc p = .raised (pageFaultOf acc) va s.drawn ∧ (s.chosenWalk va acc p).2.uses = []

/-- A walk that reads an entry with V = 0, or with R = 0 and W = 1, or a pointer at level 0, or a valid leaf that does not
permit the access or is not aligned to its size, ends in the page fault of the access. The page fault of a fetch, a load and
a store has code 12, 13 and 15, the access fault 1, 5 and 7 (R104-R107, R111, R87). -/
def Obligations.InvalidEntryFaults : Prop :=
  (exnCode (pageFaultOf .fetch) = 12 ∧ exnCode (pageFaultOf .load) = 13 ∧ exnCode (pageFaultOf .store) = 15 ∧
    exnCode (accessFaultOf .fetch) = 1 ∧ exnCode (accessFaultOf .load) = 5 ∧ exnCode (accessFaultOf .store) = 7) ∧
  ∀ (s : State) (va : Word) (acc : Access) (p : Mode) (u : PteUse), u ∈ (s.chosenWalk va acc p).2.uses →
    (u.value.getLsbD 0 = false ∨ (u.value.getLsbD 1 = false ∧ u.value.getLsbD 2 = true) ∨
      (u.level = 0 ∧ u.value.getLsbD 1 = false ∧ u.value.getLsbD 3 = false) ∨
      (u.value.getLsbD 0 = true ∧ (u.value.getLsbD 1 = true ∨ u.value.getLsbD 3 = true) ∧ p ≠ .machine ∧
        ¬ leafPermits s u.value acc p) ∨
      (u.value.getLsbD 0 = true ∧ (u.value.getLsbD 1 = true ∨ u.value.getLsbD 3 = true) ∧
        ptePpn (s.satpMode (s.chosenWalk va acc p).1) u.value %
          2 ^ (vpnBits (s.satpMode (s.chosenWalk va acc p).1) * u.level) ≠ 0)) →
    s.translate va acc p = .raised (pageFaultOf acc) va s.drawn

/-- Every walk follows the page tables from the root `satp` names, by the constants and fields of its scheme; every entry it
reads has passed PMP as an S-mode load and PMA, is of no device, and has the value its location, a little-endian number,
holds or held; `satp` is the register or a value it held; with nothing remembered both are the current ones. The walk of an
address the scheme translates does not stop before an entry it goes on to, unless PMP or PMA denies the read, which raises
the access fault, or the entry is in a device region, which is refused. Where the entries it reads, or with nothing
remembered those in memory, are valid pointers and then a leaf that permits the access and is aligned, the walk ends at that
leaf, and the translation succeeds if A is set, and D for a store. A translation that succeeds has come to such a leaf, and
its answer is made of the leaf's page number and the address's offset (R82, R88, R89, R99, R101-R109, R112, R113, R118, R121,
R126; what is remembered: notes/assumptions/7.md and 9.md). -/
def Obligations.TranslationFollowsTables : Prop :=
  (SchemeIs .sv32 2 4 10 22 ∧ SchemeIs .sv39 3 8 9 44 ∧ SchemeIs .sv48 4 8 9 44) ∧
  ∀ (s : State) (va : Word) (acc : Access) (p : Mode),
    let m := s.satpMode (s.chosenWalk va acc p).1
    let root := satpPpn s.cfg.xlen (s.chosenWalk va acc p).1 * 4096
    let readable := fun addr => pteReadable s m addr ∧ pmaDevice s.cfg addr (pteSize m) = false
    (∀ addr j, (s.pteAt m addr).toNat / 256 ^ j % 256 = if j < pteSize m then (s.mem.read (addr + j)).toNat else 0) ∧
    ((s.chosenWalk va acc p).1 = s.satp ∨
      (s.chosenWalk va acc p).1 ∈ (heldSatp s.cfg.xlen 0 s.hist).map Prod.fst) ∧
    followsTables m va root (levels m) (s.chosenWalk va acc p).2.uses ∧
    (∀ u ∈ (s.chosenWalk va acc p).2.uses, readable u.addr ∧
      (u.value = s.pteAt m u.addr ∨ u.value ∈ (s.pteHeld m u.addr).map Prod.fst)) ∧
    (s.hist = [] → (s.chosenWalk va acc p).1 = s.satp ∧
      ∀ u ∈ (s.chosenWalk va acc p).2.uses, u.value = s.pteAt m u.addr) ∧
    (∀ addr, translatable m va → nextEntry m va root (levels m) (s.chosenWalk va acc p).2.uses = some addr →
      (¬ pteReadable s m addr ∧ s.translate va acc p = .raised (accessFaultOf acc) va s.drawn) ∨
        (pteReadable s m addr ∧ pmaDevice s.cfg addr (pteSize m) = true ∧
          s.translate va acc p = .refused .deviceRegion)) ∧
    (∀ (pointers : List PteUse) (u : PteUse), translatable m va →
      followsTables m va root (levels m) (pointers ++ [u]) → (∀ v ∈ pointers ++ [u], readable v.addr) →
      (∀ v ∈ pointers, pointerEntry v.value) → usableLeaf s m u acc p →
      ((s.chosenWalk va acc p).2.uses = pointers ++ [u] ∨
        (s.hist = [] ∧ ∀ v ∈ pointers ++ [u], v.value = s.pteAt m v.addr)) →
      (s.chosenWalk va acc p).2.result = .leaf u.level u.addr u.value ∧
        (u.value.getLsbD 6 = true → (acc = .store → u.value.getLsbD 7 = true) →
          ∃ pa, s.translate va acc p = .ok pa s.drawn)) ∧
    ∀ (t : State) (pa : Nat), s.translate va acc p = .ok pa t →
      translatable m va ∧
      ∃ (pointers : List PteUse) (u : PteUse), (s.chosenWalk va acc p).2.uses = pointers ++ [u] ∧
        (∀ v ∈ pointers, pointerEntry v.value) ∧
        u.value.getLsbD 0 = true ∧ (u.value.getLsbD 1 = true ∨ u.value.getLsbD 3 = true) ∧
        (u.value.getLsbD 2 = true → u.value.getLsbD 1 = true) ∧
        (acc = .fetch → u.value.getLsbD 3 = true) ∧ (acc = .store → u.value.getLsbD 2 = true) ∧
        (acc = .load → u.value.getLsbD 1 = true ∨ (s.mstatus.getLsbD 19 = true ∧ u.value.getLsbD 3 = true)) ∧
        (p = .user → u.value.getLsbD 4 = true) ∧
        (p = .supervisor → u.value.getLsbD 4 = false ∨ (s.mstatus.getLsbD 18 = true ∧ acc ≠ .fetch)) ∧
        ptePpn m u.value % 2 ^ (vpnBits m * u.level) = 0 ∧
        pa % 2 ^ (12 + vpnBits m * u.level) = va.toNat % 2 ^ (12 + vpnBits m * u.level) ∧
        pa / 2 ^ (12 + vpnBits m * u.level) = ptePpn m u.value / 2 ^ (vpnBits m * u.level)

/-- Step 7 on a leaf that passed steps 5 and 6 (R108): with A set, and D for a store, memory is left alone; otherwise the
policy Fault raises the page fault of the access, and HardwareUpdate either raises its access fault, when PMP or PMA
denies the write, or sets just those bits of the entry in memory; under Either it is one of these. The write makes the words
of the entry ones the hart has written (R123), and changes nothing else but what is remembered of the entry. -/
def Obligations.AccessedAndDirtyUpdate : Prop :=
  ∀ (s : State) (va : Word) (acc : Access) (p : Mode) (level addr : Nat) (pte : Word), Memory.wf s.mem = true →
    (s.chosenWalk va acc p).2.result = .leaf level addr pte →
    let m := s.satpMode (s.chosenWalk va acc p).1
    let clean := pte.getLsbD 6 = true ∧ (acc = .store → pte.getLsbD 7 = true)
    let allowed := s.pmpCheck addr (pteSize m) .store .supervisor = true ∧ pmaAllows s.cfg addr (pteSize m) .store = true
    let faults := s.translate va acc p = .raised (pageFaultOf acc) va s.drawn
    let denied := ¬ allowed ∧ s.translate va acc p = .raised (accessFaultOf acc) va s.drawn
    let updates := allowed ∧ ∃ t, s.translate va acc p = .ok (physicalAddress m va pte level) t ∧
      pte = s.pteAt m addr ∧ t.pteAt m addr = pte ||| (if acc = .store then 0xC0#64 else 0x40#64) ∧
      sameBytesOutside s t addr (pteSize m) ∧
      (∀ k, k ∈ t.written ↔ (∃ j, j < pteSize m ∧ k = (addr + j) / 4) ∨ k ∈ s.written) ∧
      t = { s.drawn with mem := t.mem, written := t.written, hist := t.hist }
    (clean → s.translate va acc p = .ok (physicalAddress m va pte level) s.drawn) ∧
    (¬ clean → s.cfg.adPolicy = .fault → faults) ∧
    (¬ clean → s.cfg.adPolicy = .hardwareUpdate → denied ∨ updates) ∧
    (¬ clean → s.cfg.adPolicy = .either → faults ∨ denied ∨ updates)

/-! ## Frames over all instructions -/

/-- No instruction changes an integer register but its destination, and none makes `x0` read anything but zero
(10_state.md R23; 60_exceptions.md R237, R241). -/
def Obligations.RegisterFrame : Prop :=
  ∀ (s t : State) (i : Instr), exec i s = .next t →
    t.readReg 0#5 = 0#64 ∧ ∀ r, r ≠ destOf i → t.readReg r = s.readReg r

/-- Every instruction but `amoadd.w` leaves every byte of memory as it was, and the record of written words with it. A step
changes no byte but those of the entry that the fetch's own translation sets A in, and, when it runs an `amoadd.w`, those
of the entry its translation sets A or D in and the four at its physical address (20_memory.md R83, R108, R124). -/
def Obligations.OnlyAmoaddStores : Prop :=
  (∀ (s t : State) (i : Instr), exec i s = .next t → (∀ aq rl rd rs1 rs2, i ≠ .amoaddW aq rl rd rs1 rs2) →
    sameBytes s t ∧ t.written = s.written) ∧
  ∀ (s t : State) (a : Nat), step s = .next t → ¬ walkUpdates s.awake s.pc .fetch a →
    (∀ w u aq rl rd rs1 rs2, reachesFetch s → s.awake.fetch = .ok w u → decode w = .instr (.amoaddW aq rl rd rs1 rs2) →
      ¬ walkUpdates u (u.readReg rs1) .store a ∧
      ∀ pa v, u.locate (u.readReg rs1) .store = .ok pa v → a < pa ∨ pa + 4 ≤ a) →
    t.mem.read a = s.mem.read a

/-! ## Reset (10_state.md R61, 70_reset_and_hazards.md R270) -/

/-- What reset leaves, on every configuration: the values R61 and R270 state, every PMP entry off and unlocked, the
contents of the ROM, no remembered translation; and nothing of what R61 calls unspecified. -/
def Obligations.ResetValues : Prop :=
  ∀ c : Config, (State.resetOf c).cfg = c ∧ (State.resetOf c).priv = .machine ∧ (State.resetOf c).pc = c.resetVector ∧
    (State.resetOf c).readReg 0#5 = 0#64 ∧
    (State.resetOf c).mstatus.getLsbD 3 = false ∧ (State.resetOf c).mstatus.getLsbD 17 = false ∧
    (∀ i ∈ [0, 2, 4, 6, 9, 10, 13, 14, 15, 16], (State.resetOf c).mstatus.getLsbD i = false) ∧
    (∀ i, 23 ≤ i → (State.resetOf c).mstatus.getLsbD i = false) ∧
    (State.resetOf c).mcause = 0#64 ∧
    (∀ i, ((State.resetOf c).pmpCfg i).getLsbD 7 = false ∧ ((State.resetOf c).pmpCfg i).extractLsb' 3 2 = 0#2) ∧
    (∀ i, (State.resetOf c).pmpRegion i = none) ∧
    (cellsOk c.romContents = true → ∀ cell ∈ c.romContents, (State.resetOf c).mem.read cell.1 = cell.2) ∧
    (State.resetOf c).hist = [] ∧ (State.resetOf c).waiting = false

/-- Right after reset PMP allows every M-mode access and, on a hart with PMP entries, no S- or U-mode access
(R61; 20_memory.md R117; 70_reset_and_hazards.md R271). -/
def Obligations.ResetDeniesLowerModes : Prop :=
  ∀ (c : Config) (pa n : Nat) (acc : Access) (p : Mode),
    (State.resetOf c).pmpCheck pa n acc p = true ↔ c.pmpCount = 0 ∨ p = .machine

/-- The state after reset satisfies the invariant: `State.reset`, which is reset on the configuration the model chooses
(notes/assumptions/1.md), and reset on any other that R2 and R4 admit. The zeros for what R61 calls unspecified are the
model's choice (notes/assumptions/3.md and 4.md); they are among the values R61 allows. -/
def Obligations.ResetSatisfiesInvariant : Prop :=
  State.reset = State.resetOf Config.default ∧ State.reset.Inv ∧ ∀ c : Config, c.wf = true → (State.resetOf c).Inv

/-! ## Whole-machine rules -/

/-- Every step keeps the invariant: XLEN-bit registers, an aligned pc and aligned saved pcs and vectors, a mode and mode
fields the configuration has, the hardwired bits of every CSR, a supported `satp`, the reserved fields of PMP, and the
canonical form of memory (10_state.md R20-R57; 20_memory.md R80). -/
def Obligations.StepKeepsInvariant : Prop :=
  ∀ s t : State, s.Inv → step s = .next t → t.Inv

/-- The privilege mode rises only by a trap, taken with the registers and CSRs the hart had, and falls only by `mret` or
`sret` (60_exceptions.md R243). -/
def Obligations.PrivilegeChangesOnlyByTrapOrReturn : Prop :=
  ∀ s t : State, step s = .next t →
    (modeCode s.priv < modeCode t.priv →
      ∃ u isInterrupt code tval, u.priv = s.priv ∧ sameRegs s u ∧ sameCsrs s u ∧ TookTrap u t isInterrupt code tval s.pc) ∧
    (modeCode t.priv < modeCode s.priv →
      ∃ w u, s.awake.fetch = .ok w u ∧ (decode w = .instr .mret ∨ decode w = .instr .sret) ∧
        (decode w = .instr .mret → s.priv = .machine) ∧ (s.priv = .supervisor → t.priv = .user))

/-- A step that begins and ends in U-mode changes no CSR but what `mip` shows of the input lines (60_exceptions.md R242: "no
CSR instruction succeeds"). -/
def Obligations.UserModeLeavesCsrs : Prop :=
  ∀ s t : State, s.priv = .user → step s = .next t → t.priv = .user → sameCsrs s t

/-- A step that begins below M-mode and does not end in M-mode leaves the machine registers as they are: the M-mode trap
registers, `mtvec` and `mscratch`, the delegation and PMP registers, every field of `mstatus` that `sstatus` does not
show, every bit of `mie` that is not delegated, and of the written bits of `mip` all but a delegated SSIP
(60_exceptions.md R242; 10_state.md R48, R54). -/
def Obligations.LowerModesLeaveMachineRegisters : Prop :=
  ∀ s t : State, s.priv ≠ .machine → step s = .next t → t.priv ≠ .machine →
    sameMachineTrapRegs s t ∧ t.mtvec = s.mtvec ∧ t.mscratch = s.mscratch ∧ t.medeleg = s.medeleg ∧
    t.mideleg = s.mideleg ∧ t.pmpcfg = s.pmpcfg ∧ t.pmpaddr = s.pmpaddr ∧
    (∀ i, i ∉ [1, 5, 8, 18, 19] → t.mstatus.getLsbD i = s.mstatus.getLsbD i) ∧
    (∀ i, ¬ (i ∈ [1, 5, 9] ∧ s.mideleg.getLsbD i = true) → t.mie.getLsbD i = s.mie.getLsbD i) ∧
    (∀ i, ¬ (i = 1 ∧ s.mideleg.getLsbD 1 = true) → t.mipSw.getLsbD i = s.mipSw.getLsbD i)
end

