-- ==== Sys2Proof/Laws/Bits.lean ====
section
/-! SUPPORT. The small lemmas of the bit-field helpers and of the `mstatus` fields. -/

namespace Sys2Proof.Machine

/-! ## Masks and single bits -/

theorem getLsbD_withMask (old new mask : Word) (i : Nat) :
    (withMask old new mask).getLsbD i = if mask.getLsbD i then new.getLsbD i else old.getLsbD i := by
  unfold withMask
  rw [BitVec.getLsbD_or, BitVec.getLsbD_and, BitVec.getLsbD_and, BitVec.getLsbD_not]
  by_cases h : i < 64
  · cases mask.getLsbD i <;> simp only [h] <;> simp
  · simp only [BitVec.getLsbD_of_ge _ i (Nat.le_of_not_lt h)]; simp

theorem getElem_withMask (old new mask : Word) (i : Nat) (h : i < 64) :
    (withMask old new mask)[i] = if mask[i] then new[i] else old[i] := getLsbD_withMask old new mask i

theorem getLsbD_withBit (w : Word) (i j : Nat) (b : Bool) (hj : j < 64) :
    (withBit w i b).getLsbD j = if i = j then b else w.getLsbD j := by
  unfold withBit
  rw [getLsbD_withMask, BitVec.getLsbD_twoPow]
  by_cases h : i = j
  · subst h
    cases b
    · simp [hj]
    · simp only [if_true, BitVec.getLsbD_twoPow]; simp [hj]
  · simp [h]

@[simp] theorem getElem_withBit (w : Word) (i j : Nat) (b : Bool) (hj : j < 64) :
    (withBit w i b)[j] = if i = j then b else w[j] := getLsbD_withBit w i j b hj

@[simp] theorem getLsbD_withBit_same (w : Word) (i : Nat) (b : Bool) (hi : i < 64) :
    (withBit w i b).getLsbD i = b := by simp [getLsbD_withBit _ _ _ _ hi]

theorem getLsbD_withBit_other (w : Word) (i j : Nat) (b : Bool) (h : i ≠ j) :
    (withBit w i b).getLsbD j = w.getLsbD j := by
  by_cases hj : j < 64
  · rw [getLsbD_withBit _ _ _ _ hj, if_neg h]
  · rw [BitVec.getLsbD_of_ge _ j (Nat.le_of_not_lt hj), BitVec.getLsbD_of_ge _ j (Nat.le_of_not_lt hj)]

theorem withMask_zero_mask (old new : Word) : withMask old new 0#64 = old := by
  apply BitVec.eq_of_getLsbD_eq
  intro i _
  rw [getLsbD_withMask]; simp

theorem withMask_idem (old new mask : Word) : withMask (withMask old new mask) new mask = withMask old new mask := by
  apply BitVec.eq_of_getLsbD_eq
  intro i _
  simp only [getLsbD_withMask]; split <;> rfl

/-! ## MPP -/

theorem getLsbD_maskMPP (i : Nat) : maskMPP.getLsbD i = (decide (i = 11) || decide (i = 12)) := by
  by_cases h : i < 64
  · have : ∀ k : Fin 64, maskMPP.getLsbD k.val = (decide (k.val = 11) || decide (k.val = 12)) := by decide
    exact this ⟨i, h⟩
  · rw [BitVec.getLsbD_of_ge _ _ (by omega)]
    have h1 : i ≠ 11 := by omega
    have h2 : i ≠ 12 := by omega
    simp [h1, h2]

theorem extract_withMpp (m : Word) (p : Mode) : (withMpp m p).extractLsb' 11 2 = BitVec.ofNat 2 (modeCode p) := by
  apply BitVec.eq_of_getLsbD_eq
  intro i hi
  have : i = 0 ∨ i = 1 := by omega
  rw [BitVec.getLsbD_extractLsb']
  unfold withMpp
  rw [getLsbD_withMask, getLsbD_maskMPP]
  rcases this with rfl | rfl <;> cases p <;> rfl

@[simp] theorem mppOf_withMpp (m : Word) (p : Mode) : mppOf (withMpp m p) = p := by
  unfold mppOf
  rw [extract_withMpp]
  cases p <;> rfl

theorem getLsbD_withMpp (m : Word) (p : Mode) (i : Nat) (h1 : i ≠ 11) (h2 : i ≠ 12) :
    (withMpp m p).getLsbD i = m.getLsbD i := by
  simp [withMpp, getLsbD_withMask, getLsbD_maskMPP, h1, h2]

theorem extract_withBit (m : Word) (i : Nat) (b : Bool) (h1 : i ≠ 11) (h2 : i ≠ 12) :
    (withBit m i b).extractLsb' 11 2 = m.extractLsb' 11 2 := by
  apply BitVec.eq_of_getLsbD_eq
  intro j hj
  have : j = 0 ∨ j = 1 := by omega
  rw [BitVec.getLsbD_extractLsb', BitVec.getLsbD_extractLsb']
  rcases this with rfl | rfl
  · rw [getLsbD_withBit_other _ _ _ _ h1]
  · rw [getLsbD_withBit_other _ _ _ _ h2]

theorem mppOf_withBit (m : Word) (i : Nat) (b : Bool) (h1 : i ≠ 11) (h2 : i ≠ 12) :
    mppOf (withBit m i b) = mppOf m := by
  simp [mppOf, extract_withBit m i b h1 h2]

/-! ## XLEN-bit values and alignment -/

@[simp] theorem truncXlen_idem (x : XLen) (w : Word) : truncXlen x (truncXlen x w) = truncXlen x w := by
  cases x
  · simp [truncXlen, BitVec.and_assoc]
  · rfl

theorem fits_trunc (x : XLen) (w : Word) : fits x (truncXlen x w) := truncXlen_idem x w

theorem fits_rv64 (w : Word) : fits .rv64 w := rfl

/-- On RV32 an XLEN-bit value has no bit at or above 32. -/
theorem fits_rv32_iff (w : Word) : fits .rv32 w ↔ ∀ i, 32 ≤ i → w.getLsbD i = false := by
  have hm : ∀ i, (0xFFFFFFFF#64 : Word).getLsbD i = decide (i < 32) := by
    intro i
    by_cases h : i < 64
    · have : ∀ k : Fin 64, (0xFFFFFFFF#64 : Word).getLsbD k.val = decide (k.val < 32) := by decide
      exact this ⟨i, h⟩
    · rw [BitVec.getLsbD_of_ge _ _ (by omega)]
      have : ¬ i < 32 := by omega
      simp [this]
  constructor
  · intro h i hi
    have h' : (truncXlen .rv32 w).getLsbD i = w.getLsbD i := by rw [show truncXlen .rv32 w = w from h]
    have hi' : ¬ i < 32 := by omega
    simpa [truncXlen, hm, hi'] using h'.symm
  · intro h
    apply BitVec.eq_of_getLsbD_eq
    intro i _
    by_cases hi : i < 32
    · simp [truncXlen, hm, hi]
    · simp [truncXlen, hm, hi, h i (by omega)]

/-- A value with no bit outside an XLEN-bit mask is an XLEN-bit value. -/
theorem fits_and (x : XLen) (w m : Word) (h : fits x w) : fits x (w &&& m) := by
  cases x
  · rw [fits_rv32_iff] at h ⊢
    intro i hi; simp [h i hi]
  · rfl

theorem fits_or (x : XLen) (v w : Word) (hv : fits x v) (hw : fits x w) : fits x (v ||| w) := by
  cases x
  · rw [fits_rv32_iff] at hv hw ⊢
    intro i hi; simp [hv i hi, hw i hi]
  · rfl

theorem fits_withMask (x : XLen) (old new mask : Word) (ho : fits x old) (hn : fits x new) :
    fits x (withMask old new mask) := by
  cases x
  · rw [fits_rv32_iff] at ho hn ⊢
    intro i hi; rw [getLsbD_withMask, ho i hi, hn i hi]; simp
  · rfl

theorem fits_clearLow2 (x : XLen) (w : Word) (h : fits x w) : fits x (clearLow2 w) := fits_and x w _ h

theorem fits_low (x : XLen) (n : Nat) (h : n < 2 ^ 32) : fits x (BitVec.ofNat 64 n) := by
  cases x
  · rw [fits_rv32_iff]
    intro i hi
    have : n < 2 ^ i := lt_of_lt_of_le h (Nat.pow_le_pow_right (by omega) hi)
    simp [BitVec.getLsbD_ofNat, Nat.testBit_lt_two_pow this]
  · rfl

/-- Clearing bits 1:0 rounds down to a multiple of 4. -/
theorem toNat_clearLow2 (w : Word) : (clearLow2 w).toNat = w.toNat / 4 * 4 := by
  have h : clearLow2 w = (w >>> 2) <<< 2 := by
    have hm : ∀ k : Fin 64, (~~~3#64 : Word).getLsbD k.val = decide (2 ≤ k.val) := by decide
    apply BitVec.eq_of_getLsbD_eq
    intro i hi
    have := hm ⟨i, hi⟩
    simp only at this
    unfold clearLow2
    rw [BitVec.getLsbD_and, this, BitVec.getLsbD_shiftLeft, BitVec.getLsbD_ushiftRight]
    by_cases h2 : i < 2
    · have : ¬ 2 ≤ i := by omega
      simp [h2, this]
    · have h3 : 2 ≤ i := by omega
      simp [h2, hi, h3, show 2 + (i - 2) = i by omega]
  rw [h, BitVec.toNat_shiftLeft, BitVec.toNat_ushiftRight, Nat.shiftLeft_eq, Nat.shiftRight_eq_div_pow]
  have := w.isLt
  rw [Nat.mod_eq_of_lt]
  all_goals omega

theorem aligned4_clearLow2 (w : Word) : aligned4 (clearLow2 w) := by
  unfold aligned4; rw [toNat_clearLow2]; omega

theorem clearLow2_of_aligned (w : Word) (h : aligned4 w) : clearLow2 w = w := by
  apply BitVec.eq_of_toNat_eq
  rw [toNat_clearLow2]; unfold aligned4 at h; omega

end Sys2Proof.Machine
end

