-- ==== Sys2Proof/Laws/Decode.lean ====
section
/-! SUPPORT. The fields of an encoded word (30_encoding.md R141), one lemma a field and a format. -/

namespace Sys2Proof

/-! ## The I-type format of the CSR instructions -/

theorem opcodeOf_encodeCsr (f : BitVec 3) (rd : RegIdx) (csr : CsrNum) (rs1 : BitVec 5) :
    opcodeOf (encodeCsr f rd csr rs1) = opcodeSystem := by
  apply BitVec.eq_of_getLsbD_eq
  intro i hi
  simp only [opcodeOf, encodeCsr, BitVec.getLsbD_extractLsb', BitVec.getLsbD_append]
  simp [hi]

theorem rdOf_encodeCsr (f : BitVec 3) (rd : RegIdx) (csr : CsrNum) (rs1 : BitVec 5) :
    rdOf (encodeCsr f rd csr rs1) = rd := by
  apply BitVec.eq_of_getLsbD_eq
  intro i hi
  simp only [rdOf, encodeCsr, BitVec.getLsbD_extractLsb', BitVec.getLsbD_append]
  simp [hi]

theorem funct3Of_encodeCsr (f : BitVec 3) (rd : RegIdx) (csr : CsrNum) (rs1 : BitVec 5) :
    funct3Of (encodeCsr f rd csr rs1) = f := by
  apply BitVec.eq_of_getLsbD_eq
  intro i hi
  simp only [funct3Of, encodeCsr, BitVec.getLsbD_extractLsb', BitVec.getLsbD_append]
  simp [hi, show ¬ 12 + i < 7 by omega, show 12 + i - 7 - 5 = i by omega, show ¬ 12 + i - 7 < 5 by omega]

theorem rs1Of_encodeCsr (f : BitVec 3) (rd : RegIdx) (csr : CsrNum) (rs1 : BitVec 5) :
    rs1Of (encodeCsr f rd csr rs1) = rs1 := by
  apply BitVec.eq_of_getLsbD_eq
  intro i hi
  simp only [rs1Of, encodeCsr, BitVec.getLsbD_extractLsb', BitVec.getLsbD_append]
  simp [hi, show ¬ 15 + i < 7 by omega, show ¬ 15 + i - 7 < 5 by omega, show ¬ 15 + i - 7 - 5 < 3 by omega,
    show 15 + i - 7 - 5 - 3 = i by omega]

theorem csrOf_encodeCsr (f : BitVec 3) (rd : RegIdx) (csr : CsrNum) (rs1 : BitVec 5) :
    csrOf (encodeCsr f rd csr rs1) = csr := by
  apply BitVec.eq_of_getLsbD_eq
  intro i hi
  simp only [csrOf, encodeCsr, BitVec.getLsbD_extractLsb', BitVec.getLsbD_append]
  simp [hi, show ¬ 20 + i < 7 by omega, show ¬ 20 + i - 7 < 5 by omega, show ¬ 20 + i - 7 - 5 < 3 by omega,
    show ¬ 20 + i - 7 - 5 - 3 < 5 by omega, show 20 + i - 7 - 5 - 3 - 5 = i by omega]

/-! ## The R-type format -/

theorem opcodeOf_encodeR (f7 : BitVec 7) (rs2 rs1 : RegIdx) (f3 : BitVec 3) (rd : RegIdx) (op : BitVec 7) :
    opcodeOf (encodeR f7 rs2 rs1 f3 rd op) = op := by
  apply BitVec.eq_of_getLsbD_eq
  intro i hi
  simp only [opcodeOf, encodeR, BitVec.getLsbD_extractLsb', BitVec.getLsbD_append]
  simp [hi]

theorem rdOf_encodeR (f7 : BitVec 7) (rs2 rs1 : RegIdx) (f3 : BitVec 3) (rd : RegIdx) (op : BitVec 7) :
    rdOf (encodeR f7 rs2 rs1 f3 rd op) = rd := by
  apply BitVec.eq_of_getLsbD_eq
  intro i hi
  simp only [rdOf, encodeR, BitVec.getLsbD_extractLsb', BitVec.getLsbD_append]
  simp [hi]

theorem funct3Of_encodeR (f7 : BitVec 7) (rs2 rs1 : RegIdx) (f3 : BitVec 3) (rd : RegIdx) (op : BitVec 7) :
    funct3Of (encodeR f7 rs2 rs1 f3 rd op) = f3 := by
  apply BitVec.eq_of_getLsbD_eq
  intro i hi
  simp only [funct3Of, encodeR, BitVec.getLsbD_extractLsb', BitVec.getLsbD_append]
  simp [hi, show ¬ 12 + i < 7 by omega, show 12 + i - 7 - 5 = i by omega, show ¬ 12 + i - 7 < 5 by omega]

theorem rs1Of_encodeR (f7 : BitVec 7) (rs2 rs1 : RegIdx) (f3 : BitVec 3) (rd : RegIdx) (op : BitVec 7) :
    rs1Of (encodeR f7 rs2 rs1 f3 rd op) = rs1 := by
  apply BitVec.eq_of_getLsbD_eq
  intro i hi
  simp only [rs1Of, encodeR, BitVec.getLsbD_extractLsb', BitVec.getLsbD_append]
  simp [hi, show ¬ 15 + i < 7 by omega, show ¬ 15 + i - 7 < 5 by omega, show ¬ 15 + i - 7 - 5 < 3 by omega,
    show 15 + i - 7 - 5 - 3 = i by omega]

theorem rs2Of_encodeR (f7 : BitVec 7) (rs2 rs1 : RegIdx) (f3 : BitVec 3) (rd : RegIdx) (op : BitVec 7) :
    rs2Of (encodeR f7 rs2 rs1 f3 rd op) = rs2 := by
  apply BitVec.eq_of_getLsbD_eq
  intro i hi
  simp only [rs2Of, encodeR, BitVec.getLsbD_extractLsb', BitVec.getLsbD_append]
  simp [hi, show ¬ 20 + i < 7 by omega, show ¬ 20 + i - 7 < 5 by omega, show ¬ 20 + i - 7 - 5 < 3 by omega,
    show ¬ 20 + i - 7 - 5 - 3 < 5 by omega, show 20 + i - 7 - 5 - 3 - 5 = i by omega]

theorem funct7Of_encodeR (f7 : BitVec 7) (rs2 rs1 : RegIdx) (f3 : BitVec 3) (rd : RegIdx) (op : BitVec 7) :
    funct7Of (encodeR f7 rs2 rs1 f3 rd op) = f7 := by
  apply BitVec.eq_of_getLsbD_eq
  intro i hi
  simp only [funct7Of, encodeR, BitVec.getLsbD_extractLsb', BitVec.getLsbD_append]
  simp [hi, show ¬ 25 + i < 7 by omega, show ¬ 25 + i - 7 < 5 by omega, show ¬ 25 + i - 7 - 5 < 3 by omega,
    show ¬ 25 + i - 7 - 5 - 3 < 5 by omega, show ¬ 25 + i - 7 - 5 - 3 - 5 < 5 by omega,
    show 25 + i - 7 - 5 - 3 - 5 - 5 = i by omega]

/-- `funct5`, `aq` and `rl` are the parts of `funct7`. -/
theorem funct7Of_parts (w : InstrWord) :
    funct5Of w = (funct7Of w).extractLsb' 2 5 ∧ aqOf w = (funct7Of w).getLsbD 1 ∧ rlOf w = (funct7Of w).getLsbD 0 := by
  refine ⟨?_, ?_, ?_⟩
  · apply BitVec.eq_of_getLsbD_eq
    intro i hi
    simp only [funct5Of, funct7Of, BitVec.getLsbD_extractLsb']
    simp [hi, show 2 + i < 7 by omega, show 25 + (2 + i) = 27 + i by omega]
  · simp only [aqOf, funct7Of, BitVec.getLsbD_extractLsb']; simp
  · simp only [rlOf, funct7Of, BitVec.getLsbD_extractLsb']; simp

/-- A word is what its fields make it (R-type). -/
theorem encodeR_fields (w : InstrWord) :
    encodeR (funct7Of w) (rs2Of w) (rs1Of w) (funct3Of w) (rdOf w) (opcodeOf w) = w := by
  apply BitVec.eq_of_getLsbD_eq
  intro i hi
  simp only [encodeR, funct7Of, rs2Of, rs1Of, funct3Of, rdOf, opcodeOf, BitVec.getLsbD_append,
    BitVec.getLsbD_extractLsb']
  split
  · simp_all
  · split
    · next h1 h2 => simp [h2, show 7 + (i - 7) = i by omega]
    · split
      · next h1 h2 h3 => simp [h3, show 12 + (i - 7 - 5) = i by omega]
      · split
        · next h1 h2 h3 h4 => simp [h4, show 15 + (i - 7 - 5 - 3) = i by omega]
        · split
          · next h1 h2 h3 h4 h5 => simp [h5, show 20 + (i - 7 - 5 - 3 - 5) = i by omega]
          · next h1 h2 h3 h4 h5 =>
            simp [show i - 7 - 5 - 3 - 5 - 5 < 7 by omega, show 25 + (i - 7 - 5 - 3 - 5 - 5) = i by omega]

end Sys2Proof
end

