-- ==== Sys2Proof/Laws/Memory.lean ====
section
/-! SUPPORT. The laws of memory: what a read gives after a write, and that every memory operation keeps the canonical
form. -/

namespace Sys2Proof.Machine

/-! ## One byte -/

/-- Every address listed is at least `a`. -/
def allAbove (a : Nat) (m : Memory) : Prop := ∀ c ∈ m, a < c.1

theorem wf_cons (c : Host.Cell) (m : Memory) :
    Memory.wf (c :: m) = true ↔ c.2 ≠ 0#8 ∧ allAbove c.1 m ∧ Memory.wf m = true := by
  induction m generalizing c with
  | nil => simp [Memory.wf, cellsOk, allAbove]
  | cons d m ih =>
    have ihd := ih d
    simp only [Memory.wf] at ihd
    simp only [Memory.wf, cellsOk, Bool.and_eq_true, decide_eq_true_eq]
    constructor
    · rintro ⟨⟨h1, h2⟩, h3⟩
      refine ⟨h1, ?_, h3⟩
      intro e he
      rcases List.mem_cons.1 he with rfl | he
      · exact h2
      · exact lt_trans h2 ((ihd.1 h3).2.1 e he)
    · rintro ⟨h1, h2, h3⟩
      exact ⟨⟨h1, h2 d (List.mem_cons_self)⟩, h3⟩

theorem read_of_not_mem (m : Memory) (a : Nat) (h : ∀ c ∈ m, c.1 ≠ a) : Memory.read m a = 0#8 := by
  induction m with
  | nil => rfl
  | cons c m ih =>
    simp only [Memory.read]
    rw [if_neg (h c List.mem_cons_self)]
    exact ih fun d hd => h d (List.mem_cons_of_mem _ hd)

theorem read_of_allAbove (m : Memory) (a : Nat) (h : allAbove a m) : Memory.read m a = 0#8 :=
  read_of_not_mem m a fun c hc => by have := h c hc; omega

/-- A read of the address written gives the byte written. -/
theorem read_write_same (m : Memory) (a : Nat) (b : Byte) (h : Memory.wf m = true) :
    (Memory.write m a b).read a = b := by
  induction m with
  | nil => by_cases hb : b = 0#8 <;> simp [Memory.write, Memory.read, hb]
  | cons c m ih =>
    obtain ⟨_, hab, hwf⟩ := (wf_cons c m).1 h
    simp only [Memory.write]
    by_cases h1 : a < c.1
    · rw [if_pos h1]
      by_cases hb : b = 0#8
      · rw [if_pos hb, hb]
        apply read_of_not_mem
        intro d hd
        rcases List.mem_cons.1 hd with rfl | hd
        · omega
        · have := hab d hd; omega
      · rw [if_neg hb]; simp [Memory.read]
    · rw [if_neg h1]
      by_cases h2 : c.1 = a
      · rw [if_pos h2]
        by_cases hb : b = 0#8
        · rw [if_pos hb, hb]; exact read_of_allAbove m a (h2 ▸ hab)
        · rw [if_neg hb]; simp [Memory.read]
      · rw [if_neg h2]; simp only [Memory.read]; rw [if_neg h2]; exact ih hwf

/-- A write leaves every other byte alone. -/
theorem read_write_other (m : Memory) (a a' : Nat) (b : Byte) (h : a' ≠ a) :
    (Memory.write m a b).read a' = m.read a' := by
  induction m with
  | nil => by_cases hb : b = 0#8 <;> simp [Memory.write, Memory.read, hb, Ne.symm h]
  | cons c m ih =>
    simp only [Memory.write]
    split
    · split
      · rfl
      · simp [Memory.read, Ne.symm h]
    · split
      · next hc =>
        have hca : c.1 ≠ a' := by omega
        split
        · simp [Memory.read, hca]
        · simp [Memory.read, Ne.symm h, hca]
      · simp only [Memory.read]; split
        · rfl
        · exact ih

theorem allAbove_write (m : Memory) (a k : Nat) (b : Byte) (h : allAbove k m) (hk : k < a) :
    allAbove k (Memory.write m a b) := by
  induction m with
  | nil =>
    simp only [Memory.write]; split
    · exact h
    · intro c hc; simp at hc; subst hc; exact hk
  | cons c m ih =>
    have hm : allAbove k m := fun d hd => h d (List.mem_cons_of_mem _ hd)
    have hc : k < c.1 := h c List.mem_cons_self
    simp only [Memory.write]
    split
    · split
      · exact h
      · intro d hd
        rcases List.mem_cons.1 hd with rfl | hd
        · exact hk
        · exact h d hd
    · split
      · split
        · exact hm
        · intro d hd
          rcases List.mem_cons.1 hd with rfl | hd
          · exact hk
          · exact hm d hd
      · intro d hd
        rcases List.mem_cons.1 hd with rfl | hd
        · exact hc
        · exact ih hm d hd

/-- A write keeps the canonical form. -/
theorem wf_write (m : Memory) (a : Nat) (b : Byte) (h : Memory.wf m = true) : Memory.wf (Memory.write m a b) = true := by
  induction m with
  | nil =>
    simp only [Memory.write]; split
    · exact h
    · next hb => simpa [Memory.wf, cellsOk] using hb
  | cons c m ih =>
    obtain ⟨hc, hab, hwf⟩ := (wf_cons c m).1 h
    simp only [Memory.write]
    split
    · next h1 =>
      split
      · exact h
      · next hb =>
        refine (wf_cons _ _).2 ⟨hb, ?_, h⟩
        intro d hd
        rcases List.mem_cons.1 hd with rfl | hd
        · exact h1
        · exact lt_trans h1 (hab d hd)
    · next h1 =>
      split
      · next h2 =>
        split
        · exact hwf
        · next hb => exact (wf_cons _ _).2 ⟨hb, h2 ▸ hab, hwf⟩
      · next h2 => exact (wf_cons _ _).2 ⟨hc, allAbove_write m a c.1 b hab (by omega), ih hwf⟩

/-- Two memories in canonical form that read alike everywhere are equal. -/
theorem memory_ext (m n : Memory) (hm : Memory.wf m = true) (hn : Memory.wf n = true)
    (h : ∀ a, Memory.read m a = Memory.read n a) : m = n := by
  induction m generalizing n with
  | nil =>
    cases n with
    | nil => rfl
    | cons d n =>
      obtain ⟨hd, _, _⟩ := (wf_cons d n).1 hn
      have := h d.1
      simp [Memory.read] at this
      exact absurd this.symm hd
  | cons c m ih =>
    obtain ⟨hc, hcm, hm'⟩ := (wf_cons c m).1 hm
    cases n with
    | nil =>
      have := h c.1
      simp [Memory.read] at this
      exact absurd this hc
    | cons d n =>
      obtain ⟨hd, hdn, hn'⟩ := (wf_cons d n).1 hn
      have key : c.1 = d.1 := by
        rcases Nat.lt_trichotomy c.1 d.1 with hlt | heq | hgt
        · have h1 := h c.1
          have hz : Memory.read (d :: n) c.1 = 0#8 := by
            apply read_of_not_mem
            intro e he
            rcases List.mem_cons.1 he with rfl | he
            · omega
            · have := hdn e he; omega
          rw [hz] at h1
          simp [Memory.read] at h1
          exact absurd h1 hc
        · exact heq
        · have h1 := h d.1
          have hz : Memory.read (c :: m) d.1 = 0#8 := by
            apply read_of_not_mem
            intro e he
            rcases List.mem_cons.1 he with rfl | he
            · omega
            · have := hcm e he; omega
          rw [hz] at h1
          simp [Memory.read] at h1
          exact absurd h1.symm hd
      have hval : c.2 = d.2 := by have := h c.1; simpa [Memory.read, key] using this
      have hcd : c = d := Prod.ext key hval
      subst hcd
      congr 1
      apply ih n hm' hn'
      intro a
      by_cases ha : c.1 = a
      · rw [read_of_allAbove m a (ha ▸ hcm), read_of_allAbove n a (ha ▸ hdn)]
      · have := h a
        simpa [Memory.read, ha] using this

/-! ## Several bytes -/

theorem wf_writeBytes (m : Memory) (a : Nat) (bs : List Byte) (h : Memory.wf m = true) :
    Memory.wf (m.writeBytes a bs) = true := by
  induction bs generalizing m a with
  | nil => exact h
  | cons b bs ih => exact ih _ _ (wf_write m a b h)

/-- A byte outside the bytes stored is as before. -/
theorem read_writeBytes_other (m : Memory) (a a' : Nat) (bs : List Byte) (h : a' < a ∨ a + bs.length ≤ a') :
    (m.writeBytes a bs).read a' = m.read a' := by
  induction bs generalizing m a with
  | nil => rfl
  | cons b bs ih =>
    simp only [Memory.writeBytes]
    simp only [List.length_cons] at h
    rw [ih _ _ (by omega), read_write_other _ _ _ _ (by omega)]

/-- A byte among the bytes stored is the byte stored there. -/
theorem read_writeBytes_same (m : Memory) (a i : Nat) (bs : List Byte) (h : Memory.wf m = true) (hi : i < bs.length) :
    (m.writeBytes a bs).read (a + i) = bs[i] := by
  induction bs generalizing m a i with
  | nil => simp at hi
  | cons b bs ih =>
    simp only [Memory.writeBytes]
    cases i with
    | zero =>
      rw [read_writeBytes_other _ _ _ _ (Or.inl (by omega))]
      simpa using read_write_same m a b h
    | succ i =>
      have := ih (Memory.write m a b) (a + 1) i (wf_write m a b h) (by simpa using hi)
      rw [show a + 1 + i = a + (i + 1) by omega] at this
      simpa using this

@[simp] theorem length_readBytes (m : Memory) (a n : Nat) : (m.readBytes a n).length = n := by
  induction n generalizing a with
  | zero => rfl
  | succ n ih => simp [Memory.readBytes, ih]

theorem getElem_readBytes (m : Memory) (a n i : Nat) (h : i < (m.readBytes a n).length) :
    (m.readBytes a n)[i] = m.read (a + i) := by
  induction n generalizing a i with
  | zero => simp [Memory.readBytes] at h
  | succ n ih =>
    cases i with
    | zero => simp [Memory.readBytes]
    | succ i =>
      have := ih (a + 1) i (by simpa [Memory.readBytes] using h)
      simpa [Memory.readBytes, show a + 1 + i = a + (i + 1) by omega] using this

theorem readBytes_congr (m m' : Memory) (a n : Nat) (h : ∀ i, i < n → m.read (a + i) = m'.read (a + i)) :
    m.readBytes a n = m'.readBytes a n := by
  apply List.ext_getElem (by simp)
  intro i h1 h2
  rw [getElem_readBytes, getElem_readBytes]
  exact h i (by simpa using h1)

/-- Reading the bytes just stored gives them back. -/
theorem readBytes_writeBytes (m : Memory) (a : Nat) (bs : List Byte) (h : Memory.wf m = true) :
    (m.writeBytes a bs).readBytes a bs.length = bs := by
  apply List.ext_getElem (by simp)
  intro i h1 h2
  rw [getElem_readBytes, read_writeBytes_same m a i bs h h2]

/-! ## Little-endian values -/

@[simp] theorem length_leBytes (n v : Nat) : (leBytes n v).length = n := by
  induction n generalizing v with
  | zero => rfl
  | succ n ih => simp [leBytes, ih]

theorem leValue_leBytes (n v : Nat) : leValue (leBytes n v) = v % 256 ^ n := by
  induction n generalizing v with
  | zero => simp [leBytes, leValue, Nat.mod_one]
  | succ n ih =>
    simp only [leBytes, leValue, ih, BitVec.toNat_ofNat]
    rw [show (256 : Nat) ^ (n + 1) = 256 * 256 ^ n by rw [Nat.pow_succ, Nat.mul_comm], Nat.mod_mul]

theorem leValue_lt (bs : List Byte) : leValue bs < 256 ^ bs.length := by
  induction bs with
  | nil => simp [leValue]
  | cons b bs ih =>
    have := b.isLt
    simp only [leValue, List.length_cons, Nat.pow_succ]
    omega

/-- Byte `j` of a number stored from an address up is the byte `j` places above it (20_memory.md R82). -/
theorem leValue_readBytes_byte (m : Memory) (a n j : Nat) :
    leValue (m.readBytes a n) / 256 ^ j % 256 = if j < n then (m.read (a + j)).toNat else 0 := by
  induction n generalizing a j with
  | zero => simp [Memory.readBytes, leValue]
  | succ n ih =>
    have hb := (m.read a).isLt
    simp only [Memory.readBytes, leValue]
    cases j with
    | zero => simp; omega
    | succ j =>
      rw [show (256 : Nat) ^ (j + 1) = 256 * 256 ^ j by rw [Nat.pow_succ, Nat.mul_comm], ← Nat.div_div_eq_div_mul,
        show ((m.read a).toNat + 256 * leValue (m.readBytes (a + 1) n)) / 256 = leValue (m.readBytes (a + 1) n) by omega, ih]
      simp [show a + 1 + j = a + (j + 1) by omega]

/-- Reading the word just stored gives it back. -/
theorem physRead32_physWrite (s : State) (pa : Nat) (v : BitVec 32) (h : Memory.wf s.mem = true) :
    (s.physWrite pa (leBytes 4 v.toNat)).physRead32 pa = v := by
  unfold State.physRead32 State.physWrite
  have := readBytes_writeBytes s.mem pa (leBytes 4 v.toNat) h
  rw [length_leBytes] at this
  simp only [this, leValue_leBytes]
  apply BitVec.eq_of_toNat_eq
  have hv := v.isLt
  simp only [BitVec.toNat_ofNat]
  omega

/-! ## The record of written words -/

theorem rising_cons (a : Nat) (l : List Nat) : rising (a :: l) = true ↔ (∀ b ∈ l, a < b) ∧ rising l = true := by
  induction l generalizing a with
  | nil => simp [rising]
  | cons b l ih =>
    simp only [rising, Bool.and_eq_true, decide_eq_true_eq]
    constructor
    · rintro ⟨h1, h2⟩
      refine ⟨?_, h2⟩
      intro c hc
      rcases List.mem_cons.1 hc with rfl | hc
      · exact h1
      · exact lt_trans h1 (((ih b).1 h2).1 c hc)
    · rintro ⟨h1, h2⟩
      exact ⟨h1 b List.mem_cons_self, h2⟩

theorem mem_insertRising (n k : Nat) (l : List Nat) : k ∈ insertRising n l ↔ k = n ∨ k ∈ l := by
  induction l with
  | nil => simp [insertRising]
  | cons a l ih =>
    simp only [insertRising]
    split
    · simp
    · split
      · next h => subst h; simp
      · simp only [List.mem_cons, ih]; tauto

theorem rising_insertRising (n : Nat) (l : List Nat) (h : rising l = true) : rising (insertRising n l) = true := by
  induction l with
  | nil => rfl
  | cons a l ih =>
    obtain ⟨h1, h2⟩ := (rising_cons a l).1 h
    simp only [insertRising]
    split
    · next hn =>
      refine (rising_cons _ _).2 ⟨?_, h⟩
      intro b hb
      rcases List.mem_cons.1 hb with rfl | hb
      · exact hn
      · exact lt_trans hn (h1 b hb)
    · split
      · exact h
      · next hn1 hn2 =>
        refine (rising_cons _ _).2 ⟨?_, ih h2⟩
        intro b hb
        rcases (mem_insertRising n b l).1 hb with rfl | hb
        · omega
        · exact h1 b hb

theorem rising_markWords (a : Nat) (ws : List Nat) (n : Nat) (h : rising ws = true) :
    rising (markWords a ws n) = true := by
  induction n generalizing a ws with
  | zero => exact h
  | succ n ih => exact ih _ _ (rising_insertRising _ _ h)

/-- The words marked are those of the bytes, beside those marked before. -/
theorem mem_markWords (a : Nat) (ws : List Nat) (n k : Nat) :
    k ∈ markWords a ws n ↔ k ∈ ws ∨ ∃ i, i < n ∧ k = (a + i) / 4 := by
  induction n generalizing a ws with
  | zero => simp [markWords]
  | succ n ih =>
    simp only [markWords, ih, mem_insertRising]
    constructor
    · rintro ((rfl | h) | ⟨i, hi, rfl⟩)
      · exact Or.inr ⟨0, by omega, rfl⟩
      · exact Or.inl h
      · exact Or.inr ⟨i + 1, by omega, by rw [show a + 1 + i = a + (i + 1) by omega]⟩
    · rintro (h | ⟨i, hi, rfl⟩)
      · exact Or.inl (Or.inr h)
      · cases i with
        | zero => exact Or.inl (Or.inl rfl)
        | succ i => exact Or.inr ⟨i, by omega, by rw [show a + 1 + i = a + (i + 1) by omega]⟩

theorem rising_filter (p : Nat → Bool) (l : List Nat) (h : rising l = true) : rising (l.filter p) = true := by
  induction l with
  | nil => rfl
  | cons a l ih =>
    obtain ⟨h1, h2⟩ := (rising_cons a l).1 h
    rw [List.filter_cons]
    split
    · exact (rising_cons _ _).2 ⟨fun b hb => h1 b (List.mem_filter.1 hb).1, ih h2⟩
    · exact ih h2

end Sys2Proof.Machine
end

