-- ==== Sys2Proof/Laws/State.lean ====
section
/-! SUPPORT. What each update of the state does to each field: one lemma a field and an update, so that no later proof
unfolds a record update. The named updates first, each by `rfl`; then trap entry and CSR writes, whose frame is that of
their cases. -/

namespace Sys2Proof.Machine

/-! ## `State.writeReg` -/

@[simp] theorem writeReg_cfg (s : State) (r : RegIdx) (v : Word) : (s.writeReg r v).cfg = s.cfg := rfl
@[simp] theorem writeReg_priv (s : State) (r : RegIdx) (v : Word) : (s.writeReg r v).priv = s.priv := rfl
@[simp] theorem writeReg_pc (s : State) (r : RegIdx) (v : Word) : (s.writeReg r v).pc = s.pc := rfl
@[simp] theorem writeReg_x (s : State) (r : RegIdx) (v : Word) : (s.writeReg r v).x = if r = 0#5 then s.x else s.x.set r.toNat v r.isLt := rfl
@[simp] theorem writeReg_mstatus (s : State) (r : RegIdx) (v : Word) : (s.writeReg r v).mstatus = s.mstatus := rfl
@[simp] theorem writeReg_mtvec (s : State) (r : RegIdx) (v : Word) : (s.writeReg r v).mtvec = s.mtvec := rfl
@[simp] theorem writeReg_mepc (s : State) (r : RegIdx) (v : Word) : (s.writeReg r v).mepc = s.mepc := rfl
@[simp] theorem writeReg_mcause (s : State) (r : RegIdx) (v : Word) : (s.writeReg r v).mcause = s.mcause := rfl
@[simp] theorem writeReg_mtval (s : State) (r : RegIdx) (v : Word) : (s.writeReg r v).mtval = s.mtval := rfl
@[simp] theorem writeReg_mscratch (s : State) (r : RegIdx) (v : Word) : (s.writeReg r v).mscratch = s.mscratch := rfl
@[simp] theorem writeReg_mie (s : State) (r : RegIdx) (v : Word) : (s.writeReg r v).mie = s.mie := rfl
@[simp] theorem writeReg_mipSw (s : State) (r : RegIdx) (v : Word) : (s.writeReg r v).mipSw = s.mipSw := rfl
@[simp] theorem writeReg_lines (s : State) (r : RegIdx) (v : Word) : (s.writeReg r v).lines = s.lines := rfl
@[simp] theorem writeReg_medeleg (s : State) (r : RegIdx) (v : Word) : (s.writeReg r v).medeleg = s.medeleg := rfl
@[simp] theorem writeReg_mideleg (s : State) (r : RegIdx) (v : Word) : (s.writeReg r v).mideleg = s.mideleg := rfl
@[simp] theorem writeReg_pmpcfg (s : State) (r : RegIdx) (v : Word) : (s.writeReg r v).pmpcfg = s.pmpcfg := rfl
@[simp] theorem writeReg_pmpaddr (s : State) (r : RegIdx) (v : Word) : (s.writeReg r v).pmpaddr = s.pmpaddr := rfl
@[simp] theorem writeReg_stvec (s : State) (r : RegIdx) (v : Word) : (s.writeReg r v).stvec = s.stvec := rfl
@[simp] theorem writeReg_sepc (s : State) (r : RegIdx) (v : Word) : (s.writeReg r v).sepc = s.sepc := rfl
@[simp] theorem writeReg_scause (s : State) (r : RegIdx) (v : Word) : (s.writeReg r v).scause = s.scause := rfl
@[simp] theorem writeReg_stval (s : State) (r : RegIdx) (v : Word) : (s.writeReg r v).stval = s.stval := rfl
@[simp] theorem writeReg_sscratch (s : State) (r : RegIdx) (v : Word) : (s.writeReg r v).sscratch = s.sscratch := rfl
@[simp] theorem writeReg_satp (s : State) (r : RegIdx) (v : Word) : (s.writeReg r v).satp = s.satp := rfl
@[simp] theorem writeReg_waiting (s : State) (r : RegIdx) (v : Word) : (s.writeReg r v).waiting = s.waiting := rfl
@[simp] theorem writeReg_mem (s : State) (r : RegIdx) (v : Word) : (s.writeReg r v).mem = s.mem := rfl
@[simp] theorem writeReg_written (s : State) (r : RegIdx) (v : Word) : (s.writeReg r v).written = s.written := rfl
@[simp] theorem writeReg_hist (s : State) (r : RegIdx) (v : Word) : (s.writeReg r v).hist = s.hist := rfl
@[simp] theorem writeReg_inputs (s : State) (r : RegIdx) (v : Word) : (s.writeReg r v).inputs = s.inputs := rfl
@[simp] theorem writeReg_draws (s : State) (r : RegIdx) (v : Word) : (s.writeReg r v).draws = s.draws := rfl

/-! ## `State.advance` -/

@[simp] theorem advance_cfg (s : State) : s.advance.cfg = s.cfg := rfl
@[simp] theorem advance_priv (s : State) : s.advance.priv = s.priv := rfl
@[simp] theorem advance_pc (s : State) : s.advance.pc = truncXlen s.cfg.xlen (s.pc + 4#64) := rfl
@[simp] theorem advance_x (s : State) : s.advance.x = s.x := rfl
@[simp] theorem advance_mstatus (s : State) : s.advance.mstatus = s.mstatus := rfl
@[simp] theorem advance_mtvec (s : State) : s.advance.mtvec = s.mtvec := rfl
@[simp] theorem advance_mepc (s : State) : s.advance.mepc = s.mepc := rfl
@[simp] theorem advance_mcause (s : State) : s.advance.mcause = s.mcause := rfl
@[simp] theorem advance_mtval (s : State) : s.advance.mtval = s.mtval := rfl
@[simp] theorem advance_mscratch (s : State) : s.advance.mscratch = s.mscratch := rfl
@[simp] theorem advance_mie (s : State) : s.advance.mie = s.mie := rfl
@[simp] theorem advance_mipSw (s : State) : s.advance.mipSw = s.mipSw := rfl
@[simp] theorem advance_lines (s : State) : s.advance.lines = s.lines := rfl
@[simp] theorem advance_medeleg (s : State) : s.advance.medeleg = s.medeleg := rfl
@[simp] theorem advance_mideleg (s : State) : s.advance.mideleg = s.mideleg := rfl
@[simp] theorem advance_pmpcfg (s : State) : s.advance.pmpcfg = s.pmpcfg := rfl
@[simp] theorem advance_pmpaddr (s : State) : s.advance.pmpaddr = s.pmpaddr := rfl
@[simp] theorem advance_stvec (s : State) : s.advance.stvec = s.stvec := rfl
@[simp] theorem advance_sepc (s : State) : s.advance.sepc = s.sepc := rfl
@[simp] theorem advance_scause (s : State) : s.advance.scause = s.scause := rfl
@[simp] theorem advance_stval (s : State) : s.advance.stval = s.stval := rfl
@[simp] theorem advance_sscratch (s : State) : s.advance.sscratch = s.sscratch := rfl
@[simp] theorem advance_satp (s : State) : s.advance.satp = s.satp := rfl
@[simp] theorem advance_waiting (s : State) : s.advance.waiting = s.waiting := rfl
@[simp] theorem advance_mem (s : State) : s.advance.mem = s.mem := rfl
@[simp] theorem advance_written (s : State) : s.advance.written = s.written := rfl
@[simp] theorem advance_hist (s : State) : s.advance.hist = s.hist := rfl
@[simp] theorem advance_inputs (s : State) : s.advance.inputs = s.inputs := rfl
@[simp] theorem advance_draws (s : State) : s.advance.draws = s.draws := rfl

/-! ## `State.drawn` -/

@[simp] theorem drawn_cfg (s : State) : s.drawn.cfg = s.cfg := rfl
@[simp] theorem drawn_priv (s : State) : s.drawn.priv = s.priv := rfl
@[simp] theorem drawn_pc (s : State) : s.drawn.pc = s.pc := rfl
@[simp] theorem drawn_x (s : State) : s.drawn.x = s.x := rfl
@[simp] theorem drawn_mstatus (s : State) : s.drawn.mstatus = s.mstatus := rfl
@[simp] theorem drawn_mtvec (s : State) : s.drawn.mtvec = s.mtvec := rfl
@[simp] theorem drawn_mepc (s : State) : s.drawn.mepc = s.mepc := rfl
@[simp] theorem drawn_mcause (s : State) : s.drawn.mcause = s.mcause := rfl
@[simp] theorem drawn_mtval (s : State) : s.drawn.mtval = s.mtval := rfl
@[simp] theorem drawn_mscratch (s : State) : s.drawn.mscratch = s.mscratch := rfl
@[simp] theorem drawn_mie (s : State) : s.drawn.mie = s.mie := rfl
@[simp] theorem drawn_mipSw (s : State) : s.drawn.mipSw = s.mipSw := rfl
@[simp] theorem drawn_lines (s : State) : s.drawn.lines = s.lines := rfl
@[simp] theorem drawn_medeleg (s : State) : s.drawn.medeleg = s.medeleg := rfl
@[simp] theorem drawn_mideleg (s : State) : s.drawn.mideleg = s.mideleg := rfl
@[simp] theorem drawn_pmpcfg (s : State) : s.drawn.pmpcfg = s.pmpcfg := rfl
@[simp] theorem drawn_pmpaddr (s : State) : s.drawn.pmpaddr = s.pmpaddr := rfl
@[simp] theorem drawn_stvec (s : State) : s.drawn.stvec = s.stvec := rfl
@[simp] theorem drawn_sepc (s : State) : s.drawn.sepc = s.sepc := rfl
@[simp] theorem drawn_scause (s : State) : s.drawn.scause = s.scause := rfl
@[simp] theorem drawn_stval (s : State) : s.drawn.stval = s.stval := rfl
@[simp] theorem drawn_sscratch (s : State) : s.drawn.sscratch = s.sscratch := rfl
@[simp] theorem drawn_satp (s : State) : s.drawn.satp = s.satp := rfl
@[simp] theorem drawn_waiting (s : State) : s.drawn.waiting = s.waiting := rfl
@[simp] theorem drawn_mem (s : State) : s.drawn.mem = s.mem := rfl
@[simp] theorem drawn_written (s : State) : s.drawn.written = s.written := rfl
@[simp] theorem drawn_hist (s : State) : s.drawn.hist = s.hist := rfl
@[simp] theorem drawn_inputs (s : State) : s.drawn.inputs = s.inputs := rfl
@[simp] theorem drawn_draws (s : State) : s.drawn.draws = s.draws + 1 := rfl

/-! ## `State.sampleLines` -/

@[simp] theorem sampleLines_cfg (s : State) : s.sampleLines.cfg = s.cfg := rfl
@[simp] theorem sampleLines_priv (s : State) : s.sampleLines.priv = s.priv := rfl
@[simp] theorem sampleLines_pc (s : State) : s.sampleLines.pc = s.pc := rfl
@[simp] theorem sampleLines_x (s : State) : s.sampleLines.x = s.x := rfl
@[simp] theorem sampleLines_mstatus (s : State) : s.sampleLines.mstatus = s.mstatus := rfl
@[simp] theorem sampleLines_mtvec (s : State) : s.sampleLines.mtvec = s.mtvec := rfl
@[simp] theorem sampleLines_mepc (s : State) : s.sampleLines.mepc = s.mepc := rfl
@[simp] theorem sampleLines_mcause (s : State) : s.sampleLines.mcause = s.mcause := rfl
@[simp] theorem sampleLines_mtval (s : State) : s.sampleLines.mtval = s.mtval := rfl
@[simp] theorem sampleLines_mscratch (s : State) : s.sampleLines.mscratch = s.mscratch := rfl
@[simp] theorem sampleLines_mie (s : State) : s.sampleLines.mie = s.mie := rfl
@[simp] theorem sampleLines_mipSw (s : State) : s.sampleLines.mipSw = s.mipSw := rfl
@[simp] theorem sampleLines_lines (s : State) : s.sampleLines.lines = s.inputs.headD s.lines := rfl
@[simp] theorem sampleLines_medeleg (s : State) : s.sampleLines.medeleg = s.medeleg := rfl
@[simp] theorem sampleLines_mideleg (s : State) : s.sampleLines.mideleg = s.mideleg := rfl
@[simp] theorem sampleLines_pmpcfg (s : State) : s.sampleLines.pmpcfg = s.pmpcfg := rfl
@[simp] theorem sampleLines_pmpaddr (s : State) : s.sampleLines.pmpaddr = s.pmpaddr := rfl
@[simp] theorem sampleLines_stvec (s : State) : s.sampleLines.stvec = s.stvec := rfl
@[simp] theorem sampleLines_sepc (s : State) : s.sampleLines.sepc = s.sepc := rfl
@[simp] theorem sampleLines_scause (s : State) : s.sampleLines.scause = s.scause := rfl
@[simp] theorem sampleLines_stval (s : State) : s.sampleLines.stval = s.stval := rfl
@[simp] theorem sampleLines_sscratch (s : State) : s.sampleLines.sscratch = s.sscratch := rfl
@[simp] theorem sampleLines_satp (s : State) : s.sampleLines.satp = s.satp := rfl
@[simp] theorem sampleLines_waiting (s : State) : s.sampleLines.waiting = s.waiting := rfl
@[simp] theorem sampleLines_mem (s : State) : s.sampleLines.mem = s.mem := rfl
@[simp] theorem sampleLines_written (s : State) : s.sampleLines.written = s.written := rfl
@[simp] theorem sampleLines_hist (s : State) : s.sampleLines.hist = s.hist := rfl
@[simp] theorem sampleLines_inputs (s : State) : s.sampleLines.inputs = s.inputs.tail := rfl
@[simp] theorem sampleLines_draws (s : State) : s.sampleLines.draws = s.draws := rfl

/-! ## `State.physWrite` -/

@[simp] theorem physWrite_cfg (s : State) (pa : Nat) (bs : List Byte) : (s.physWrite pa bs).cfg = s.cfg := rfl
@[simp] theorem physWrite_priv (s : State) (pa : Nat) (bs : List Byte) : (s.physWrite pa bs).priv = s.priv := rfl
@[simp] theorem physWrite_pc (s : State) (pa : Nat) (bs : List Byte) : (s.physWrite pa bs).pc = s.pc := rfl
@[simp] theorem physWrite_x (s : State) (pa : Nat) (bs : List Byte) : (s.physWrite pa bs).x = s.x := rfl
@[simp] theorem physWrite_mstatus (s : State) (pa : Nat) (bs : List Byte) : (s.physWrite pa bs).mstatus = s.mstatus := rfl
@[simp] theorem physWrite_mtvec (s : State) (pa : Nat) (bs : List Byte) : (s.physWrite pa bs).mtvec = s.mtvec := rfl
@[simp] theorem physWrite_mepc (s : State) (pa : Nat) (bs : List Byte) : (s.physWrite pa bs).mepc = s.mepc := rfl
@[simp] theorem physWrite_mcause (s : State) (pa : Nat) (bs : List Byte) : (s.physWrite pa bs).mcause = s.mcause := rfl
@[simp] theorem physWrite_mtval (s : State) (pa : Nat) (bs : List Byte) : (s.physWrite pa bs).mtval = s.mtval := rfl
@[simp] theorem physWrite_mscratch (s : State) (pa : Nat) (bs : List Byte) : (s.physWrite pa bs).mscratch = s.mscratch := rfl
@[simp] theorem physWrite_mie (s : State) (pa : Nat) (bs : List Byte) : (s.physWrite pa bs).mie = s.mie := rfl
@[simp] theorem physWrite_mipSw (s : State) (pa : Nat) (bs : List Byte) : (s.physWrite pa bs).mipSw = s.mipSw := rfl
@[simp] theorem physWrite_lines (s : State) (pa : Nat) (bs : List Byte) : (s.physWrite pa bs).lines = s.lines := rfl
@[simp] theorem physWrite_medeleg (s : State) (pa : Nat) (bs : List Byte) : (s.physWrite pa bs).medeleg = s.medeleg := rfl
@[simp] theorem physWrite_mideleg (s : State) (pa : Nat) (bs : List Byte) : (s.physWrite pa bs).mideleg = s.mideleg := rfl
@[simp] theorem physWrite_pmpcfg (s : State) (pa : Nat) (bs : List Byte) : (s.physWrite pa bs).pmpcfg = s.pmpcfg := rfl
@[simp] theorem physWrite_pmpaddr (s : State) (pa : Nat) (bs : List Byte) : (s.physWrite pa bs).pmpaddr = s.pmpaddr := rfl
@[simp] theorem physWrite_stvec (s : State) (pa : Nat) (bs : List Byte) : (s.physWrite pa bs).stvec = s.stvec := rfl
@[simp] theorem physWrite_sepc (s : State) (pa : Nat) (bs : List Byte) : (s.physWrite pa bs).sepc = s.sepc := rfl
@[simp] theorem physWrite_scause (s : State) (pa : Nat) (bs : List Byte) : (s.physWrite pa bs).scause = s.scause := rfl
@[simp] theorem physWrite_stval (s : State) (pa : Nat) (bs : List Byte) : (s.physWrite pa bs).stval = s.stval := rfl
@[simp] theorem physWrite_sscratch (s : State) (pa : Nat) (bs : List Byte) : (s.physWrite pa bs).sscratch = s.sscratch := rfl
@[simp] theorem physWrite_satp (s : State) (pa : Nat) (bs : List Byte) : (s.physWrite pa bs).satp = s.satp := rfl
@[simp] theorem physWrite_waiting (s : State) (pa : Nat) (bs : List Byte) : (s.physWrite pa bs).waiting = s.waiting := rfl
@[simp] theorem physWrite_mem (s : State) (pa : Nat) (bs : List Byte) : (s.physWrite pa bs).mem = s.mem.writeBytes pa bs := rfl
@[simp] theorem physWrite_written (s : State) (pa : Nat) (bs : List Byte) : (s.physWrite pa bs).written = markWords pa s.written bs.length := rfl
@[simp] theorem physWrite_hist (s : State) (pa : Nat) (bs : List Byte) : (s.physWrite pa bs).hist = .wrote pa (s.mem.readBytes pa bs.length) :: s.hist := rfl
@[simp] theorem physWrite_inputs (s : State) (pa : Nat) (bs : List Byte) : (s.physWrite pa bs).inputs = s.inputs := rfl
@[simp] theorem physWrite_draws (s : State) (pa : Nat) (bs : List Byte) : (s.physWrite pa bs).draws = s.draws := rfl

/-! ## `State.loadWord` -/

@[simp] theorem loadWord_cfg (s : State) (pa w : Nat) : (s.loadWord pa w).cfg = s.cfg := rfl
@[simp] theorem loadWord_priv (s : State) (pa w : Nat) : (s.loadWord pa w).priv = s.priv := rfl
@[simp] theorem loadWord_pc (s : State) (pa w : Nat) : (s.loadWord pa w).pc = s.pc := rfl
@[simp] theorem loadWord_x (s : State) (pa w : Nat) : (s.loadWord pa w).x = s.x := rfl
@[simp] theorem loadWord_mstatus (s : State) (pa w : Nat) : (s.loadWord pa w).mstatus = s.mstatus := rfl
@[simp] theorem loadWord_mtvec (s : State) (pa w : Nat) : (s.loadWord pa w).mtvec = s.mtvec := rfl
@[simp] theorem loadWord_mepc (s : State) (pa w : Nat) : (s.loadWord pa w).mepc = s.mepc := rfl
@[simp] theorem loadWord_mcause (s : State) (pa w : Nat) : (s.loadWord pa w).mcause = s.mcause := rfl
@[simp] theorem loadWord_mtval (s : State) (pa w : Nat) : (s.loadWord pa w).mtval = s.mtval := rfl
@[simp] theorem loadWord_mscratch (s : State) (pa w : Nat) : (s.loadWord pa w).mscratch = s.mscratch := rfl
@[simp] theorem loadWord_mie (s : State) (pa w : Nat) : (s.loadWord pa w).mie = s.mie := rfl
@[simp] theorem loadWord_mipSw (s : State) (pa w : Nat) : (s.loadWord pa w).mipSw = s.mipSw := rfl
@[simp] theorem loadWord_lines (s : State) (pa w : Nat) : (s.loadWord pa w).lines = s.lines := rfl
@[simp] theorem loadWord_medeleg (s : State) (pa w : Nat) : (s.loadWord pa w).medeleg = s.medeleg := rfl
@[simp] theorem loadWord_mideleg (s : State) (pa w : Nat) : (s.loadWord pa w).mideleg = s.mideleg := rfl
@[simp] theorem loadWord_pmpcfg (s : State) (pa w : Nat) : (s.loadWord pa w).pmpcfg = s.pmpcfg := rfl
@[simp] theorem loadWord_pmpaddr (s : State) (pa w : Nat) : (s.loadWord pa w).pmpaddr = s.pmpaddr := rfl
@[simp] theorem loadWord_stvec (s : State) (pa w : Nat) : (s.loadWord pa w).stvec = s.stvec := rfl
@[simp] theorem loadWord_sepc (s : State) (pa w : Nat) : (s.loadWord pa w).sepc = s.sepc := rfl
@[simp] theorem loadWord_scause (s : State) (pa w : Nat) : (s.loadWord pa w).scause = s.scause := rfl
@[simp] theorem loadWord_stval (s : State) (pa w : Nat) : (s.loadWord pa w).stval = s.stval := rfl
@[simp] theorem loadWord_sscratch (s : State) (pa w : Nat) : (s.loadWord pa w).sscratch = s.sscratch := rfl
@[simp] theorem loadWord_satp (s : State) (pa w : Nat) : (s.loadWord pa w).satp = s.satp := rfl
@[simp] theorem loadWord_waiting (s : State) (pa w : Nat) : (s.loadWord pa w).waiting = s.waiting := rfl
@[simp] theorem loadWord_mem (s : State) (pa w : Nat) : (s.loadWord pa w).mem = s.mem.writeBytes pa (leBytes 4 w) := rfl
@[simp] theorem loadWord_written (s : State) (pa w : Nat) : (s.loadWord pa w).written = s.written.filter (fun k => decide (k ≠ pa / 4)) := rfl
@[simp] theorem loadWord_hist (s : State) (pa w : Nat) : (s.loadWord pa w).hist = s.hist := rfl
@[simp] theorem loadWord_inputs (s : State) (pa w : Nat) : (s.loadWord pa w).inputs = s.inputs := rfl
@[simp] theorem loadWord_draws (s : State) (pa w : Nat) : (s.loadWord pa w).draws = s.draws := rfl

/-! ## `State.trapToM` -/

@[simp] theorem trapToM_cfg (s : State) (c : Cause) (tval epc : Word) : (s.trapToM c tval epc).cfg = s.cfg := rfl
@[simp] theorem trapToM_priv (s : State) (c : Cause) (tval epc : Word) : (s.trapToM c tval epc).priv = .machine := rfl
@[simp] theorem trapToM_pc (s : State) (c : Cause) (tval epc : Word) : (s.trapToM c tval epc).pc = s.mtvec := rfl
@[simp] theorem trapToM_x (s : State) (c : Cause) (tval epc : Word) : (s.trapToM c tval epc).x = s.x := rfl
@[simp] theorem trapToM_mstatus (s : State) (c : Cause) (tval epc : Word) : (s.trapToM c tval epc).mstatus = withMpp (withBit (withBit s.mstatus bitMPIE (s.flag bitMIE)) bitMIE false) s.priv := rfl
@[simp] theorem trapToM_mtvec (s : State) (c : Cause) (tval epc : Word) : (s.trapToM c tval epc).mtvec = s.mtvec := rfl
@[simp] theorem trapToM_mepc (s : State) (c : Cause) (tval epc : Word) : (s.trapToM c tval epc).mepc = clearLow2 epc := rfl
@[simp] theorem trapToM_mcause (s : State) (c : Cause) (tval epc : Word) : (s.trapToM c tval epc).mcause = causeValue s.cfg.xlen c := rfl
@[simp] theorem trapToM_mtval (s : State) (c : Cause) (tval epc : Word) : (s.trapToM c tval epc).mtval = tval := rfl
@[simp] theorem trapToM_mscratch (s : State) (c : Cause) (tval epc : Word) : (s.trapToM c tval epc).mscratch = s.mscratch := rfl
@[simp] theorem trapToM_mie (s : State) (c : Cause) (tval epc : Word) : (s.trapToM c tval epc).mie = s.mie := rfl
@[simp] theorem trapToM_mipSw (s : State) (c : Cause) (tval epc : Word) : (s.trapToM c tval epc).mipSw = s.mipSw := rfl
@[simp] theorem trapToM_lines (s : State) (c : Cause) (tval epc : Word) : (s.trapToM c tval epc).lines = s.lines := rfl
@[simp] theorem trapToM_medeleg (s : State) (c : Cause) (tval epc : Word) : (s.trapToM c tval epc).medeleg = s.medeleg := rfl
@[simp] theorem trapToM_mideleg (s : State) (c : Cause) (tval epc : Word) : (s.trapToM c tval epc).mideleg = s.mideleg := rfl
@[simp] theorem trapToM_pmpcfg (s : State) (c : Cause) (tval epc : Word) : (s.trapToM c tval epc).pmpcfg = s.pmpcfg := rfl
@[simp] theorem trapToM_pmpaddr (s : State) (c : Cause) (tval epc : Word) : (s.trapToM c tval epc).pmpaddr = s.pmpaddr := rfl
@[simp] theorem trapToM_stvec (s : State) (c : Cause) (tval epc : Word) : (s.trapToM c tval epc).stvec = s.stvec := rfl
@[simp] theorem trapToM_sepc (s : State) (c : Cause) (tval epc : Word) : (s.trapToM c tval epc).sepc = s.sepc := rfl
@[simp] theorem trapToM_scause (s : State) (c : Cause) (tval epc : Word) : (s.trapToM c tval epc).scause = s.scause := rfl
@[simp] theorem trapToM_stval (s : State) (c : Cause) (tval epc : Word) : (s.trapToM c tval epc).stval = s.stval := rfl
@[simp] theorem trapToM_sscratch (s : State) (c : Cause) (tval epc : Word) : (s.trapToM c tval epc).sscratch = s.sscratch := rfl
@[simp] theorem trapToM_satp (s : State) (c : Cause) (tval epc : Word) : (s.trapToM c tval epc).satp = s.satp := rfl
@[simp] theorem trapToM_waiting (s : State) (c : Cause) (tval epc : Word) : (s.trapToM c tval epc).waiting = false := rfl
@[simp] theorem trapToM_mem (s : State) (c : Cause) (tval epc : Word) : (s.trapToM c tval epc).mem = s.mem := rfl
@[simp] theorem trapToM_written (s : State) (c : Cause) (tval epc : Word) : (s.trapToM c tval epc).written = s.written := rfl
@[simp] theorem trapToM_hist (s : State) (c : Cause) (tval epc : Word) : (s.trapToM c tval epc).hist = s.hist := rfl
@[simp] theorem trapToM_inputs (s : State) (c : Cause) (tval epc : Word) : (s.trapToM c tval epc).inputs = s.inputs := rfl
@[simp] theorem trapToM_draws (s : State) (c : Cause) (tval epc : Word) : (s.trapToM c tval epc).draws = s.draws := rfl

/-! ## `State.trapToS` -/

@[simp] theorem trapToS_cfg (s : State) (c : Cause) (tval epc : Word) : (s.trapToS c tval epc).cfg = s.cfg := rfl
@[simp] theorem trapToS_priv (s : State) (c : Cause) (tval epc : Word) : (s.trapToS c tval epc).priv = .supervisor := rfl
@[simp] theorem trapToS_pc (s : State) (c : Cause) (tval epc : Word) : (s.trapToS c tval epc).pc = s.stvec := rfl
@[simp] theorem trapToS_x (s : State) (c : Cause) (tval epc : Word) : (s.trapToS c tval epc).x = s.x := rfl
@[simp] theorem trapToS_mstatus (s : State) (c : Cause) (tval epc : Word) : (s.trapToS c tval epc).mstatus = withBit (withBit (withBit s.mstatus bitSPIE (s.flag bitSIE)) bitSIE false) bitSPP (decide (s.priv = .supervisor)) := rfl
@[simp] theorem trapToS_mtvec (s : State) (c : Cause) (tval epc : Word) : (s.trapToS c tval epc).mtvec = s.mtvec := rfl
@[simp] theorem trapToS_mepc (s : State) (c : Cause) (tval epc : Word) : (s.trapToS c tval epc).mepc = s.mepc := rfl
@[simp] theorem trapToS_mcause (s : State) (c : Cause) (tval epc : Word) : (s.trapToS c tval epc).mcause = s.mcause := rfl
@[simp] theorem trapToS_mtval (s : State) (c : Cause) (tval epc : Word) : (s.trapToS c tval epc).mtval = s.mtval := rfl
@[simp] theorem trapToS_mscratch (s : State) (c : Cause) (tval epc : Word) : (s.trapToS c tval epc).mscratch = s.mscratch := rfl
@[simp] theorem trapToS_mie (s : State) (c : Cause) (tval epc : Word) : (s.trapToS c tval epc).mie = s.mie := rfl
@[simp] theorem trapToS_mipSw (s : State) (c : Cause) (tval epc : Word) : (s.trapToS c tval epc).mipSw = s.mipSw := rfl
@[simp] theorem trapToS_lines (s : State) (c : Cause) (tval epc : Word) : (s.trapToS c tval epc).lines = s.lines := rfl
@[simp] theorem trapToS_medeleg (s : State) (c : Cause) (tval epc : Word) : (s.trapToS c tval epc).medeleg = s.medeleg := rfl
@[simp] theorem trapToS_mideleg (s : State) (c : Cause) (tval epc : Word) : (s.trapToS c tval epc).mideleg = s.mideleg := rfl
@[simp] theorem trapToS_pmpcfg (s : State) (c : Cause) (tval epc : Word) : (s.trapToS c tval epc).pmpcfg = s.pmpcfg := rfl
@[simp] theorem trapToS_pmpaddr (s : State) (c : Cause) (tval epc : Word) : (s.trapToS c tval epc).pmpaddr = s.pmpaddr := rfl
@[simp] theorem trapToS_stvec (s : State) (c : Cause) (tval epc : Word) : (s.trapToS c tval epc).stvec = s.stvec := rfl
@[simp] theorem trapToS_sepc (s : State) (c : Cause) (tval epc : Word) : (s.trapToS c tval epc).sepc = clearLow2 epc := rfl
@[simp] theorem trapToS_scause (s : State) (c : Cause) (tval epc : Word) : (s.trapToS c tval epc).scause = causeValue s.cfg.xlen c := rfl
@[simp] theorem trapToS_stval (s : State) (c : Cause) (tval epc : Word) : (s.trapToS c tval epc).stval = tval := rfl
@[simp] theorem trapToS_sscratch (s : State) (c : Cause) (tval epc : Word) : (s.trapToS c tval epc).sscratch = s.sscratch := rfl
@[simp] theorem trapToS_satp (s : State) (c : Cause) (tval epc : Word) : (s.trapToS c tval epc).satp = s.satp := rfl
@[simp] theorem trapToS_waiting (s : State) (c : Cause) (tval epc : Word) : (s.trapToS c tval epc).waiting = false := rfl
@[simp] theorem trapToS_mem (s : State) (c : Cause) (tval epc : Word) : (s.trapToS c tval epc).mem = s.mem := rfl
@[simp] theorem trapToS_written (s : State) (c : Cause) (tval epc : Word) : (s.trapToS c tval epc).written = s.written := rfl
@[simp] theorem trapToS_hist (s : State) (c : Cause) (tval epc : Word) : (s.trapToS c tval epc).hist = s.hist := rfl
@[simp] theorem trapToS_inputs (s : State) (c : Cause) (tval epc : Word) : (s.trapToS c tval epc).inputs = s.inputs := rfl
@[simp] theorem trapToS_draws (s : State) (c : Cause) (tval epc : Word) : (s.trapToS c tval epc).draws = s.draws := rfl

/-! ## `State.returnFromM` -/

@[simp] theorem returnFromM_cfg (s : State) : s.returnFromM.cfg = s.cfg := rfl
@[simp] theorem returnFromM_priv (s : State) : s.returnFromM.priv = mppOf s.mstatus := rfl
@[simp] theorem returnFromM_pc (s : State) : s.returnFromM.pc = s.mepc := rfl
@[simp] theorem returnFromM_x (s : State) : s.returnFromM.x = s.x := rfl
@[simp] theorem returnFromM_mstatus (s : State) : s.returnFromM.mstatus = withMpp (withBit (withBit s.mstatus bitMIE (s.flag bitMPIE)) bitMPIE true) (if s.cfg.hasU then .user else .machine) := rfl
@[simp] theorem returnFromM_mtvec (s : State) : s.returnFromM.mtvec = s.mtvec := rfl
@[simp] theorem returnFromM_mepc (s : State) : s.returnFromM.mepc = s.mepc := rfl
@[simp] theorem returnFromM_mcause (s : State) : s.returnFromM.mcause = s.mcause := rfl
@[simp] theorem returnFromM_mtval (s : State) : s.returnFromM.mtval = s.mtval := rfl
@[simp] theorem returnFromM_mscratch (s : State) : s.returnFromM.mscratch = s.mscratch := rfl
@[simp] theorem returnFromM_mie (s : State) : s.returnFromM.mie = s.mie := rfl
@[simp] theorem returnFromM_mipSw (s : State) : s.returnFromM.mipSw = s.mipSw := rfl
@[simp] theorem returnFromM_lines (s : State) : s.returnFromM.lines = s.lines := rfl
@[simp] theorem returnFromM_medeleg (s : State) : s.returnFromM.medeleg = s.medeleg := rfl
@[simp] theorem returnFromM_mideleg (s : State) : s.returnFromM.mideleg = s.mideleg := rfl
@[simp] theorem returnFromM_pmpcfg (s : State) : s.returnFromM.pmpcfg = s.pmpcfg := rfl
@[simp] theorem returnFromM_pmpaddr (s : State) : s.returnFromM.pmpaddr = s.pmpaddr := rfl
@[simp] theorem returnFromM_stvec (s : State) : s.returnFromM.stvec = s.stvec := rfl
@[simp] theorem returnFromM_sepc (s : State) : s.returnFromM.sepc = s.sepc := rfl
@[simp] theorem returnFromM_scause (s : State) : s.returnFromM.scause = s.scause := rfl
@[simp] theorem returnFromM_stval (s : State) : s.returnFromM.stval = s.stval := rfl
@[simp] theorem returnFromM_sscratch (s : State) : s.returnFromM.sscratch = s.sscratch := rfl
@[simp] theorem returnFromM_satp (s : State) : s.returnFromM.satp = s.satp := rfl
@[simp] theorem returnFromM_waiting (s : State) : s.returnFromM.waiting = s.waiting := rfl
@[simp] theorem returnFromM_mem (s : State) : s.returnFromM.mem = s.mem := rfl
@[simp] theorem returnFromM_written (s : State) : s.returnFromM.written = s.written := rfl
@[simp] theorem returnFromM_hist (s : State) : s.returnFromM.hist = s.hist := rfl
@[simp] theorem returnFromM_inputs (s : State) : s.returnFromM.inputs = s.inputs := rfl
@[simp] theorem returnFromM_draws (s : State) : s.returnFromM.draws = s.draws := rfl

/-! ## `State.returnFromS` -/

@[simp] theorem returnFromS_cfg (s : State) : s.returnFromS.cfg = s.cfg := rfl
@[simp] theorem returnFromS_priv (s : State) : s.returnFromS.priv = sppOf s.mstatus := rfl
@[simp] theorem returnFromS_pc (s : State) : s.returnFromS.pc = s.sepc := rfl
@[simp] theorem returnFromS_x (s : State) : s.returnFromS.x = s.x := rfl
@[simp] theorem returnFromS_mstatus (s : State) : s.returnFromS.mstatus = withBit (withBit (withBit s.mstatus bitSIE (s.flag bitSPIE)) bitSPIE true) bitSPP false := rfl
@[simp] theorem returnFromS_mtvec (s : State) : s.returnFromS.mtvec = s.mtvec := rfl
@[simp] theorem returnFromS_mepc (s : State) : s.returnFromS.mepc = s.mepc := rfl
@[simp] theorem returnFromS_mcause (s : State) : s.returnFromS.mcause = s.mcause := rfl
@[simp] theorem returnFromS_mtval (s : State) : s.returnFromS.mtval = s.mtval := rfl
@[simp] theorem returnFromS_mscratch (s : State) : s.returnFromS.mscratch = s.mscratch := rfl
@[simp] theorem returnFromS_mie (s : State) : s.returnFromS.mie = s.mie := rfl
@[simp] theorem returnFromS_mipSw (s : State) : s.returnFromS.mipSw = s.mipSw := rfl
@[simp] theorem returnFromS_lines (s : State) : s.returnFromS.lines = s.lines := rfl
@[simp] theorem returnFromS_medeleg (s : State) : s.returnFromS.medeleg = s.medeleg := rfl
@[simp] theorem returnFromS_mideleg (s : State) : s.returnFromS.mideleg = s.mideleg := rfl
@[simp] theorem returnFromS_pmpcfg (s : State) : s.returnFromS.pmpcfg = s.pmpcfg := rfl
@[simp] theorem returnFromS_pmpaddr (s : State) : s.returnFromS.pmpaddr = s.pmpaddr := rfl
@[simp] theorem returnFromS_stvec (s : State) : s.returnFromS.stvec = s.stvec := rfl
@[simp] theorem returnFromS_sepc (s : State) : s.returnFromS.sepc = s.sepc := rfl
@[simp] theorem returnFromS_scause (s : State) : s.returnFromS.scause = s.scause := rfl
@[simp] theorem returnFromS_stval (s : State) : s.returnFromS.stval = s.stval := rfl
@[simp] theorem returnFromS_sscratch (s : State) : s.returnFromS.sscratch = s.sscratch := rfl
@[simp] theorem returnFromS_satp (s : State) : s.returnFromS.satp = s.satp := rfl
@[simp] theorem returnFromS_waiting (s : State) : s.returnFromS.waiting = s.waiting := rfl
@[simp] theorem returnFromS_mem (s : State) : s.returnFromS.mem = s.mem := rfl
@[simp] theorem returnFromS_written (s : State) : s.returnFromS.written = s.written := rfl
@[simp] theorem returnFromS_hist (s : State) : s.returnFromS.hist = s.hist := rfl
@[simp] theorem returnFromS_inputs (s : State) : s.returnFromS.inputs = s.inputs := rfl
@[simp] theorem returnFromS_draws (s : State) : s.returnFromS.draws = s.draws := rfl

/-! ## `State.writeSatp` -/

@[simp] theorem writeSatp_cfg (s : State) (v : Word) : (s.writeSatp v).cfg = s.cfg := rfl
@[simp] theorem writeSatp_priv (s : State) (v : Word) : (s.writeSatp v).priv = s.priv := rfl
@[simp] theorem writeSatp_pc (s : State) (v : Word) : (s.writeSatp v).pc = s.pc := rfl
@[simp] theorem writeSatp_x (s : State) (v : Word) : (s.writeSatp v).x = s.x := rfl
@[simp] theorem writeSatp_mstatus (s : State) (v : Word) : (s.writeSatp v).mstatus = s.mstatus := rfl
@[simp] theorem writeSatp_mtvec (s : State) (v : Word) : (s.writeSatp v).mtvec = s.mtvec := rfl
@[simp] theorem writeSatp_mepc (s : State) (v : Word) : (s.writeSatp v).mepc = s.mepc := rfl
@[simp] theorem writeSatp_mcause (s : State) (v : Word) : (s.writeSatp v).mcause = s.mcause := rfl
@[simp] theorem writeSatp_mtval (s : State) (v : Word) : (s.writeSatp v).mtval = s.mtval := rfl
@[simp] theorem writeSatp_mscratch (s : State) (v : Word) : (s.writeSatp v).mscratch = s.mscratch := rfl
@[simp] theorem writeSatp_mie (s : State) (v : Word) : (s.writeSatp v).mie = s.mie := rfl
@[simp] theorem writeSatp_mipSw (s : State) (v : Word) : (s.writeSatp v).mipSw = s.mipSw := rfl
@[simp] theorem writeSatp_lines (s : State) (v : Word) : (s.writeSatp v).lines = s.lines := rfl
@[simp] theorem writeSatp_medeleg (s : State) (v : Word) : (s.writeSatp v).medeleg = s.medeleg := rfl
@[simp] theorem writeSatp_mideleg (s : State) (v : Word) : (s.writeSatp v).mideleg = s.mideleg := rfl
@[simp] theorem writeSatp_pmpcfg (s : State) (v : Word) : (s.writeSatp v).pmpcfg = s.pmpcfg := rfl
@[simp] theorem writeSatp_pmpaddr (s : State) (v : Word) : (s.writeSatp v).pmpaddr = s.pmpaddr := rfl
@[simp] theorem writeSatp_stvec (s : State) (v : Word) : (s.writeSatp v).stvec = s.stvec := rfl
@[simp] theorem writeSatp_sepc (s : State) (v : Word) : (s.writeSatp v).sepc = s.sepc := rfl
@[simp] theorem writeSatp_scause (s : State) (v : Word) : (s.writeSatp v).scause = s.scause := rfl
@[simp] theorem writeSatp_stval (s : State) (v : Word) : (s.writeSatp v).stval = s.stval := rfl
@[simp] theorem writeSatp_sscratch (s : State) (v : Word) : (s.writeSatp v).sscratch = s.sscratch := rfl
@[simp] theorem writeSatp_satp (s : State) (v : Word) : (s.writeSatp v).satp = satpWritten s.cfg s.satp v := rfl
@[simp] theorem writeSatp_waiting (s : State) (v : Word) : (s.writeSatp v).waiting = s.waiting := rfl
@[simp] theorem writeSatp_mem (s : State) (v : Word) : (s.writeSatp v).mem = s.mem := rfl
@[simp] theorem writeSatp_written (s : State) (v : Word) : (s.writeSatp v).written = s.written := rfl
@[simp] theorem writeSatp_hist (s : State) (v : Word) : (s.writeSatp v).hist = if satpWritten s.cfg s.satp v = s.satp then s.hist else .satpWas s.satp :: s.hist := rfl
@[simp] theorem writeSatp_inputs (s : State) (v : Word) : (s.writeSatp v).inputs = s.inputs := rfl
@[simp] theorem writeSatp_draws (s : State) (v : Word) : (s.writeSatp v).draws = s.draws := rfl

/-! ## `State.writePmpCfg` -/

@[simp] theorem writePmpCfg_cfg (s : State) (k : Nat) (v : Word) : (s.writePmpCfg k v).cfg = s.cfg := rfl
@[simp] theorem writePmpCfg_priv (s : State) (k : Nat) (v : Word) : (s.writePmpCfg k v).priv = s.priv := rfl
@[simp] theorem writePmpCfg_pc (s : State) (k : Nat) (v : Word) : (s.writePmpCfg k v).pc = s.pc := rfl
@[simp] theorem writePmpCfg_x (s : State) (k : Nat) (v : Word) : (s.writePmpCfg k v).x = s.x := rfl
@[simp] theorem writePmpCfg_mstatus (s : State) (k : Nat) (v : Word) : (s.writePmpCfg k v).mstatus = s.mstatus := rfl
@[simp] theorem writePmpCfg_mtvec (s : State) (k : Nat) (v : Word) : (s.writePmpCfg k v).mtvec = s.mtvec := rfl
@[simp] theorem writePmpCfg_mepc (s : State) (k : Nat) (v : Word) : (s.writePmpCfg k v).mepc = s.mepc := rfl
@[simp] theorem writePmpCfg_mcause (s : State) (k : Nat) (v : Word) : (s.writePmpCfg k v).mcause = s.mcause := rfl
@[simp] theorem writePmpCfg_mtval (s : State) (k : Nat) (v : Word) : (s.writePmpCfg k v).mtval = s.mtval := rfl
@[simp] theorem writePmpCfg_mscratch (s : State) (k : Nat) (v : Word) : (s.writePmpCfg k v).mscratch = s.mscratch := rfl
@[simp] theorem writePmpCfg_mie (s : State) (k : Nat) (v : Word) : (s.writePmpCfg k v).mie = s.mie := rfl
@[simp] theorem writePmpCfg_mipSw (s : State) (k : Nat) (v : Word) : (s.writePmpCfg k v).mipSw = s.mipSw := rfl
@[simp] theorem writePmpCfg_lines (s : State) (k : Nat) (v : Word) : (s.writePmpCfg k v).lines = s.lines := rfl
@[simp] theorem writePmpCfg_medeleg (s : State) (k : Nat) (v : Word) : (s.writePmpCfg k v).medeleg = s.medeleg := rfl
@[simp] theorem writePmpCfg_mideleg (s : State) (k : Nat) (v : Word) : (s.writePmpCfg k v).mideleg = s.mideleg := rfl
@[simp] theorem writePmpCfg_pmpaddr (s : State) (k : Nat) (v : Word) : (s.writePmpCfg k v).pmpaddr = s.pmpaddr := rfl
@[simp] theorem writePmpCfg_stvec (s : State) (k : Nat) (v : Word) : (s.writePmpCfg k v).stvec = s.stvec := rfl
@[simp] theorem writePmpCfg_sepc (s : State) (k : Nat) (v : Word) : (s.writePmpCfg k v).sepc = s.sepc := rfl
@[simp] theorem writePmpCfg_scause (s : State) (k : Nat) (v : Word) : (s.writePmpCfg k v).scause = s.scause := rfl
@[simp] theorem writePmpCfg_stval (s : State) (k : Nat) (v : Word) : (s.writePmpCfg k v).stval = s.stval := rfl
@[simp] theorem writePmpCfg_sscratch (s : State) (k : Nat) (v : Word) : (s.writePmpCfg k v).sscratch = s.sscratch := rfl
@[simp] theorem writePmpCfg_satp (s : State) (k : Nat) (v : Word) : (s.writePmpCfg k v).satp = s.satp := rfl
@[simp] theorem writePmpCfg_waiting (s : State) (k : Nat) (v : Word) : (s.writePmpCfg k v).waiting = s.waiting := rfl
@[simp] theorem writePmpCfg_mem (s : State) (k : Nat) (v : Word) : (s.writePmpCfg k v).mem = s.mem := rfl
@[simp] theorem writePmpCfg_written (s : State) (k : Nat) (v : Word) : (s.writePmpCfg k v).written = s.written := rfl
@[simp] theorem writePmpCfg_hist (s : State) (k : Nat) (v : Word) : (s.writePmpCfg k v).hist = s.hist := rfl
@[simp] theorem writePmpCfg_inputs (s : State) (k : Nat) (v : Word) : (s.writePmpCfg k v).inputs = s.inputs := rfl
@[simp] theorem writePmpCfg_draws (s : State) (k : Nat) (v : Word) : (s.writePmpCfg k v).draws = s.draws := rfl

/-! ## `State.writePmpAddr` -/

@[simp] theorem writePmpAddr_cfg (s : State) (i : Fin 16) (v : Word) : (s.writePmpAddr i v).cfg = s.cfg := rfl
@[simp] theorem writePmpAddr_priv (s : State) (i : Fin 16) (v : Word) : (s.writePmpAddr i v).priv = s.priv := rfl
@[simp] theorem writePmpAddr_pc (s : State) (i : Fin 16) (v : Word) : (s.writePmpAddr i v).pc = s.pc := rfl
@[simp] theorem writePmpAddr_x (s : State) (i : Fin 16) (v : Word) : (s.writePmpAddr i v).x = s.x := rfl
@[simp] theorem writePmpAddr_mstatus (s : State) (i : Fin 16) (v : Word) : (s.writePmpAddr i v).mstatus = s.mstatus := rfl
@[simp] theorem writePmpAddr_mtvec (s : State) (i : Fin 16) (v : Word) : (s.writePmpAddr i v).mtvec = s.mtvec := rfl
@[simp] theorem writePmpAddr_mepc (s : State) (i : Fin 16) (v : Word) : (s.writePmpAddr i v).mepc = s.mepc := rfl
@[simp] theorem writePmpAddr_mcause (s : State) (i : Fin 16) (v : Word) : (s.writePmpAddr i v).mcause = s.mcause := rfl
@[simp] theorem writePmpAddr_mtval (s : State) (i : Fin 16) (v : Word) : (s.writePmpAddr i v).mtval = s.mtval := rfl
@[simp] theorem writePmpAddr_mscratch (s : State) (i : Fin 16) (v : Word) : (s.writePmpAddr i v).mscratch = s.mscratch := rfl
@[simp] theorem writePmpAddr_mie (s : State) (i : Fin 16) (v : Word) : (s.writePmpAddr i v).mie = s.mie := rfl
@[simp] theorem writePmpAddr_mipSw (s : State) (i : Fin 16) (v : Word) : (s.writePmpAddr i v).mipSw = s.mipSw := rfl
@[simp] theorem writePmpAddr_lines (s : State) (i : Fin 16) (v : Word) : (s.writePmpAddr i v).lines = s.lines := rfl
@[simp] theorem writePmpAddr_medeleg (s : State) (i : Fin 16) (v : Word) : (s.writePmpAddr i v).medeleg = s.medeleg := rfl
@[simp] theorem writePmpAddr_mideleg (s : State) (i : Fin 16) (v : Word) : (s.writePmpAddr i v).mideleg = s.mideleg := rfl
@[simp] theorem writePmpAddr_pmpcfg (s : State) (i : Fin 16) (v : Word) : (s.writePmpAddr i v).pmpcfg = s.pmpcfg := rfl
@[simp] theorem writePmpAddr_stvec (s : State) (i : Fin 16) (v : Word) : (s.writePmpAddr i v).stvec = s.stvec := rfl
@[simp] theorem writePmpAddr_sepc (s : State) (i : Fin 16) (v : Word) : (s.writePmpAddr i v).sepc = s.sepc := rfl
@[simp] theorem writePmpAddr_scause (s : State) (i : Fin 16) (v : Word) : (s.writePmpAddr i v).scause = s.scause := rfl
@[simp] theorem writePmpAddr_stval (s : State) (i : Fin 16) (v : Word) : (s.writePmpAddr i v).stval = s.stval := rfl
@[simp] theorem writePmpAddr_sscratch (s : State) (i : Fin 16) (v : Word) : (s.writePmpAddr i v).sscratch = s.sscratch := rfl
@[simp] theorem writePmpAddr_satp (s : State) (i : Fin 16) (v : Word) : (s.writePmpAddr i v).satp = s.satp := rfl
@[simp] theorem writePmpAddr_waiting (s : State) (i : Fin 16) (v : Word) : (s.writePmpAddr i v).waiting = s.waiting := rfl
@[simp] theorem writePmpAddr_mem (s : State) (i : Fin 16) (v : Word) : (s.writePmpAddr i v).mem = s.mem := rfl
@[simp] theorem writePmpAddr_written (s : State) (i : Fin 16) (v : Word) : (s.writePmpAddr i v).written = s.written := rfl
@[simp] theorem writePmpAddr_hist (s : State) (i : Fin 16) (v : Word) : (s.writePmpAddr i v).hist = s.hist := rfl
@[simp] theorem writePmpAddr_inputs (s : State) (i : Fin 16) (v : Word) : (s.writePmpAddr i v).inputs = s.inputs := rfl
@[simp] theorem writePmpAddr_draws (s : State) (i : Fin 16) (v : Word) : (s.writePmpAddr i v).draws = s.draws := rfl

/-! ## `State.takeTrap`: the fields no trap writes (60_exceptions.md R235, R236) -/

@[simp] theorem takeTrap_cfg (s : State) (c : Cause) (tval epc : Word) : (s.takeTrap c tval epc).cfg = s.cfg := by
  unfold State.takeTrap; split <;> rfl
@[simp] theorem takeTrap_x (s : State) (c : Cause) (tval epc : Word) : (s.takeTrap c tval epc).x = s.x := by
  unfold State.takeTrap; split <;> rfl
@[simp] theorem takeTrap_mtvec (s : State) (c : Cause) (tval epc : Word) : (s.takeTrap c tval epc).mtvec = s.mtvec := by
  unfold State.takeTrap; split <;> rfl
@[simp] theorem takeTrap_mscratch (s : State) (c : Cause) (tval epc : Word) : (s.takeTrap c tval epc).mscratch = s.mscratch := by
  unfold State.takeTrap; split <;> rfl
@[simp] theorem takeTrap_mie (s : State) (c : Cause) (tval epc : Word) : (s.takeTrap c tval epc).mie = s.mie := by
  unfold State.takeTrap; split <;> rfl
@[simp] theorem takeTrap_mipSw (s : State) (c : Cause) (tval epc : Word) : (s.takeTrap c tval epc).mipSw = s.mipSw := by
  unfold State.takeTrap; split <;> rfl
@[simp] theorem takeTrap_lines (s : State) (c : Cause) (tval epc : Word) : (s.takeTrap c tval epc).lines = s.lines := by
  unfold State.takeTrap; split <;> rfl
@[simp] theorem takeTrap_medeleg (s : State) (c : Cause) (tval epc : Word) : (s.takeTrap c tval epc).medeleg = s.medeleg := by
  unfold State.takeTrap; split <;> rfl
@[simp] theorem takeTrap_mideleg (s : State) (c : Cause) (tval epc : Word) : (s.takeTrap c tval epc).mideleg = s.mideleg := by
  unfold State.takeTrap; split <;> rfl
@[simp] theorem takeTrap_pmpcfg (s : State) (c : Cause) (tval epc : Word) : (s.takeTrap c tval epc).pmpcfg = s.pmpcfg := by
  unfold State.takeTrap; split <;> rfl
@[simp] theorem takeTrap_pmpaddr (s : State) (c : Cause) (tval epc : Word) : (s.takeTrap c tval epc).pmpaddr = s.pmpaddr := by
  unfold State.takeTrap; split <;> rfl
@[simp] theorem takeTrap_stvec (s : State) (c : Cause) (tval epc : Word) : (s.takeTrap c tval epc).stvec = s.stvec := by
  unfold State.takeTrap; split <;> rfl
@[simp] theorem takeTrap_sscratch (s : State) (c : Cause) (tval epc : Word) : (s.takeTrap c tval epc).sscratch = s.sscratch := by
  unfold State.takeTrap; split <;> rfl
@[simp] theorem takeTrap_satp (s : State) (c : Cause) (tval epc : Word) : (s.takeTrap c tval epc).satp = s.satp := by
  unfold State.takeTrap; split <;> rfl
@[simp] theorem takeTrap_mem (s : State) (c : Cause) (tval epc : Word) : (s.takeTrap c tval epc).mem = s.mem := by
  unfold State.takeTrap; split <;> rfl
@[simp] theorem takeTrap_written (s : State) (c : Cause) (tval epc : Word) : (s.takeTrap c tval epc).written = s.written := by
  unfold State.takeTrap; split <;> rfl
@[simp] theorem takeTrap_hist (s : State) (c : Cause) (tval epc : Word) : (s.takeTrap c tval epc).hist = s.hist := by
  unfold State.takeTrap; split <;> rfl
@[simp] theorem takeTrap_inputs (s : State) (c : Cause) (tval epc : Word) : (s.takeTrap c tval epc).inputs = s.inputs := by
  unfold State.takeTrap; split <;> rfl
@[simp] theorem takeTrap_draws (s : State) (c : Cause) (tval epc : Word) : (s.takeTrap c tval epc).draws = s.draws := by
  unfold State.takeTrap; split <;> rfl
@[simp] theorem takeTrap_waiting (s : State) (c : Cause) (tval epc : Word) : (s.takeTrap c tval epc).waiting = false := by
  unfold State.takeTrap; split <;> rfl

/-! ## `State.raise`: the fields no trap writes (60_exceptions.md R235, R236) -/

@[simp] theorem raise_cfg (s : State) (e : Exn) (tval : Word) : (s.raise e tval).cfg = s.cfg := takeTrap_cfg s _ tval s.pc
@[simp] theorem raise_x (s : State) (e : Exn) (tval : Word) : (s.raise e tval).x = s.x := takeTrap_x s _ tval s.pc
@[simp] theorem raise_mtvec (s : State) (e : Exn) (tval : Word) : (s.raise e tval).mtvec = s.mtvec := takeTrap_mtvec s _ tval s.pc
@[simp] theorem raise_mscratch (s : State) (e : Exn) (tval : Word) : (s.raise e tval).mscratch = s.mscratch := takeTrap_mscratch s _ tval s.pc
@[simp] theorem raise_mie (s : State) (e : Exn) (tval : Word) : (s.raise e tval).mie = s.mie := takeTrap_mie s _ tval s.pc
@[simp] theorem raise_mipSw (s : State) (e : Exn) (tval : Word) : (s.raise e tval).mipSw = s.mipSw := takeTrap_mipSw s _ tval s.pc
@[simp] theorem raise_lines (s : State) (e : Exn) (tval : Word) : (s.raise e tval).lines = s.lines := takeTrap_lines s _ tval s.pc
@[simp] theorem raise_medeleg (s : State) (e : Exn) (tval : Word) : (s.raise e tval).medeleg = s.medeleg := takeTrap_medeleg s _ tval s.pc
@[simp] theorem raise_mideleg (s : State) (e : Exn) (tval : Word) : (s.raise e tval).mideleg = s.mideleg := takeTrap_mideleg s _ tval s.pc
@[simp] theorem raise_pmpcfg (s : State) (e : Exn) (tval : Word) : (s.raise e tval).pmpcfg = s.pmpcfg := takeTrap_pmpcfg s _ tval s.pc
@[simp] theorem raise_pmpaddr (s : State) (e : Exn) (tval : Word) : (s.raise e tval).pmpaddr = s.pmpaddr := takeTrap_pmpaddr s _ tval s.pc
@[simp] theorem raise_stvec (s : State) (e : Exn) (tval : Word) : (s.raise e tval).stvec = s.stvec := takeTrap_stvec s _ tval s.pc
@[simp] theorem raise_sscratch (s : State) (e : Exn) (tval : Word) : (s.raise e tval).sscratch = s.sscratch := takeTrap_sscratch s _ tval s.pc
@[simp] theorem raise_satp (s : State) (e : Exn) (tval : Word) : (s.raise e tval).satp = s.satp := takeTrap_satp s _ tval s.pc
@[simp] theorem raise_mem (s : State) (e : Exn) (tval : Word) : (s.raise e tval).mem = s.mem := takeTrap_mem s _ tval s.pc
@[simp] theorem raise_written (s : State) (e : Exn) (tval : Word) : (s.raise e tval).written = s.written := takeTrap_written s _ tval s.pc
@[simp] theorem raise_hist (s : State) (e : Exn) (tval : Word) : (s.raise e tval).hist = s.hist := takeTrap_hist s _ tval s.pc
@[simp] theorem raise_inputs (s : State) (e : Exn) (tval : Word) : (s.raise e tval).inputs = s.inputs := takeTrap_inputs s _ tval s.pc
@[simp] theorem raise_draws (s : State) (e : Exn) (tval : Word) : (s.raise e tval).draws = s.draws := takeTrap_draws s _ tval s.pc
@[simp] theorem raise_waiting (s : State) (e : Exn) (tval : Word) : (s.raise e tval).waiting = false := takeTrap_waiting s _ tval s.pc

/-! ## `State.raiseIllegal`: the fields no trap writes (60_exceptions.md R235, R236) -/

@[simp] theorem raiseIllegal_cfg (s : State) (w : InstrWord) : (s.raiseIllegal w).cfg = s.cfg := takeTrap_cfg s _ _ s.pc
@[simp] theorem raiseIllegal_x (s : State) (w : InstrWord) : (s.raiseIllegal w).x = s.x := takeTrap_x s _ _ s.pc
@[simp] theorem raiseIllegal_mtvec (s : State) (w : InstrWord) : (s.raiseIllegal w).mtvec = s.mtvec := takeTrap_mtvec s _ _ s.pc
@[simp] theorem raiseIllegal_mscratch (s : State) (w : InstrWord) : (s.raiseIllegal w).mscratch = s.mscratch := takeTrap_mscratch s _ _ s.pc
@[simp] theorem raiseIllegal_mie (s : State) (w : InstrWord) : (s.raiseIllegal w).mie = s.mie := takeTrap_mie s _ _ s.pc
@[simp] theorem raiseIllegal_mipSw (s : State) (w : InstrWord) : (s.raiseIllegal w).mipSw = s.mipSw := takeTrap_mipSw s _ _ s.pc
@[simp] theorem raiseIllegal_lines (s : State) (w : InstrWord) : (s.raiseIllegal w).lines = s.lines := takeTrap_lines s _ _ s.pc
@[simp] theorem raiseIllegal_medeleg (s : State) (w : InstrWord) : (s.raiseIllegal w).medeleg = s.medeleg := takeTrap_medeleg s _ _ s.pc
@[simp] theorem raiseIllegal_mideleg (s : State) (w : InstrWord) : (s.raiseIllegal w).mideleg = s.mideleg := takeTrap_mideleg s _ _ s.pc
@[simp] theorem raiseIllegal_pmpcfg (s : State) (w : InstrWord) : (s.raiseIllegal w).pmpcfg = s.pmpcfg := takeTrap_pmpcfg s _ _ s.pc
@[simp] theorem raiseIllegal_pmpaddr (s : State) (w : InstrWord) : (s.raiseIllegal w).pmpaddr = s.pmpaddr := takeTrap_pmpaddr s _ _ s.pc
@[simp] theorem raiseIllegal_stvec (s : State) (w : InstrWord) : (s.raiseIllegal w).stvec = s.stvec := takeTrap_stvec s _ _ s.pc
@[simp] theorem raiseIllegal_sscratch (s : State) (w : InstrWord) : (s.raiseIllegal w).sscratch = s.sscratch := takeTrap_sscratch s _ _ s.pc
@[simp] theorem raiseIllegal_satp (s : State) (w : InstrWord) : (s.raiseIllegal w).satp = s.satp := takeTrap_satp s _ _ s.pc
@[simp] theorem raiseIllegal_mem (s : State) (w : InstrWord) : (s.raiseIllegal w).mem = s.mem := takeTrap_mem s _ _ s.pc
@[simp] theorem raiseIllegal_written (s : State) (w : InstrWord) : (s.raiseIllegal w).written = s.written := takeTrap_written s _ _ s.pc
@[simp] theorem raiseIllegal_hist (s : State) (w : InstrWord) : (s.raiseIllegal w).hist = s.hist := takeTrap_hist s _ _ s.pc
@[simp] theorem raiseIllegal_inputs (s : State) (w : InstrWord) : (s.raiseIllegal w).inputs = s.inputs := takeTrap_inputs s _ _ s.pc
@[simp] theorem raiseIllegal_draws (s : State) (w : InstrWord) : (s.raiseIllegal w).draws = s.draws := takeTrap_draws s _ _ s.pc
@[simp] theorem raiseIllegal_waiting (s : State) (w : InstrWord) : (s.raiseIllegal w).waiting = false := takeTrap_waiting s _ _ s.pc

/-! ## `State.takeInterrupt`: the fields no trap writes (60_exceptions.md R235, R236) -/

@[simp] theorem takeInterrupt_cfg (s : State) (i : Interrupt) : (s.takeInterrupt i).cfg = s.cfg := takeTrap_cfg s _ _ s.pc
@[simp] theorem takeInterrupt_x (s : State) (i : Interrupt) : (s.takeInterrupt i).x = s.x := takeTrap_x s _ _ s.pc
@[simp] theorem takeInterrupt_mtvec (s : State) (i : Interrupt) : (s.takeInterrupt i).mtvec = s.mtvec := takeTrap_mtvec s _ _ s.pc
@[simp] theorem takeInterrupt_mscratch (s : State) (i : Interrupt) : (s.takeInterrupt i).mscratch = s.mscratch := takeTrap_mscratch s _ _ s.pc
@[simp] theorem takeInterrupt_mie (s : State) (i : Interrupt) : (s.takeInterrupt i).mie = s.mie := takeTrap_mie s _ _ s.pc
@[simp] theorem takeInterrupt_mipSw (s : State) (i : Interrupt) : (s.takeInterrupt i).mipSw = s.mipSw := takeTrap_mipSw s _ _ s.pc
@[simp] theorem takeInterrupt_lines (s : State) (i : Interrupt) : (s.takeInterrupt i).lines = s.lines := takeTrap_lines s _ _ s.pc
@[simp] theorem takeInterrupt_medeleg (s : State) (i : Interrupt) : (s.takeInterrupt i).medeleg = s.medeleg := takeTrap_medeleg s _ _ s.pc
@[simp] theorem takeInterrupt_mideleg (s : State) (i : Interrupt) : (s.takeInterrupt i).mideleg = s.mideleg := takeTrap_mideleg s _ _ s.pc
@[simp] theorem takeInterrupt_pmpcfg (s : State) (i : Interrupt) : (s.takeInterrupt i).pmpcfg = s.pmpcfg := takeTrap_pmpcfg s _ _ s.pc
@[simp] theorem takeInterrupt_pmpaddr (s : State) (i : Interrupt) : (s.takeInterrupt i).pmpaddr = s.pmpaddr := takeTrap_pmpaddr s _ _ s.pc
@[simp] theorem takeInterrupt_stvec (s : State) (i : Interrupt) : (s.takeInterrupt i).stvec = s.stvec := takeTrap_stvec s _ _ s.pc
@[simp] theorem takeInterrupt_sscratch (s : State) (i : Interrupt) : (s.takeInterrupt i).sscratch = s.sscratch := takeTrap_sscratch s _ _ s.pc
@[simp] theorem takeInterrupt_satp (s : State) (i : Interrupt) : (s.takeInterrupt i).satp = s.satp := takeTrap_satp s _ _ s.pc
@[simp] theorem takeInterrupt_mem (s : State) (i : Interrupt) : (s.takeInterrupt i).mem = s.mem := takeTrap_mem s _ _ s.pc
@[simp] theorem takeInterrupt_written (s : State) (i : Interrupt) : (s.takeInterrupt i).written = s.written := takeTrap_written s _ _ s.pc
@[simp] theorem takeInterrupt_hist (s : State) (i : Interrupt) : (s.takeInterrupt i).hist = s.hist := takeTrap_hist s _ _ s.pc
@[simp] theorem takeInterrupt_inputs (s : State) (i : Interrupt) : (s.takeInterrupt i).inputs = s.inputs := takeTrap_inputs s _ _ s.pc
@[simp] theorem takeInterrupt_draws (s : State) (i : Interrupt) : (s.takeInterrupt i).draws = s.draws := takeTrap_draws s _ _ s.pc
@[simp] theorem takeInterrupt_waiting (s : State) (i : Interrupt) : (s.takeInterrupt i).waiting = false := takeTrap_waiting s _ _ s.pc

/-! ## `State.csrWrite`: the fields no CSR write changes -/

@[simp] theorem csrWrite_cfg (s : State) (c : Csr) (v : Word) : (s.csrWrite c v).cfg = s.cfg := by cases c <;> rfl
@[simp] theorem csrWrite_priv (s : State) (c : Csr) (v : Word) : (s.csrWrite c v).priv = s.priv := by cases c <;> rfl
@[simp] theorem csrWrite_pc (s : State) (c : Csr) (v : Word) : (s.csrWrite c v).pc = s.pc := by cases c <;> rfl
@[simp] theorem csrWrite_x (s : State) (c : Csr) (v : Word) : (s.csrWrite c v).x = s.x := by cases c <;> rfl
@[simp] theorem csrWrite_lines (s : State) (c : Csr) (v : Word) : (s.csrWrite c v).lines = s.lines := by cases c <;> rfl
@[simp] theorem csrWrite_waiting (s : State) (c : Csr) (v : Word) : (s.csrWrite c v).waiting = s.waiting := by cases c <;> rfl
@[simp] theorem csrWrite_mem (s : State) (c : Csr) (v : Word) : (s.csrWrite c v).mem = s.mem := by cases c <;> rfl
@[simp] theorem csrWrite_written (s : State) (c : Csr) (v : Word) : (s.csrWrite c v).written = s.written := by cases c <;> rfl
@[simp] theorem csrWrite_inputs (s : State) (c : Csr) (v : Word) : (s.csrWrite c v).inputs = s.inputs := by cases c <;> rfl
@[simp] theorem csrWrite_draws (s : State) (c : Csr) (v : Word) : (s.csrWrite c v).draws = s.draws := by cases c <;> rfl

end Sys2Proof.Machine
end

