-- ==== Sys2Proof/Laws/Ops.lean ====
section
/-! SUPPORT. For each shared operation, one lemma that says everything it can do; later proofs cite it instead of
unfolding the operation. -/

namespace Sys2Proof.Machine

/-! ## Registers -/

@[simp] theorem readReg_zero (s : State) : s.readReg 0#5 = 0#64 := rfl

theorem readReg_congr (s t : State) (h : t.x = s.x) (r : RegIdx) : t.readReg r = s.readReg r := by
  simp [State.readReg, h]

/-- A register read after a register write (10_state.md R23). -/
theorem readReg_writeReg (s : State) (r r' : RegIdx) (v : Word) :
    (s.writeReg r v).readReg r' = if r' = 0#5 then 0#64 else if r' = r then v else s.readReg r' := by
  by_cases h0 : r' = 0#5
  · subst h0; simp
  · by_cases h : r' = r
    · subst h; simp [State.readReg, h0]
    · have hn : r.toNat ≠ r'.toNat := fun hh => h (BitVec.eq_of_toNat_eq hh.symm)
      by_cases hr : r = 0#5
      · simp [State.readReg, h0, hr]
      · simp [State.readReg, h0, h, hr, hn]

@[simp] theorem readReg_advance (s : State) (r : RegIdx) : s.advance.readReg r = s.readReg r := rfl
@[simp] theorem readReg_drawn (s : State) (r : RegIdx) : s.drawn.readReg r = s.readReg r := rfl
@[simp] theorem readReg_physWrite (s : State) (pa : Nat) (bs : List Byte) (r : RegIdx) :
    (s.physWrite pa bs).readReg r = s.readReg r := rfl
@[simp] theorem readReg_takeTrap (s : State) (c : Cause) (tval epc : Word) (r : RegIdx) :
    (s.takeTrap c tval epc).readReg r = s.readReg r := readReg_congr _ _ (by simp) r
@[simp] theorem readReg_raise (s : State) (e : Exn) (tval : Word) (r : RegIdx) :
    (s.raise e tval).readReg r = s.readReg r := readReg_takeTrap s _ tval s.pc r
@[simp] theorem readReg_raiseIllegal (s : State) (w : InstrWord) (r : RegIdx) :
    (s.raiseIllegal w).readReg r = s.readReg r := readReg_takeTrap s _ _ s.pc r
@[simp] theorem readReg_csrWrite (s : State) (c : Csr) (v : Word) (r : RegIdx) :
    (s.csrWrite c v).readReg r = s.readReg r := readReg_congr _ _ (by simp) r

/-! ## Traps -/

theorem takeTrap_cases (s : State) (c : Cause) (tval epc : Word) :
    (s.delegated c = true ∧ s.takeTrap c tval epc = s.trapToS c tval epc) ∨
      (s.delegated c = false ∧ s.takeTrap c tval epc = s.trapToM c tval epc) := by
  unfold State.takeTrap
  cases h : s.delegated c
  · exact Or.inr ⟨rfl, by simp⟩
  · exact Or.inl ⟨rfl, by simp⟩

/-- A trap is taken in S-mode only with S-mode, from S or U (60_exceptions.md R234). -/
theorem delegated_iff (s : State) (c : Cause) :
    s.delegated c = true ↔ s.cfg.hasS = true ∧ s.priv ≠ .machine ∧
      match c with
      | .exception e => s.medeleg.getLsbD (exnCode e) = true
      | .interrupt i => s.mideleg.getLsbD (interruptCode i) = true := by
  unfold State.delegated
  cases c <;> simp [and_assoc]

theorem takeTrap_of_machine (s : State) (c : Cause) (tval epc : Word) (h : s.priv = .machine) :
    s.takeTrap c tval epc = s.trapToM c tval epc := by
  have : s.delegated c = false := by simp [State.delegated, h]
  simp [State.takeTrap, this]

/-! ## Physical memory protection -/

theorem pmpCfg_congr (s t : State) (h : t.pmpcfg = s.pmpcfg) (i : Nat) : t.pmpCfg i = s.pmpCfg i := by
  unfold State.pmpCfg
  rw [h]

theorem pmpAddr_congr (s t : State) (h : t.pmpaddr = s.pmpaddr) (i : Nat) : t.pmpAddr i = s.pmpAddr i := by
  unfold State.pmpAddr
  rw [h]

theorem pmpRegion_congr (s t : State) (hc : t.cfg = s.cfg) (h1 : t.pmpcfg = s.pmpcfg) (h2 : t.pmpaddr = s.pmpaddr)
    (i : Nat) : t.pmpRegion i = s.pmpRegion i := by
  unfold State.pmpRegion
  simp only [pmpCfg_congr s t h1, pmpAddr_congr s t h2, hc]

/-- The PMP check reads the configuration and the PMP registers only (20_memory.md R117). -/
theorem pmpCheck_congr (s t : State) (hc : t.cfg = s.cfg) (h1 : t.pmpcfg = s.pmpcfg) (h2 : t.pmpaddr = s.pmpaddr)
    (pa len : Nat) (acc : Access) (p : Mode) : t.pmpCheck pa len acc p = s.pmpCheck pa len acc p := by
  have hf : ∀ n i, t.pmpFrom pa len acc p i n = s.pmpFrom pa len acc p i n := by
    intro n
    induction n with
    | zero => intro i; rfl
    | succ n ih =>
      intro i
      simp only [State.pmpFrom, pmpRegion_congr s t hc h1 h2, ih, pmpCfg_congr s t h1]
  simp [State.pmpCheck, hc, hf]

/-- Reading a `pmpcfg` register reads the configuration and the configuration bytes only (10_state.md R45). -/
theorem readPmpCfg_congr (s t : State) (hc : t.cfg = s.cfg) (h : t.pmpcfg = s.pmpcfg) (k : Nat) :
    t.readPmpCfg k = s.readPmpCfg k := by
  have hb : ∀ n i, t.pmpCfgBytes i n = s.pmpCfgBytes i n := by
    intro n
    induction n with
    | zero => intro i; rfl
    | succ n ih => intro i; simp only [State.pmpCfgBytes, ih, hc, pmpCfg_congr s t h]
  unfold State.readPmpCfg
  rw [hb, hc]

/-! ## Translation -/

/-- What translating an address may leave behind: nothing, one free choice drawn, and then perhaps one page-table
entry written (20_memory.md R108). -/
def TranslationEffect (s t : State) : Prop :=
  t = s ∨ t = s.drawn ∨ ∃ addr bytes, t = s.drawn.physWrite addr bytes

theorem translate_ok (s t : State) (va : Word) (acc : Access) (p : Mode) (pa : Nat)
    (h : s.translate va acc p = .ok pa t) :
    ∃ level addr pte, (s.chosenWalk va acc p).2.result = .leaf level addr pte ∧
      pa = physicalAddress (s.satpMode (s.chosenWalk va acc p).1) va pte level ∧
      ((needsUpdate pte acc = false ∧ t = s.drawn) ∨
        (needsUpdate pte acc = true ∧ s.adFault = false ∧
          s.pmpCheck addr (pteSize (s.satpMode (s.chosenWalk va acc p).1)) .store .supervisor = true ∧
          pmaAllows s.cfg addr (pteSize (s.satpMode (s.chosenWalk va acc p).1)) .store = true ∧
          t = s.drawn.physWrite addr
            (leBytes (pteSize (s.satpMode (s.chosenWalk va acc p).1)) (pteUpdated pte acc).toNat))) := by
  unfold State.translate at h
  simp only at h
  split at h
  · cases h
  · cases h
  · cases h
  · next level addr pte hr =>
    refine ⟨level, addr, pte, hr, ?_⟩
    split at h
    · next hn =>
      split at h
      · cases h
      · next ha =>
        split at h
        · cases h
        · next hp =>
          injection h with h1 h2
          simp only [Bool.not_eq_true, Bool.not_eq_false', Bool.and_eq_true] at hp ha
          exact ⟨h1.symm, Or.inr ⟨hn, ha, hp.1, hp.2, h2.symm⟩⟩
    · next hn =>
      injection h with h1 h2
      exact ⟨h1.symm, Or.inl ⟨by simpa using hn, h2.symm⟩⟩

theorem translate_raised (s t : State) (va tval : Word) (acc : Access) (p : Mode) (e : Exn)
    (h : s.translate va acc p = .raised e tval t) :
    tval = va ∧ t = s.drawn ∧ (e = pageFaultOf acc ∨ e = accessFaultOf acc) := by
  unfold State.translate at h
  simp only at h
  split at h
  · injection h with h1 h2 h3; exact ⟨h2.symm, h3.symm, Or.inl h1.symm⟩
  · injection h with h1 h2 h3; exact ⟨h2.symm, h3.symm, Or.inr h1.symm⟩
  · cases h
  · split at h
    · split at h
      · injection h with h1 h2 h3; exact ⟨h2.symm, h3.symm, Or.inl h1.symm⟩
      · split at h
        · injection h with h1 h2 h3; exact ⟨h2.symm, h3.symm, Or.inr h1.symm⟩
        · cases h
    · cases h

theorem translate_refused (s : State) (va : Word) (acc : Access) (p : Mode) (r : Refusal)
    (h : s.translate va acc p = .refused r) : r = .deviceRegion := by
  unfold State.translate at h
  simp only at h
  split at h
  · cases h
  · cases h
  · injection h with h; exact h.symm
  · split at h
    · split at h
      · cases h
      · split at h <;> cases h
    · cases h

theorem translate_effect (s t : State) (va : Word) (acc : Access) (p : Mode) (pa : Nat)
    (h : s.translate va acc p = .ok pa t) : TranslationEffect s t := by
  obtain ⟨_, addr, _, _, _, ⟨_, rfl⟩ | ⟨_, _, _, _, rfl⟩⟩ := translate_ok s t va acc p pa h
  · exact Or.inr (Or.inl rfl)
  · exact Or.inr (Or.inr ⟨addr, _, rfl⟩)

/-- Alignment, privilege and translation (20_memory.md R83): everything `locate` can answer. -/
theorem locate_ok (s t : State) (va : Word) (acc : Access) (pa : Nat) (h : s.locate va acc = .ok pa t) :
    va.toNat % 4 = 0 ∧
      ((s.translated (s.effPriv acc) = false ∧ pa = va.toNat ∧ t = s) ∨
        (s.translated (s.effPriv acc) = true ∧ s.translate va acc (s.effPriv acc) = .ok pa t)) := by
  unfold State.locate at h
  split at h
  · cases h
  · next ha =>
    refine ⟨by omega, ?_⟩
    split at h
    · next ht => exact Or.inr ⟨ht, h⟩
    · next ht => injection h with h1 h2; exact Or.inl ⟨by simpa using ht, h1.symm, h2.symm⟩

theorem locate_raised (s t : State) (va tval : Word) (acc : Access) (e : Exn)
    (h : s.locate va acc = .raised e tval t) :
    tval = va ∧
      ((va.toNat % 4 ≠ 0 ∧ e = misalignedOf acc ∧ t = s) ∨
        (va.toNat % 4 = 0 ∧ t = s.drawn ∧ (e = pageFaultOf acc ∨ e = accessFaultOf acc))) := by
  unfold State.locate at h
  split at h
  · next ha => injection h with h1 h2 h3; exact ⟨h2.symm, Or.inl ⟨ha, h1.symm, h3.symm⟩⟩
  · next ha =>
    split at h
    · obtain ⟨h1, h2, h3⟩ := translate_raised _ _ _ _ _ _ _ h
      exact ⟨h1, Or.inr ⟨by omega, h2, h3⟩⟩
    · cases h

theorem locate_effect (s t : State) (va : Word) (acc : Access) (pa : Nat) (h : s.locate va acc = .ok pa t) :
    TranslationEffect s t := by
  obtain ⟨_, ⟨_, _, rfl⟩ | ⟨_, h'⟩⟩ := locate_ok s t va acc pa h
  · exact Or.inl rfl
  · exact translate_effect _ _ _ _ _ _ h'

/-- An aligned address that is not translated is its own physical address (20_memory.md R86). -/
theorem locate_untranslated (s : State) (va : Word) (acc : Access) (ha : va.toNat % 4 = 0)
    (ht : s.translated (s.effPriv acc) = false) : s.locate va acc = .ok va.toNat s := by
  simp [State.locate, ha, ht]

/-! ## Fetch -/

theorem fetch_ok (s t : State) (w : InstrWord) (h : s.fetch = .ok w t) :
    ∃ pa, s.locate s.pc .fetch = .ok pa t ∧ t.pmpCheck pa 4 .fetch (s.effPriv .fetch) = true ∧
      pmaAllows t.cfg pa 4 .fetch = true ∧ pmaDevice t.cfg pa 4 = false ∧ t.written.contains (pa / 4) = false ∧
      w = t.physRead32 pa := by
  unfold State.fetch at h
  split at h
  · cases h
  · cases h
  · next pa t' hl =>
    split at h
    · cases h
    · next h1 =>
      split at h
      · cases h
      · next h2 =>
        split at h
        · cases h
        · next h3 =>
          injection h with h4 h5
          subst h5
          simp only [Bool.not_eq_true, Bool.not_eq_false', Bool.and_eq_true] at h1
          exact ⟨pa, hl, h1.1, h1.2, by simpa using h2, by simpa using h3, h4.symm⟩

theorem fetch_raised (s t : State) (tval : Word) (e : Exn) (h : s.fetch = .raised e tval t) :
    tval = s.pc ∧ TranslationEffect s t ∧
      (e = .instrAddrMisaligned ∨ e = .instrPageFault ∨ e = .instrAccessFault) := by
  unfold State.fetch at h
  split at h
  · cases h
  · next e' tv t' hl =>
    injection h with h1 h2 h3
    subst h1 h2 h3
    obtain ⟨ht, ⟨_, he, rfl⟩ | ⟨_, rfl, he⟩⟩ := locate_raised _ _ _ _ _ _ hl
    · exact ⟨ht, Or.inl rfl, Or.inl he⟩
    · exact ⟨ht, Or.inr (Or.inl rfl), Or.inr he⟩
  · next pa t' hl =>
    split at h
    · injection h with h1 h2 h3
      subst h1 h2 h3
      exact ⟨rfl, locate_effect _ _ _ _ _ hl, Or.inr (Or.inr rfl)⟩
    · split at h
      · cases h
      · split at h <;> cases h

/-! ## CSR instructions -/

/-- Everything the common body of the CSR instructions can do (43_csr_access.md R190). -/
theorem csrInstr_cases (s : State) (w : InstrWord) (n : CsrNum) (rd : RegIdx) (willWrite : Bool) (new : Word → Word) :
    (s.csrCheck n willWrite = .outside ∧ s.csrInstr w n rd willWrite new = .refused .csrOutsideSpec) ∨
      (s.csrCheck n willWrite = .illegal ∧ s.csrInstr w n rd willWrite new = .next (s.raiseIllegal w)) ∨
      ∃ c, s.csrCheck n willWrite = .granted c ∧
        s.csrInstr w n rd willWrite new =
          .next (((if willWrite then s.csrWrite c (new (s.csrReadForModify c)) else s).writeReg rd
            (s.csrRead c)).advance) := by
  unfold State.csrInstr
  cases h : s.csrCheck n willWrite with
  | outside => exact Or.inl ⟨rfl, rfl⟩
  | illegal => exact Or.inr (Or.inl ⟨rfl, rfl⟩)
  | granted c => exact Or.inr (Or.inr ⟨c, rfl, rfl⟩)

/-- What a granted access means (43_csr_access.md R190). -/
theorem csrCheck_granted (s : State) (n : CsrNum) (willWrite : Bool) (c : Csr) (h : s.csrCheck n willWrite = .granted c) :
    csrOutside s.cfg.xlen n.toNat = false ∧ csrOfNumber n.toNat = some c ∧ csrExists s.cfg c = true ∧
      csrLevel n ≤ modeCode s.priv ∧ (willWrite && csrReadOnly n) = false ∧
      (c = .satp → s.priv = .supervisor → s.flag bitTVM = false) := by
  unfold State.csrCheck at h
  split at h
  · cases h
  · next h1 =>
    split at h
    · cases h
    · next c' hc =>
      split at h
      · cases h
      · next h2 =>
        split at h
        · cases h
        · next h3 =>
          split at h
          · cases h
          · next h4 =>
            split at h
            · cases h
            · next h5 =>
              injection h with h6
              subst h6
              refine ⟨by simpa using h1, hc, by simpa using h2, by omega, by simpa using h4, ?_⟩
              intro e1 e2
              simpa [e1, e2] using h5

theorem exec_csrrw (s : State) (rd : RegIdx) (csr : CsrNum) (rs1 : RegIdx) :
    exec (.csrrw rd csr rs1) s =
      s.csrInstr (encode (.csrrw rd csr rs1)) csr rd true (fun _ => s.readReg rs1) := rfl

theorem exec_csrrs (s : State) (rd : RegIdx) (csr : CsrNum) (rs1 : RegIdx) :
    exec (.csrrs rd csr rs1) s =
      s.csrInstr (encode (.csrrs rd csr rs1)) csr rd (decide (rs1 ≠ 0#5)) (fun old => old ||| s.readReg rs1) := rfl

theorem exec_csrrc (s : State) (rd : RegIdx) (csr : CsrNum) (rs1 : RegIdx) :
    exec (.csrrc rd csr rs1) s =
      s.csrInstr (encode (.csrrc rd csr rs1)) csr rd (decide (rs1 ≠ 0#5)) (fun old => old &&& ~~~s.readReg rs1) := rfl

theorem exec_csrrwi (s : State) (rd : RegIdx) (csr : CsrNum) (uimm : BitVec 5) :
    exec (.csrrwi rd csr uimm) s =
      s.csrInstr (encode (.csrrwi rd csr uimm)) csr rd true (fun _ => immOperand uimm) := rfl

theorem exec_csrrsi (s : State) (rd : RegIdx) (csr : CsrNum) (uimm : BitVec 5) :
    exec (.csrrsi rd csr uimm) s =
      s.csrInstr (encode (.csrrsi rd csr uimm)) csr rd (decide (uimm ≠ 0#5)) (fun old => old ||| immOperand uimm) := rfl

theorem exec_csrrci (s : State) (rd : RegIdx) (csr : CsrNum) (uimm : BitVec 5) :
    exec (.csrrci rd csr uimm) s =
      s.csrInstr (encode (.csrrci rd csr uimm)) csr rd (decide (uimm ≠ 0#5)) (fun old => old &&& ~~~immOperand uimm) := rfl

/-! ## Interrupts and the step -/

theorem nextInterrupt_some (s : State) (i : Interrupt) (h : s.nextInterrupt = some i) :
    s.takeableM i = true ∨ s.takeableS i = true := by
  unfold State.nextInterrupt at h
  split at h
  · next j hj => injection h with h; subst h; exact Or.inl (List.find?_some hj)
  · exact Or.inr (List.find?_some h)

theorem mem_interruptOrder (i : Interrupt) : i ∈ interruptOrder := by cases i <;> decide

theorem nextInterrupt_none_iff (s : State) :
    s.nextInterrupt = none ↔ ∀ i, s.takeableM i = false ∧ s.takeableS i = false := by
  unfold State.nextInterrupt
  constructor
  · intro h i
    split at h
    · cases h
    · next hm =>
      rw [List.find?_eq_none] at hm h
      exact ⟨by simpa using hm i (mem_interruptOrder i), by simpa using h i (mem_interruptOrder i)⟩
  · intro h
    have hm : interruptOrder.find? s.takeableM = none := by
      rw [List.find?_eq_none]; intro i _; simp [(h i).1]
    have hs : interruptOrder.find? s.takeableS = none := by
      rw [List.find?_eq_none]; intro i _; simp [(h i).2]
    rw [hm]; exact hs

/-- Everything one step can do when it answers a next state (00_scope.md R8), `u` being the state with the lines
sampled. -/
theorem step_next (s t : State) (h : step s = .next t) :
    (∃ i, s.sampleLines.nextInterrupt = some i ∧ t = s.sampleLines.takeInterrupt i) ∨
      (s.sampleLines.nextInterrupt = none ∧ s.waiting = true ∧ s.sampleLines.wakeUp = false ∧ t = s.sampleLines) ∨
      (s.sampleLines.nextInterrupt = none ∧ (s.waiting = true → s.sampleLines.wakeUp = true) ∧
        ({ s.sampleLines with waiting := false } : State).runNext = .next t) := by
  unfold step State.hartStep at h
  split at h
  · next i hi => injection h with h; exact Or.inl ⟨i, hi, h.symm⟩
  · next hi =>
    unfold State.waitOrRun at h
    split at h
    · next hw =>
      injection h with h
      simp only [Bool.and_eq_true, Bool.not_eq_true'] at hw
      exact Or.inr (Or.inl ⟨hi, by simpa using hw.1, hw.2, h.symm⟩)
    · next hw =>
      refine Or.inr (Or.inr ⟨hi, ?_, h⟩)
      intro hwait
      simpa [hwait] using hw

/-- Everything steps 4 to 6 of R8 can do when they answer a next state. -/
theorem runNext_next (s t : State) (h : s.runNext = .next t) :
    (∃ e tval u, s.fetch = .raised e tval u ∧ t = u.raise e tval) ∨
      (∃ w u i, s.fetch = .ok w u ∧ decode w = .instr i ∧ exec i u = .next t) ∨
      (∃ w u why, s.fetch = .ok w u ∧ decode w = .illegal why ∧ t = u.raiseIllegal w) := by
  unfold State.runNext at h
  split at h
  · cases h
  · next e tval u hf => injection h with h; exact Or.inl ⟨e, tval, u, hf, h.symm⟩
  · next w u hf =>
    unfold State.runWord at h
    split at h
    · next i hi => exact Or.inr (Or.inl ⟨w, u, i, hf, hi, h⟩)
    · next why hy => injection h with h; exact Or.inr (Or.inr ⟨w, u, why, hf, hy, h.symm⟩)
    · cases h

end Sys2Proof.Machine
end

