-- ==== Sys2Proof/Laws/PerInstr.lean ====
section
/-! SUPPORT. Per-instruction families: one lemma a constructor of `Instr`. -/

namespace Sys2Proof.Laws

/-- Bits of the I-type format, by position. -/
theorem bit_encodeCsr (f : BitVec 3) (rd : RegIdx) (csr : CsrNum) (rs1 : BitVec 5) (i : Nat) :
    (encodeCsr f rd csr rs1).getLsbD i =
      if i < 7 then opcodeSystem.getLsbD i else if i < 12 then rd.getLsbD (i - 7)
      else if i < 15 then f.getLsbD (i - 12) else if i < 20 then rs1.getLsbD (i - 15) else csr.getLsbD (i - 20) := by
  simp only [encodeCsr, BitVec.getLsbD_append]
  split_ifs <;> first | rfl | omega

/-- Bits of the R-type format, by position. -/
theorem bit_encodeR (f7 : BitVec 7) (rs2 rs1 : RegIdx) (f : BitVec 3) (rd : RegIdx) (op : BitVec 7) (i : Nat) :
    (encodeR f7 rs2 rs1 f rd op).getLsbD i =
      if i < 7 then op.getLsbD i else if i < 12 then rd.getLsbD (i - 7)
      else if i < 15 then f.getLsbD (i - 12) else if i < 20 then rs1.getLsbD (i - 15)
      else if i < 25 then rs2.getLsbD (i - 20) else f7.getLsbD (i - 25) := by
  simp only [encodeR, BitVec.getLsbD_append]
  split_ifs <;> first | rfl | omega

theorem mask_encodeCsr (f : BitVec 3) (rd : RegIdx) (csr : CsrNum) (rs1 : BitVec 5) :
    encodeCsr f rd csr rs1 &&& 0x0000707F#32 = (0#17 ++ f ++ 0#5 ++ opcodeSystem) := by
  have hm : ∀ k : Fin 32, (0x0000707F#32).getLsbD k.val = (decide (k.val < 7) || (decide (12 ≤ k.val) && decide (k.val < 15))) := by
    decide
  apply BitVec.eq_of_getLsbD_eq
  intro i hi
  rw [BitVec.getLsbD_and, bit_encodeCsr, hm ⟨i, hi⟩]
  simp only [BitVec.getLsbD_append, BitVec.getLsbD_zero]
  by_cases h1 : i < 7
  · simp [h1]
  · by_cases h2 : i < 12
    · simp [h1, h2, show i - 7 < 5 by omega]
    · by_cases h3 : i < 15
      · simp [h1, h2, h3, show ¬ i - 7 < 5 by omega, show i - 7 - 5 = i - 12 by omega, show 12 ≤ i by omega,
          show i - 12 < 3 by omega]
      · simp [h1, h3, show ¬ i - 7 < 5 by omega, show ¬ i - 7 - 5 < 3 by omega]

/-! ## The word of an instruction matches the instruction's row of spec/opcode_table.json (30_encoding.md R142-R145) -/

def MatchesRow.Statement (i : Instr) : Prop := encode i &&& (opcodeRow i).1 = (opcodeRow i).2

theorem MatchesRow.ecall : MatchesRow.Statement .ecall := rfl

theorem MatchesRow.ebreak : MatchesRow.Statement .ebreak := rfl

theorem MatchesRow.sret : MatchesRow.Statement .sret := rfl

theorem MatchesRow.mret : MatchesRow.Statement .mret := rfl

theorem MatchesRow.wfi : MatchesRow.Statement .wfi := rfl

theorem MatchesRow.sfenceVma (rs1 rs2 : RegIdx) : MatchesRow.Statement (.sfenceVma rs1 rs2) := by
  have hm : ∀ k : Fin 32, (0xFE007FFF#32).getLsbD k.val = (decide (k.val < 15) || decide (25 ≤ k.val)) := by decide
  have hr : ∀ k : Fin 32, (0x12000073#32).getLsbD k.val =
      if k.val < 15 then (0x73#15).getLsbD k.val else if k.val < 25 then false else (0b0001001#7).getLsbD (k.val - 25) := by
    decide
  have hl : ∀ k : Fin 15, (if k.val < 7 then opcodeSystem.getLsbD k.val else false) = (0x73#15).getLsbD k.val := by decide
  apply BitVec.eq_of_getLsbD_eq
  intro i hi
  simp only [encode, opcodeRow]
  rw [BitVec.getLsbD_and, bit_encodeR, hm ⟨i, hi⟩, hr ⟨i, hi⟩]
  by_cases h1 : i < 15
  · rw [if_pos h1, ← hl ⟨i, h1⟩]
    by_cases h2 : i < 7
    · simp [h1, h2]
    · by_cases h3 : i < 12 <;> simp [h1, h2, h3]
  · by_cases h2 : i < 25
    · simp [h1, h2]
    · simp [h1, h2, show ¬ i < 7 by omega, show ¬ i < 12 by omega, show ¬ i < 20 by omega, show 25 ≤ i by omega]

theorem MatchesRow.csrrw (rd : RegIdx) (csr : CsrNum) (rs1 : RegIdx) : MatchesRow.Statement (.csrrw rd csr rs1) := mask_encodeCsr _ rd csr rs1

theorem MatchesRow.csrrs (rd : RegIdx) (csr : CsrNum) (rs1 : RegIdx) : MatchesRow.Statement (.csrrs rd csr rs1) := mask_encodeCsr _ rd csr rs1

theorem MatchesRow.csrrc (rd : RegIdx) (csr : CsrNum) (rs1 : RegIdx) : MatchesRow.Statement (.csrrc rd csr rs1) := mask_encodeCsr _ rd csr rs1

theorem MatchesRow.csrrwi (rd : RegIdx) (csr : CsrNum) (uimm : BitVec 5) : MatchesRow.Statement (.csrrwi rd csr uimm) := mask_encodeCsr _ rd csr uimm

theorem MatchesRow.csrrsi (rd : RegIdx) (csr : CsrNum) (uimm : BitVec 5) : MatchesRow.Statement (.csrrsi rd csr uimm) := mask_encodeCsr _ rd csr uimm

theorem MatchesRow.csrrci (rd : RegIdx) (csr : CsrNum) (uimm : BitVec 5) : MatchesRow.Statement (.csrrci rd csr uimm) := mask_encodeCsr _ rd csr uimm

theorem MatchesRow.amoaddW (aq : Bool) (rl : Bool) (rd : RegIdx) (rs1 : RegIdx) (rs2 : RegIdx) : MatchesRow.Statement (.amoaddW aq rl rd rs1 rs2) := by
  have hm : ∀ k : Fin 32, (0xF800707F#32).getLsbD k.val =
      (decide (k.val < 7) || (decide (12 ≤ k.val) && decide (k.val < 15)) || decide (27 ≤ k.val)) := by decide
  have hr : ∀ k : Fin 32, (0x0000202F#32).getLsbD k.val =
      if k.val < 7 then opcodeAmo.getLsbD k.val
      else if 12 ≤ k.val ∧ k.val < 15 then (0b010#3).getLsbD (k.val - 12) else false := by decide
  apply BitVec.eq_of_getLsbD_eq
  intro i hi
  simp only [encode, opcodeRow]
  rw [BitVec.getLsbD_and, bit_encodeR, hm ⟨i, hi⟩, hr ⟨i, hi⟩]
  by_cases h1 : i < 7
  · simp [h1]
  · by_cases h2 : i < 12
    · simp [h1, h2, show ¬ 12 ≤ i by omega, show ¬ 27 ≤ i by omega]
    · by_cases h3 : i < 15
      · simp [h1, h2, h3, show 12 ≤ i by omega]
      · by_cases h4 : i < 27
        · simp [h1, h3, show ¬ 27 ≤ i by omega]
        · have hz : (0b00000#5 ++ BitVec.ofBool aq ++ BitVec.ofBool rl).getLsbD (i - 25) = false := by
            simp only [BitVec.getLsbD_append]
            simp [show ¬ i - 25 < 1 by omega, show ¬ i - 25 - 1 < 1 by omega]
          simp only [h1, h2, h3, show ¬ i < 20 by omega, show ¬ i < 25 by omega, hz]
          simp

end Sys2Proof.Laws
end

