-- ==== Sys2Proof/Laws/Translate.lean ====
section
/-! SUPPORT. What a translation reads: the values a page-table read may use, the walk that is chosen, and what the
record of remembered values says of them (20_memory.md R103, R121). -/

namespace Sys2Proof.Machine

/-! ## The record -/

/-- A pick is the first value or one of the list. -/
theorem pick_mem {α : Type} (first : α) (l : List α) (n : Nat) : pick first l n = first ∨ pick first l n ∈ l := by
  induction l generalizing first n with
  | nil => cases n <;> exact Or.inl rfl
  | cons a l ih =>
    cases n with
    | zero => exact Or.inl rfl
    | succ n =>
      right
      rcases ih a n with h | h
      · rw [pick, h]; exact List.mem_cons_self
      · exact List.mem_cons_of_mem _ h

@[simp] theorem pick_zero {α : Type} (first : α) (l : List α) : pick first l 0 = first := by cases l <;> rfl

@[simp] theorem pick_nil {α : Type} (first : α) (n : Nat) : pick first [] n = first := by cases n <;> rfl

/-- Every earlier contents is older than the newest entry. -/
theorem heldBytes_age (a : Nat) (es : List HistEvent) (age : Nat) (bytes : List Byte) (b : List Byte × Nat)
    (h : b ∈ heldBytes a bytes age es) : age < b.2 := by
  induction es generalizing age bytes with
  | nil => cases h
  | cons e es ih =>
    have older : ∀ bytes', b ∈ heldBytes a bytes' (age + 1) es → age < b.2 := fun _ h' => by
      have := ih _ _ h'
      omega
    cases e with
    | wrote pa old =>
      rw [heldBytes] at h
      split at h
      · rcases List.mem_cons.1 h with rfl | h
        · exact Nat.lt_succ_self age
        · exact older _ h
      · exact older _ h
    | satpWas v => exact older _ h
    | fence v n => exact older _ h

/-- Every earlier value of `satp` is older than the newest entry. -/
theorem heldSatp_age (x : XLen) (es : List HistEvent) (age : Nat) (b : Word × Nat) (h : b ∈ heldSatp x age es) :
    age < b.2 := by
  induction es generalizing age with
  | nil => cases h
  | cons e es ih =>
    have older : b ∈ heldSatp x (age + 1) es → age < b.2 := fun h' => by
      have := ih _ h'
      omega
    cases e with
    | satpWas v =>
      rw [heldSatp] at h
      split at h
      · exact older h
      · rcases List.mem_cons.1 h with rfl | h
        · exact Nat.lt_succ_self age
        · exact older h
    | wrote pa old => exact older h
    | fence v n => exact older h

@[simp] theorem pteBefore_zero (s : State) (m : SatpMode) (addr : Nat) : s.pteBefore m addr 0 = s.pteAt m addr := by
  unfold State.pteBefore State.pteAt
  rw [bytesBefore]

@[simp] theorem pteBefore_nil (s : State) (m : SatpMode) (addr n : Nat) (h : s.hist = []) :
    s.pteBefore m addr n = s.pteAt m addr := by
  unfold State.pteBefore State.pteAt
  rw [h]
  cases n <;> rw [bytesBefore]

/-! ## One read, one walk -/

/-- What a PTE read uses: the current value, of age 0, or a remembered one, which is older (20_memory.md R121). -/
theorem pteUsed_cases (s : State) (m : SatpMode) (acc : Access) (p : Mode) (addr level choice : Nat) :
    s.pteUsed m acc p addr level choice = (s.pteAt m addr, 0) ∨
      (s.pteUsed m acc p addr level choice ∈ s.pteHeld m addr ∧ 0 < (s.pteUsed m acc p addr level choice).2 ∧
        choice ≠ 0) := by
  unfold State.pteUsed
  dsimp only
  split
  · exact Or.inl rfl
  · by_cases hc : choice = 0
    · left
      rw [hc, pick_zero]
    · rcases pick_mem (s.pteAt m addr, 0) (s.pteHeld m addr) choice with h | h
      · exact Or.inl h
      · right
        refine ⟨h, ?_, hc⟩
        obtain ⟨b, hb, he⟩ := List.mem_map.1 h
        have := heldBytes_age _ _ _ _ _ hb
        rw [← he]
        exact this

/-- Every PTE read of a walk uses the value its location holds, or a remembered one with its age, and that only where the
choice for its level is not 0 (20_memory.md R103, R121). -/
theorem walkFrom_use (s : State) (m : SatpMode) (va : Word) (acc : Access) (p : Mode) (choice : Nat → Nat) (u : PteUse)
    (n a : Nat) (h : u ∈ (s.walkFrom m va acc p choice n a).uses) :
    (u.value = s.pteAt m u.addr ∧ u.age = 0) ∨
      ((u.value, u.age) ∈ s.pteHeld m u.addr ∧ 0 < u.age ∧ choice u.level ≠ 0) := by
  induction n generalizing a with
  | zero => cases h
  | succ n ih =>
    have one : ∀ u : PteUse, u.level = n → (u.value, u.age) = s.pteUsed m acc p u.addr n (choice n) →
        (u.value = s.pteAt m u.addr ∧ u.age = 0) ∨
          ((u.value, u.age) ∈ s.pteHeld m u.addr ∧ 0 < u.age ∧ choice u.level ≠ 0) := by
      intro u hl hu
      rw [hl]
      rcases pteUsed_cases s m acc p u.addr n (choice n) with h | h
      · rw [← hu] at h
        exact Or.inl (Prod.mk.inj h)
      · rw [← hu] at h
        exact Or.inr h
    rw [State.walkFrom] at h
    dsimp only at h
    split at h
    · cases h
    · split at h
      · cases h
      · split at h
        · rw [List.mem_singleton] at h
          subst h
          exact one _ rfl rfl
        · split at h
          · rw [List.mem_singleton] at h
            subst h
            exact one _ rfl rfl
          · rcases List.mem_cons.1 h with h | h
            · subst h
              exact one _ rfl rfl
            · exact ih _ h

/-- The same of a walk under a value of `satp`. -/
theorem walk_use (s : State) (satp va : Word) (acc : Access) (p : Mode) (choice : Nat → Nat) (u : PteUse)
    (h : u ∈ (s.walk satp va acc p choice).uses) :
    (u.value = s.pteAt (s.satpMode satp) u.addr ∧ u.age = 0) ∨
      ((u.value, u.age) ∈ s.pteHeld (s.satpMode satp) u.addr ∧ 0 < u.age ∧ choice u.level ≠ 0) := by
  unfold State.walk at h
  dsimp only at h
  split at h
  · exact walkFrom_use s _ va acc p choice u _ _ h
  · cases h

/-- The walk of a translation: one that R121 allows, with a value of `satp` and its age, or the one that uses current
values throughout. -/
theorem chosenWalk_cases (s : State) (va : Word) (acc : Access) (p : Mode) :
    (∃ satp age choice, s.chosenWalk va acc p = (satp, s.walk satp va acc p choice) ∧
      ((satp, age) = (s.satp, 0) ∨ ((satp, age) ∈ heldSatp s.cfg.xlen 0 s.hist ∧ 0 < age)) ∧
      s.walkAllowed satp age va (s.walk satp va acc p choice) = true) ∨
    s.chosenWalk va acc p = (s.satp, s.walk s.satp va acc p fun _ => 0) := by
  unfold State.chosenWalk
  dsimp only
  split
  · next h =>
    refine Or.inl ⟨_, _, _, rfl, ?_, h⟩
    rcases pick_mem (s.satp, 0) (heldSatp s.cfg.xlen 0 s.hist) (Config.staleSatp s.draws) with hp | hp
    · exact Or.inl hp
    · exact Or.inr ⟨hp, heldSatp_age _ _ _ _ hp⟩
  · exact Or.inr rfl

/-- With nothing remembered a translation uses the current `satp` and current entries (20_memory.md R121). -/
theorem chosenWalk_of_hist_nil (s : State) (va : Word) (acc : Access) (p : Mode) (h : s.hist = []) :
    (s.chosenWalk va acc p).1 = s.satp ∧
      ∀ u ∈ (s.chosenWalk va acc p).2.uses, u.value = s.pteAt (s.satpMode s.satp) u.addr := by
  have held : ∀ m addr, s.pteHeld m addr = [] := by
    intro m addr
    unfold State.pteHeld
    rw [h]
    rfl
  have key : ∀ satp choice, satp = s.satp → s.chosenWalk va acc p = (satp, s.walk satp va acc p choice) →
      (s.chosenWalk va acc p).1 = s.satp ∧
        ∀ u ∈ (s.chosenWalk va acc p).2.uses, u.value = s.pteAt (s.satpMode s.satp) u.addr := by
    intro satp choice hs hc
    subst hs
    rw [hc]
    refine ⟨rfl, fun u hu => ?_⟩
    rcases walk_use s s.satp va acc p choice u hu with hv | hv
    · exact hv.1
    · rw [held] at hv
      cases hv.1
  rcases chosenWalk_cases s va acc p with ⟨satp, age, choice, hc, hs, _⟩ | hc
  · refine key satp choice ?_ hc
    rcases hs with hs | ⟨hs, _⟩
    · exact (Prod.mk.inj hs).1
    · rw [h] at hs
      cases hs
  · exact key _ _ rfl hc

/-- The check before the walk, bit by bit (20_memory.md R112, R113). -/
theorem canonical_iff (m : SatpMode) (va : Word) : canonical m va = true ↔ translatable m va := by
  have key : ∀ n, n < 64 → (va = (va.extractLsb' 0 (n + 1)).signExtend 64 ↔
      ∀ i, n + 1 ≤ i → i < 64 → va.getLsbD i = va.getLsbD n) := by
    intro n hn
    have bit : ∀ i, i < 64 → ((va.extractLsb' 0 (n + 1)).signExtend 64).getLsbD i =
        if i < n + 1 then va.getLsbD i else va.getLsbD n := by
      intro i hi
      rw [BitVec.getLsbD_signExtend, BitVec.msb_eq_getLsbD_last]
      simp only [BitVec.getLsbD_extractLsb', Nat.zero_add, Nat.add_sub_cancel, hi, decide_true, Bool.true_and]
      split <;> simp_all
    constructor
    · intro h i h1 h2
      rw [h, bit i h2, bit n hn, if_neg (by omega), if_pos (by omega)]
    · intro h
      apply BitVec.eq_of_getLsbD_eq
      intro i hi
      rw [bit i hi]
      split
      · rfl
      · exact h i (by omega) hi
  cases m <;> simp [canonical, translatable, key 38 (by omega), key 47 (by omega)]

/-! ## Fences -/

@[simp] theorem mem_usedAt (uses : List PteUse) (level addr : Nat) (u : PteUse) :
    u ∈ usedAt uses level addr ↔ u ∈ uses ∧ u.level = level ∧ u.addr = addr := by
  simp [usedAt]

@[simp] theorem mem_usedAtFence (s : State) (m : SatpMode) (uses : List PteUse) (level addr n : Nat) (v : Word) :
    v ∈ s.usedAtFence m uses level addr n ↔
      ∃ u ∈ usedAt uses level addr, (n < u.age ∨ u.value = s.pteBefore m addr n) ∧ u.value = v := by
  simp [State.usedAtFence, and_assoc]

/-- What a PTE held at the fence, as the walk has it: a value from that time that the walk returns; what was in memory
then, where it returns none (41_sfence_wfi.md R170). -/
theorem mem_pteOfWalk (s : State) (m : SatpMode) (uses : List PteUse) (level addr n : Nat) (v : Word) :
    v ∈ s.pteOfWalk m uses level addr n ↔
      v ∈ s.usedAtFence m uses level addr n ∨
        (s.usedAtFence m uses level addr n = [] ∧ v = s.pteBefore m addr n) := by
  unfold State.pteOfWalk
  cases s.usedAtFence m uses level addr n <;> simp

/-- What a PTE may have held in a mapping at the fence that agrees with the walk: a value from that time that the walk
returns; where it returns none, what was in memory then or a remembered value (41_sfence_wfi.md R170). -/
theorem mem_pteAtFence (s : State) (m : SatpMode) (va : Word) (uses : List PteUse) (level addr n : Nat) (v : Word) :
    v ∈ s.pteAtFence m va uses level addr n ↔
      v ∈ s.usedAtFence m uses level addr n ∨
        (s.usedAtFence m uses level addr n = [] ∧
          (v = s.pteBefore m addr n ∨
            ∃ age, (v, age) ∈ s.pteHeld m addr ∧ s.rememberedAtFence m va level addr n v age = true)) := by
  unfold State.pteAtFence
  cases s.usedAtFence m uses level addr n <;> simp

/-- What `mappingHas` decides. -/
theorem mappingHas_iff (m : SatpMode) (va : Word) (entries : Nat → Nat → List Word) (accepts : Word → Bool) (i a : Nat) :
    mappingHas m va entries accepts i a = true ↔
      mapsTo m va (fun level addr v => v ∈ entries level addr) (fun v => accepts v = true) i a := by
  induction i generalizing a with
  | zero => simp [mappingHas, mapsTo]
  | succ i ih => simp [mappingHas, mapsTo, ih, and_assoc]

/-- With more entries and more leaves accepted there are more mappings. -/
theorem mapsTo_mono {m : SatpMode} {va : Word} {entry entry' : Nat → Nat → Word → Prop} {accepts accepts' : Word → Prop}
    (he : ∀ level addr v, entry level addr v → entry' level addr v) (ha : ∀ v, accepts v → accepts' v) (i a : Nat)
    (h : mapsTo m va entry accepts i a) : mapsTo m va entry' accepts' i a := by
  induction i generalizing a with
  | zero => exact h
  | succ i ih =>
    obtain ⟨v, hv, h⟩ := h
    exact ⟨v, he _ _ _ hv, h.imp (And.imp_right (ha v)) (And.imp_right (And.imp_right (ih _)))⟩

/-- A newest fence that covers a read leaves no older value to it (20_memory.md R121). -/
theorem age_of_not_covered (covers : Nat → Option Word → Option Nat → Bool) (age : Nat) (va : Option Word)
    (asid : Option Nat) (es : List HistEvent) (h : coveredWithin covers 0 age (.fence va asid :: es) = false)
    (hc : covers 0 va asid = true) : age = 0 := by
  cases age with
  | zero => rfl
  | succ k => rw [coveredWithin, hc] at h; cases h

end Sys2Proof.Machine
end

