-- ==== Sys2Proof/Tests/Slice0.lean ====
section
/-! SUPPORT. Tests: the checks of WellFormed refuse, written-out words decode, single steps give what the vectors of
spec/95_test_vectors.md say, and the hypotheses of every statement can be met. -/

namespace Sys2Proof.Tests

open Sys2Proof.Machine

-- one theorem at a time: each thread of a parallel elaboration takes a stack of its own
set_option Elab.async false

/-! ## Helpers -/

/-- A small platform: RAM at 0x80000000, ROM at 0x1000, a device at 0x10000000; no PMP entries; step 7 faults. -/
def platform (x : XLen) : Config where
  xlen := x
  hasS := true
  hasU := true
  pasize := match x with | .rv32 => 34 | .rv64 => 56
  pmpCount := 0
  asidLen := 9
  satpModes := match x with | .rv32 => [.bare, .sv32] | .rv64 => [.bare, .sv39]
  adPolicy := .fault
  wfiPolicy := .nop
  regions :=
    [{ base := 0x80000000, size := 0x1000000, kind := .ram, fetch := true, load := true, store := true, atomic := true },
     { base := 0x1000, size := 0x1000, kind := .rom, fetch := true, load := true, store := false, atomic := false },
     { base := 0x10000000, size := 0x1000, kind := .device, fetch := true, load := true, store := true, atomic := true }]
  resetVector := 0x80000000
  tvalIllegalBits := true
  romContents := []

/-- A hart on that platform, in mode `p`, about to execute at 0x80000040. -/
def hart (x : XLen) (p : Mode) : State :=
  { State.resetOf (platform x) with priv := p, pc := 0x80000040, mtvec := 0x80000100, stvec := 0x80400100 }

/-- Words stored in memory, four bytes each. -/
def withWords (m : Memory) : List (Nat × Nat) → Memory
  | [] => m
  | (a, w) :: l => withWords (m.writeBytes a (leBytes 4 w)) l

/-- The outcome is a next state that passes the check. -/
def nextAnd (o : Host.Outcome State Fault Refusal) (f : State → Bool) : Bool :=
  match o with
  | .next t => f t
  | .fault _ => false
  | .refused _ => false

theorem exists_next {o : Host.Outcome State Fault Refusal} {f : State → Bool} (h : nextAnd o f = true) :
    ∃ t, o = .next t ∧ f t = true := by
  cases o with
  | next t => exact ⟨t, rfl, h⟩
  | fault r => cases h
  | refused r => cases h

/-- The state of a next outcome. -/
def after (o : Host.Outcome State Fault Refusal) : State :=
  match o with
  | .next t => t
  | .fault _ => State.reset
  | .refused _ => State.reset

theorem next_after {o : Host.Outcome State Fault Refusal} (h : nextAnd o (fun _ => true) = true) :
    o = .next (after o) := by
  cases o with
  | next t => rfl
  | fault r => cases h
  | refused r => cases h

/-- The refusal of a refused outcome. -/
def refusal (o : Host.Outcome State Fault Refusal) : Option Refusal :=
  match o with
  | .next _ => none
  | .fault _ => none
  | .refused r => some r

/-- The answer of an operation is a value and a state that pass the check. -/
def okAnd {α : Type} (r : Res α) (f : α → State → Bool) : Bool :=
  match r with
  | .ok a t => f a t
  | .raised _ _ _ => false
  | .refused _ => false

theorem exists_ok {α : Type} {r : Res α} {f : α → State → Bool} (h : okAnd r f = true) :
    ∃ a t, r = .ok a t ∧ f a t = true := by
  cases r with
  | ok a t => exact ⟨a, t, rfl, h⟩
  | raised e v t => cases h
  | refused r => cases h

/-- The answer of an operation is this exception. -/
def raises {α : Type} (r : Res α) (e : Exn) : Bool :=
  match r with
  | .ok _ _ => false
  | .raised e' _ _ => decide (e' = e)
  | .refused _ => false

theorem exists_raised {α : Type} {r : Res α} {e : Exn} (h : raises r e = true) : ∃ v t, r = .raised e v t := by
  cases r with
  | ok a t => cases h
  | raised e' v t => simp only [raises, decide_eq_true_eq] at h; subst h; exact ⟨v, t, rfl⟩
  | refused r => cases h

/-- The answer of an operation is this refusal. -/
def refuses {α : Type} (r : Res α) (why : Refusal) : Bool :=
  match r with
  | .ok _ _ => false
  | .raised _ _ _ => false
  | .refused why' => decide (why' = why)

theorem exists_refused {α : Type} {r : Res α} {why : Refusal} (h : refuses r why = true) : r = .refused why := by
  cases r with
  | ok a t => cases h
  | raised e v t => cases h
  | refused w => simp only [refuses, decide_eq_true_eq] at h; subst h; rfl

/-! ## Every check of WellFormed refuses something -/

theorem test_wf_default : Config.default.wf = true ∧ (platform .rv32).wf = true ∧ (platform .rv64).wf = true := by
  decide +kernel
/-- R2: S-mode without U-mode. -/
theorem test_wf_modes : ({ platform .rv32 with hasU := false } : Config).modesOk = false := by decide
/-- R4: 35 physical address bits on RV32. -/
theorem test_wf_pasize : ({ platform .rv32 with pasize := 35 } : Config).pasizeOk = false := by decide
/-- R4: 17 PMP entries. -/
theorem test_wf_pmpCount : ({ platform .rv32 with pmpCount := 17 } : Config).pmpCountOk = false := by decide
/-- R4: 10 ASID bits on RV32. -/
theorem test_wf_asidLen : ({ platform .rv32 with asidLen := 10 } : Config).asidLenOk = false := by decide
/-- R4: Sv39 on RV32, and no mode at all. -/
theorem test_wf_satpModes : ({ platform .rv32 with satpModes := [.bare, .sv39] } : Config).satpModesOk = false ∧
    ({ platform .rv32 with satpModes := [] } : Config).satpModesOk = false := by decide
/-- R4: a reset vector off a word boundary, and one past 2^32 on RV32. -/
theorem test_wf_resetVector : ({ platform .rv32 with resetVector := 0x80000002 } : Config).resetVectorOk = false ∧
    ({ platform .rv32 with resetVector := 0x100000000 } : Config).resetVectorOk = false := by decide
/-- R81: a region past the last physical address. -/
theorem test_wf_regions : ({ platform .rv32 with pasize := 31 } : Config).regionsOk = false := by decide
/-- R61: contents given for RAM, and contents out of order. -/
theorem test_wf_rom : ({ platform .rv32 with romContents := [(0x80000000, 1)] } : Config).romOk = false ∧
    ({ platform .rv32 with romContents := [(0x1004, 1), (0x1000, 1)] } : Config).romOk = false := by decide

/-! ## Words written out from the encodings of 30_encoding.md decode to their instructions -/

theorem test_decode_ecall : decode 0b000000000000_00000_000_00000_1110011#32 = .instr .ecall := by decide
theorem test_decode_ebreak : decode 0b000000000001_00000_000_00000_1110011#32 = .instr .ebreak := by decide
theorem test_decode_sret : decode 0b000100000010_00000_000_00000_1110011#32 = .instr .sret := by decide
theorem test_decode_mret : decode 0b001100000010_00000_000_00000_1110011#32 = .instr .mret := by decide
theorem test_decode_wfi : decode 0b000100000101_00000_000_00000_1110011#32 = .instr .wfi := by decide
theorem test_decode_sfenceVma :
    decode 0b0001001_11011_10001_000_00000_1110011#32 = .instr (.sfenceVma 17 27) := by decide
theorem test_decode_csrrw :
    decode 0b001101000001_10110_001_01001_1110011#32 = .instr (.csrrw 9 0x341 22) := by decide
theorem test_decode_csrrs :
    decode 0b001101000001_10110_010_01001_1110011#32 = .instr (.csrrs 9 0x341 22) := by decide
theorem test_decode_csrrc :
    decode 0b001101000001_10110_011_01001_1110011#32 = .instr (.csrrc 9 0x341 22) := by decide
theorem test_decode_csrrwi :
    decode 0b001101000001_10110_101_01001_1110011#32 = .instr (.csrrwi 9 0x341 22) := by decide
theorem test_decode_csrrsi :
    decode 0b001101000001_10110_110_01001_1110011#32 = .instr (.csrrsi 9 0x341 22) := by decide
theorem test_decode_csrrci :
    decode 0b001101000001_10110_111_01001_1110011#32 = .instr (.csrrci 9 0x341 22) := by decide
theorem test_decode_amoaddW :
    decode 0b00000_1_0_11011_10001_010_01001_0101111#32 = .instr (.amoaddW true false 9 17 27) := by decide
/-- Vectors DX1, DX2, DX4 to DX8. -/
theorem test_decode_others :
    decode 0x00000000#32 = .illegal .allZeros ∧ decode 0xFFFFFFFF#32 = .illegal .allOnes ∧
    decode 0x00200073#32 = .illegal .reservedSystem ∧ decode 0x30200F73#32 = .illegal .reservedSystem ∧
    decode 0x00004073#32 = .illegal .reservedSystem ∧ decode 0x00000013#32 = .outside ∧
    decode 0x00000001#32 = .illegal .sixteenBit := by decide

/-! ## The host's entry points -/

/-- From reset, the word of `ecall`, of `csrrw a0,mscratch,a0`, of `amoadd.w a0,a1,(a2)` placed for the next fetch is
the one the next step runs: an M-mode trap, the pc moved on, a word at address 0 read. -/
theorem test_withFetchWord :
    nextAnd (step (State.reset.withFetchWord 32 0x00000073)) (fun t => decide (t.mcause = 11 ∧ t.mepc = 0x80000000)) = true ∧
    nextAnd (step (State.reset.withFetchWord 32 0x34051573)) (fun t => decide (t.pc = 0x80000004)) = true ∧
    nextAnd (step (State.reset.withFetchWord 32 0x00B6252F)) (fun t => decide (t.pc = 0x80000004 ∧ t.written = [0])) =
      true := by decide +kernel

/-! ## Single steps (vectors of 95_test_vectors.md) -/

/-- EC1. -/
theorem test_ecall :
    nextAnd (exec .ecall { hart .rv32 .user with pc := 0x00010054, mstatus := 0x8 })
      (fun t => decide (t.mepc = 0x00010054 ∧ t.mcause = 8 ∧ t.mtval = 0 ∧ t.mstatus = 0x80 ∧ t.priv = .machine ∧
        t.pc = 0x80000100)) = true := by decide
/-- EC4. -/
theorem test_ecall_delegated :
    nextAnd (exec .ecall { hart .rv32 .supervisor with pc := 0x80400010, mstatus := 0x2, medeleg := 0x200 })
      (fun t => decide (t.sepc = 0x80400010 ∧ t.scause = 9 ∧ t.mstatus = 0x120 ∧ t.priv = .supervisor ∧
        t.pc = 0x80400100)) = true := by decide
/-- EC7. -/
theorem test_ebreak :
    nextAnd (exec .ebreak { hart .rv64 .supervisor with pc := 0xFFFFFFC000001000, medeleg := 8, mstatus := 2,
                                                         stvec := 0xFFFFFFC000000100 })
      (fun t => decide (t.sepc = 0xFFFFFFC000001000 ∧ t.scause = 3 ∧ t.stval = 0 ∧ t.mstatus = 0x120 ∧
        t.pc = 0xFFFFFFC000000100)) = true := by decide
/-- MR1. -/
theorem test_mret :
    nextAnd (exec .mret { hart .rv32 .machine with mepc := 0x00010054, mstatus := 0x80 })
      (fun t => decide (t.priv = .user ∧ t.pc = 0x00010054 ∧ t.mstatus = 0x88)) = true := by decide
/-- MR4. -/
theorem test_mret_illegal :
    nextAnd (exec .mret (hart .rv32 .supervisor))
      (fun t => decide (t.mcause = 2 ∧ t.mtval = 0x30200073 ∧ t.mepc = 0x80000040)) = true := by decide
/-- SR3. -/
theorem test_sret :
    nextAnd (exec .sret { hart .rv32 .machine with sepc := 0x00010000, mstatus := 0x1822 })
      (fun t => decide (t.priv = .user ∧ t.pc = 0x00010000 ∧ t.mstatus = 0x1822)) = true := by decide
/-- SR4. -/
theorem test_sret_tsr :
    nextAnd (exec .sret { hart .rv32 .supervisor with mstatus := 0x400020 })
      (fun t => decide (t.mcause = 2 ∧ t.mtval = 0x10200073)) = true := by decide
/-- SF1: nothing is remembered any more. -/
theorem test_sfenceVma :
    nextAnd (exec (.sfenceVma 0 0) { hart .rv32 .supervisor with hist := [.satpWas 5] })
      (fun t => decide (t.hist = [] ∧ t.pc = 0x80000044)) = true := by decide
/-- SF4. -/
theorem test_sfenceVma_tvm :
    nextAnd (exec (.sfenceVma 0 0) { hart .rv32 .supervisor with mstatus := 0x100000 })
      (fun t => decide (t.mcause = 2 ∧ t.mtval = 0x12000073)) = true := by decide
/-- WF1 under the policy Wait, and WF4. -/
theorem test_wfi :
    nextAnd (exec .wfi { hart .rv32 .machine with cfg := { platform .rv32 with wfiPolicy := .wait }, mie := 0x80 })
      (fun t => decide (t.pc = 0x80000044 ∧ t.waiting = true)) = true ∧
    nextAnd (exec .wfi { hart .rv32 .machine with cfg := { platform .rv32 with wfiPolicy := .wait }, mie := 0x80,
                                                  lines := { Lines.low with mtip := true } })
      (fun t => decide (t.pc = 0x80000044 ∧ t.waiting = false)) = true := by decide
/-- CS1: the swap. -/
theorem test_csrrw :
    nextAnd (exec (.csrrw 10 0x340 10) ({ hart .rv32 .machine with mscratch := 0x80001000 }.writeReg 10 0x11111111))
      (fun t => decide (t.readReg 10 = 0x80001000 ∧ t.mscratch = 0x11111111 ∧ t.pc = 0x80000044)) = true := by decide
/-- CS7. -/
theorem test_csr_privilege :
    nextAnd (exec (.csrrs 10 0x300 0) (hart .rv32 .supervisor))
      (fun t => decide (t.mcause = 2 ∧ t.mtval = 0x30002573 ∧ t.readReg 10 = 0)) = true := by decide
/-- CS15. -/
theorem test_csrrs :
    nextAnd (exec (.csrrs 6 0x344 5) ({ hart .rv32 .machine with lines := { Lines.low with seip := true } }.writeReg 5 2))
      (fun t => decide (t.readReg 6 = 0x200 ∧ t.mipSw = 2)) = true := by decide
/-- CS9, second half. -/
theorem test_csrrc :
    nextAnd (exec (.csrrc 0 0x300 6) ({ hart .rv32 .machine with mstatus := 0x1808 }.writeReg 6 8))
      (fun t => decide (t.mstatus = 0x1800)) = true := by decide
/-- CS18. -/
theorem test_csrrwi :
    nextAnd (exec (.csrrwi 10 0x340 31) (hart .rv32 .machine))
      (fun t => decide (t.readReg 10 = 0 ∧ t.mscratch = 0x1F)) = true := by decide
/-- CS19, first half. -/
theorem test_csrrsi :
    nextAnd (exec (.csrrsi 0 0x300 8) { hart .rv32 .machine with mstatus := 0x80 })
      (fun t => decide (t.mstatus = 0x88)) = true := by decide
/-- CS21. -/
theorem test_csrrci :
    nextAnd (exec (.csrrci 10 0x100 2) { hart .rv32 .supervisor with mstatus := 0x122 })
      (fun t => decide (t.readReg 10 = 0x122 ∧ t.mstatus = 0x120)) = true := by decide
/-- CS3. -/
theorem test_mstatus_mask :
    (mstatusWritten (platform .rv32) 0 0xFFFFFFFF = 0x007E19AA) ∧
    (mstatusWritten { platform .rv32 with hasS := false } 0 0xFFFFFFFF = 0x00021888) ∧
    (mstatusWritten { platform .rv32 with hasS := false, hasU := false } 0x1800 0xFFFFFFFF = 0x00001888) := by decide

/-- AM5: RV64, the old word sign-extended, the next word untouched. -/
theorem test_amoadd :
    nextAnd (exec (.amoaddW false false 10 12 11)
        (({ hart .rv64 .machine with mem := withWords [] [(0x80002000, 0x80000000), (0x80002004, 7)] }.writeReg 12
          0x80002000).writeReg 11 0xFFFFFFFF00000001))
      (fun t => decide (t.readReg 10 = 0xFFFFFFFF80000000 ∧ t.physRead32 0x80002000 = 0x80000001 ∧
        t.physRead32 0x80002004 = 7 ∧ t.written = [0x20000800])) = true := by decide +kernel
/-- AM1 and AM9. -/
theorem test_amoadd_faults :
    nextAnd (exec (.amoaddW false false 10 12 11) ((hart .rv32 .machine).writeReg 12 0x12))
      (fun t => decide (t.mcause = 6 ∧ t.mtval = 0x12)) = true ∧
    nextAnd (exec (.amoaddW false false 10 12 11) ((hart .rv32 .machine).writeReg 12 0x1000))
      (fun t => decide (t.mcause = 7 ∧ t.mtval = 0x1000)) = true := by decide +kernel
/-- IN5: a machine timer interrupt taken from S-mode with MIE = 0. -/
theorem test_interrupt :
    nextAnd (step { hart .rv32 .supervisor with pc := 0x80400010, mstatus := 0x22, mie := 0x80, mideleg := 0x222,
                                                inputs := [{ Lines.low with mtip := true }] })
      (fun t => decide (t.mepc = 0x80400010 ∧ t.mcause = 0x80000007 ∧ t.mtval = 0 ∧ t.mstatus = 0x822 ∧
        t.priv = .machine ∧ t.pc = 0x80000100)) = true := by decide +kernel

/-- The Sv32 page tables of 95_test_vectors.md 2.8. -/
def sv32Words : List (Nat × Nat) :=
  [(0x80010004, 0x20004401), (0x80010008, 0x201000CF), (0x8001000C, 0x201004CF), (0x80010014, 0x20004801),
   (0x80011004, 0x200080DF), (0x80011008, 0x20008413), (0x80011010, 0x20008CC5), (0x80011014, 0x20009047),
   (0x80012000, 0x20004C01)]

/-- A hart that translates through them. -/
def sv32 (p : Mode) : State := { hart .rv32 p with satp := 0x80080010, mem := withWords [] sv32Words }

/-- The same with the policy HardwareUpdate. -/
def sv32Update (p : Mode) : State := { sv32 p with cfg := { platform .rv32 with adPolicy := .hardwareUpdate } }

/-- A hart that translates by Sv39, with no page table in memory. -/
def sv39 (p : Mode) : State := { hart .rv64 p with satp := 0x8000000000080010 }

/-- TR1, TR3, TR6, TR11b, TR13, TR15 and TR25. -/
theorem test_translate :
    okAnd ((sv32 .user).translate 0x00401ABC .load .user) (fun pa _ => decide (pa = 0x80020ABC)) = true ∧
    raises ((sv32 .user).translate 0x00401ABC .load .supervisor) .loadPageFault = true ∧
    okAnd ((sv32Update .user).translate 0x00402010 .load .user)
      (fun pa t => decide (pa = 0x80021010 ∧ t.physRead32 0x80011008 = 0x20008453)) = true ∧
    raises ((sv32 .user).translate 0x00405008 .store .supervisor) .storePageFault = true ∧
    raises ((sv32 .user).translate 0x00C00000 .load .supervisor) .loadPageFault = true ∧
    raises ((sv32 .user).translate 0x01400000 .load .supervisor) .loadPageFault = true ∧
    raises ((sv39 .user).translate 0x0000008000000000 .load .supervisor) .loadPageFault = true := by decide +kernel

/-- The PMP registers of 95_test_vectors.md 2.9. -/
def protectedHart : State :=
  { hart .rv32 .machine with
    cfg := { platform .rv32 with pmpCount := 4 }
    pmpcfg := #v[0x0D, 0x13, 0x99, 0, 0, 0, 0, 0, 0, 0, 0, 0, 0, 0, 0, 0]
    pmpaddr := #v[0x20000400, 0x20000800, 0x200011FF, 0, 0, 0, 0, 0, 0, 0, 0, 0, 0, 0, 0, 0] }

/-- PM1 to PM3, PM5, PM6, PM10, PM11, PM13 and PM14. -/
theorem test_pmp :
    protectedHart.pmpCheck 0x80000000 4 .fetch .user = true ∧ protectedHart.pmpCheck 0x80000000 4 .store .user = false ∧
    protectedHart.pmpCheck 0x80000000 4 .store .machine = true ∧ protectedHart.pmpCheck 0x80001000 4 .load .user = false ∧
    protectedHart.pmpCheck 0x80001000 4 .load .machine = true ∧
    protectedHart.pmpCheck 0x80004010 4 .store .machine = false ∧
    protectedHart.pmpCheck 0x80004010 4 .load .machine = true ∧
    protectedHart.pmpCheck 0x80004FFC 4 .load .supervisor = true ∧
    protectedHart.pmpCheck 0x80005000 4 .load .supervisor = false ∧
    protectedHart.pmpCheck 0x80002000 8 .load .supervisor = false := by decide +kernel

/-! ## Witnesses: the hypotheses of each statement are met -/

theorem witness_EncodeDecodeRoundTrip : decode 0x06B6252F#32 = .instr (.amoaddW true true 10 12 11) := by decide +kernel

theorem witness_DecodeFollowsTable :
    (0x06B6252F#32 &&& (opcodeRow (.amoaddW true true 10 12 11)).1 = (opcodeRow (.amoaddW true true 10 12 11)).2) ∧
    (0x06B6252F#32 &&& (opcodeRow (.amoaddW false false 0 0 0)).1 = (opcodeRow (.amoaddW false false 0 0 0)).2) := by
  decide +kernel

/-- The rows of the opcode table. -/
def tableRows : List (InstrWord × InstrWord) :=
  [opcodeRow .ecall, opcodeRow .ebreak, opcodeRow .sret, opcodeRow .mret, opcodeRow .wfi, opcodeRow (.sfenceVma 0 0),
   opcodeRow (.csrrw 0 0 0), opcodeRow (.csrrs 0 0 0), opcodeRow (.csrrc 0 0 0), opcodeRow (.csrrwi 0 0 0),
   opcodeRow (.csrrsi 0 0 0), opcodeRow (.csrrci 0 0 0), opcodeRow (.amoaddW false false 0 0 0)]

theorem opcodeRow_mem (i : Instr) : opcodeRow i ∈ tableRows := by
  cases i <;> simp [tableRows, opcodeRow]

/-- A word of each class of R147: (a), (b) twice, (c), (d). -/
theorem witness_UnknownWordClasses :
    (∀ w ∈ [0x00200073#32, 0x00000000#32, 0xFFFFFFFF#32, 0x00000001#32, 0x00000013#32],
      ∀ i, w &&& (opcodeRow i).1 ≠ (opcodeRow i).2) ∧
    (0x00200073#32).extractLsb' 0 7 = 0b1110011#7 ∧ (0x00000001#32).extractLsb' 0 2 ≠ 0b11#2 ∧
    ¬ ((0x00000013#32).extractLsb' 0 7 = 0b1110011#7 ∨ 0x00000013#32 = 0x00000000#32 ∨
      0x00000013#32 = 0xFFFFFFFF#32 ∨ (0x00000013#32).extractLsb' 0 2 ≠ 0b11#2) := by
  refine ⟨?_, by decide +kernel⟩
  have h : ([0x00200073#32, 0x00000000#32, 0xFFFFFFFF#32, 0x00000001#32, 0x00000013#32].all fun w =>
      tableRows.all fun r => decide (w &&& r.1 ≠ r.2)) = true := by decide +kernel
  intro w hw i
  exact of_decide_eq_true (List.all_eq_true.1 (List.all_eq_true.1 h w hw) _ (opcodeRow_mem i))

/-- A hart with the word of `ecall` at its pc. -/
def atEcall (p : Mode) : State := { hart .rv32 p with mem := withWords [] [(0x80000040, 0x00000073)] }

theorem witness_StepRunsFetchedInstruction :
    reachesFetch (atEcall .user) ∧ (∃ w u, (atEcall .user).awake.fetch = .ok w u ∧ decide (w = 0x00000073#32) = true) ∧
      decode 0x00000073#32 = .instr .ecall :=
  ⟨by unfold reachesFetch; decide +kernel, exists_ok (f := fun w _ => decide (w = 0x00000073#32)) (by decide +kernel),
    by decide +kernel⟩

theorem witness_StepRunsInstructionInMemory :
    reachesFetch (atEcall .user) ∧ (atEcall .user).translated (atEcall .user).priv = false ∧
      (atEcall .user).pc.toNat % 4 = 0 ∧
      (atEcall .user).mem.readBytes (atEcall .user).pc.toNat 4 = leBytes 4 (encode .ecall).toNat ∧
      (atEcall .user).pmpCheck (atEcall .user).pc.toNat 4 .fetch (atEcall .user).priv = true ∧
      pmaAllows (atEcall .user).cfg (atEcall .user).pc.toNat 4 .fetch = true ∧
      pmaDevice (atEcall .user).cfg (atEcall .user).pc.toNat 4 = false ∧
      (atEcall .user).written.contains ((atEcall .user).pc.toNat / 4) = false := by
  unfold reachesFetch; decide +kernel

/-- A waiting hart whose timer line goes high, with MIE clear; with the enable and without. -/
def waiter (enables : Word) : State :=
  { atEcall .machine with waiting := true, mie := enables, inputs := [{ Lines.low with mtip := true }] }

theorem witness_WaitingHart :
    ((waiter 0).waiting = true ∧ (waiter 0).sampleLines.nextInterrupt = none ∧
      (waiter 0).sampleLines.mip &&& (waiter 0).mie = 0#64) ∧
    ((waiter 0x80).waiting = true ∧ (waiter 0x80).sampleLines.nextInterrupt = none ∧
      (waiter 0x80).sampleLines.mip &&& (waiter 0x80).mie ≠ 0#64) := by decide +kernel

/-- Denied by PMA (the word after the RAM's last), and by PMP (U-mode with entries and none that matches). -/
theorem witness_FetchAccessFault :
    (reachesFetch { hart .rv32 .machine with pc := 0x81000000 } ∧
      ∃ pa u, ({ hart .rv32 .machine with pc := 0x81000000 } : State).awake.locate 0x81000000 .fetch = .ok pa u ∧
        decide (pmaAllows u.cfg pa 4 .fetch = false) = true) ∧
    (reachesFetch { protectedHart with priv := .user, pc := 0x80001000 } ∧
      ∃ pa u, ({ protectedHart with priv := .user, pc := 0x80001000 } : State).awake.locate 0x80001000 .fetch = .ok pa u ∧
        decide (u.pmpCheck pa 4 .fetch .user = false) = true) :=
  ⟨⟨by unfold reachesFetch; decide +kernel,
      exists_ok (f := fun pa u => decide (pmaAllows u.cfg pa 4 .fetch = false)) (by decide +kernel)⟩,
    ⟨by unfold reachesFetch; decide +kernel,
      exists_ok (f := fun pa u => decide (u.pmpCheck pa 4 .fetch .user = false)) (by decide +kernel)⟩⟩

/-- A hart that fetches at 0x00400000, whose leaf (V, X, A clear) is the first entry of the page table at `table`. -/
def fetcher (policy : AdPolicy) (table : Nat) : State :=
  { sv32 .supervisor with
    cfg := { platform .rv32 with adPolicy := policy }
    pc := 0x00400000
    mem := withWords [] [(0x80010004, table / 4096 * 1024 + 1), (table, 0x20008809)] }

/-- Sv32 translates every address; the bounds of those that Sv39 and Sv48 translate. -/
theorem witness_translatable :
    (∀ va, translatable .sv32 va) ∧ translatable .sv39 0x0000003FFFFFFFFF ∧ translatable .sv39 0xFFFFFFC000000000 ∧
      translatable .sv48 0x00007FFFFFFFFFFF ∧ translatable .sv48 0xFFFF800000000000 :=
  ⟨fun va => (canonical_iff .sv32 va).1 (by unfold canonical; simp only), (canonical_iff _ _).1 (by decide +kernel),
    (canonical_iff _ _).1 (by decide +kernel), (canonical_iff _ _).1 (by decide +kernel),
    (canonical_iff _ _).1 (by decide +kernel)⟩

/-- A page fault at an invalid entry; an access fault at a page table outside every region, whose first entry is the next
the walk would read; a leaf with A clear under the
policy Fault, and in ROM, where the write is denied, under the other two. -/
theorem witness_FetchTranslationFaults :
    (∀ s ∈ [sv32 .user, { sv32 .user with satp := 0x80000002 }, fetcher .fault 0x80011000, fetcher .hardwareUpdate 0x1000,
        fetcher .either 0x1000],
      s.sampleLines.nextInterrupt = none ∧ s.waiting = false ∧ s.pc.toNat % 4 = 0 ∧ s.translated s.priv = true) ∧
    ((sv32 .user).awake.chosenWalk 0x80000040 .fetch .user).2.result = .pageFault ∧
    (({ sv32 .user with satp := 0x80000002 } : State).awake.chosenWalk 0x80000040 .fetch .user).2.result =
      .accessFault ∧
    (canonical .sv32 0x80000040 = true ∧ nextEntry .sv32 0x80000040 (satpPpn .rv32 0x80000002 * 4096) 2
        (({ sv32 .user with satp := 0x80000002 } : State).awake.chosenWalk 0x80000040 .fetch .user).2.uses = some 0x2800 ∧
      pmaAllows (platform .rv32) 0x2800 4 .load = false) ∧
    ((fetcher .fault 0x80011000).awake.chosenWalk 0x00400000 .fetch .supervisor).2.result =
      .leaf 0 0x80011000 0x20008809 ∧
    ((fetcher .hardwareUpdate 0x1000).awake.chosenWalk 0x00400000 .fetch .supervisor).2.result =
      .leaf 0 0x1000 0x20008809 ∧
    ((fetcher .either 0x1000).awake.chosenWalk 0x00400000 .fetch .supervisor).2.result = .leaf 0 0x1000 0x20008809 ∧
    (0x20008809 : Word).getLsbD 6 = false ∧ pmaAllows (platform .rv32) 0x1000 4 .store = false := by
  decide +kernel

/-- R216, R226, R108: the two codes a fetch whose leaf has A clear raises. -/
theorem test_fetch_accessed :
    nextAnd (step (fetcher .fault 0x80011000)) (fun t => decide (t.mcause = 12 ∧ t.mtval = 0x00400000)) = true ∧
    nextAnd (step (fetcher .hardwareUpdate 0x1000)) (fun t => decide (t.mcause = 1 ∧ t.mtval = 0x00400000)) = true := by
  decide +kernel

/-- A fetch from a device; from a written word; with its page tables in a device region. -/
theorem witness_FetchRefusals :
    (reachesFetch { hart .rv32 .machine with pc := 0x10000000 } ∧
      ∃ pa u, ({ hart .rv32 .machine with pc := 0x10000000 } : State).awake.locate 0x10000000 .fetch = .ok pa u ∧
        (u.pmpCheck pa 4 .fetch .machine && pmaAllows u.cfg pa 4 .fetch && pmaDevice u.cfg pa 4) = true) ∧
    (reachesFetch { atEcall .machine with written := [0x20000010] } ∧
      ∃ pa u, ({ atEcall .machine with written := [0x20000010] } : State).awake.locate 0x80000040 .fetch = .ok pa u ∧
        (u.pmpCheck pa 4 .fetch .machine && pmaAllows u.cfg pa 4 .fetch && !pmaDevice u.cfg pa 4 &&
          decide (pa / 4 ∈ u.written)) = true) ∧
    (reachesFetch { sv32 .user with satp := 0x80010000 } ∧
      ({ sv32 .user with satp := 0x80010000 } : State).awake.locate 0x80000040 .fetch = .refused .deviceRegion) :=
  ⟨⟨by unfold reachesFetch; decide +kernel,
      exists_ok (f := fun pa u => u.pmpCheck pa 4 .fetch .machine && pmaAllows u.cfg pa 4 .fetch && pmaDevice u.cfg pa 4)
        (by decide +kernel)⟩,
    ⟨by unfold reachesFetch; decide +kernel,
      exists_ok (f := fun pa u => u.pmpCheck pa 4 .fetch .machine && pmaAllows u.cfg pa 4 .fetch &&
        !pmaDevice u.cfg pa 4 && decide (pa / 4 ∈ u.written)) (by decide +kernel)⟩,
    ⟨by unfold reachesFetch; decide +kernel, exists_refused (by decide +kernel)⟩⟩

theorem witness_InterruptEnabledByMode :
    (hart .rv32 .machine).priv = .machine ∧ (hart .rv32 .supervisor).priv = .supervisor ∧
      (hart .rv32 .user).priv = .user := by decide +kernel

/-- An S-bound and an M-bound interrupt. -/
theorem witness_StepTakesInterrupt :
    ({ hart .rv32 .user with mie := 0x20, mipSw := 0x20, mideleg := 0x222 } : State).sampleLines.nextInterrupt =
      some .sti ∧
    ({ hart .rv32 .user with mie := 0x20, mipSw := 0x20 } : State).sampleLines.nextInterrupt = some .sti := by
  decide +kernel

/-- A delegated exception and interrupt, and an exception that is not delegated. -/
theorem witness_TrapEntry :
    goesToS { hart .rv32 .user with medeleg := 0x100 } false (exnCode .ecallU) ∧
    goesToS { hart .rv32 .supervisor with mideleg := 0x222 } true (interruptCode .ssi) ∧
    ¬ goesToS { hart .rv32 .machine with medeleg := 0xB3FF } false (exnCode .breakpoint) := by
  unfold goesToS; decide +kernel

theorem witness_ReturnUndoesTrap :
    ((hart .rv32 .user).pc.toNat % 4 = 0 ∧ ¬ goesToS (hart .rv32 .user) false (exnCode .ecallU)) ∧
    (({ hart .rv32 .user with medeleg := 0x100 } : State).pc.toNat % 4 = 0 ∧
      goesToS { hart .rv32 .user with medeleg := 0x100 } false (exnCode .ecallU) ∧
      ({ hart .rv32 .user with medeleg := 0x100 } : State).mstatus.getLsbD 22 = false) ∧
    ¬ goesToS (hart .rv32 .user) (causeIsInterrupt (.interrupt .mti)) (causeCode (.interrupt .mti)) ∧
    goesToS { hart .rv32 .user with mideleg := 0x222 } (causeIsInterrupt (.interrupt .sti))
      (causeCode (.interrupt .sti)) := by
  unfold goesToS; decide +kernel

/-- A hart in each mode, for the clauses of `ecall`. -/
theorem witness_EcallTraps :
    (hart .rv64 .user).priv = .user ∧ (hart .rv64 .supervisor).priv = .supervisor ∧
      (hart .rv64 .machine).priv = .machine := by decide +kernel

/-- M-mode with MPP = 0, 1 and 3, and S-mode. -/
theorem witness_MretResult :
    (hart .rv32 .machine).priv = .machine ∧ (hart .rv32 .machine).mstatus.extractLsb' 11 2 = 0#2 ∧
    ({ hart .rv32 .machine with mstatus := 0x800 } : State).mstatus.extractLsb' 11 2 = 1#2 ∧
    ({ hart .rv32 .machine with mstatus := 0x1800 } : State).mstatus.extractLsb' 11 2 = 3#2 ∧
    (hart .rv32 .supervisor).priv ≠ .machine := by decide +kernel

/-- M-mode; S-mode with TSR clear; without S-mode; U-mode; S-mode with TSR set. -/
theorem witness_SretResult :
    ((hart .rv32 .machine).cfg.hasS = true ∧ (hart .rv32 .machine).priv = .machine) ∧
    ((hart .rv32 .supervisor).priv = .supervisor ∧ (hart .rv32 .supervisor).mstatus.getLsbD 22 = false) ∧
    ({ hart .rv32 .machine with cfg := { platform .rv32 with hasS := false } } : State).cfg.hasS = false ∧
    (hart .rv32 .user).priv = .user ∧
    ({ hart .rv32 .supervisor with mstatus := 0x400000 } : State).mstatus.getLsbD 22 = true := by decide +kernel

/-- M-mode with TVM set, S-mode with TVM clear and with TVM set. -/
theorem witness_SfenceVmaResult :
    (({ hart .rv32 .machine with mstatus := 0x100000 } : State).cfg.hasS = true ∧
      ({ hart .rv32 .machine with mstatus := 0x100000 } : State).priv = .machine) ∧
    ((hart .rv32 .supervisor).priv = .supervisor ∧ (hart .rv32 .supervisor).mstatus.getLsbD 20 = false) ∧
    ({ hart .rv32 .supervisor with mstatus := 0x100000 } : State).mstatus.getLsbD 20 = true := by decide +kernel

/-- Sv32 with the address of a mapped page in `a0`, and the number of the current address space, 0, in `a1`. -/
def fencer : State := (sv32 .supervisor).writeReg 10 0x00401000

/-- The same with something remembered. -/
def rememberer : State := { fencer with hist := [.wrote 0x80011004 [0, 0, 0, 0]] }

/-- With nothing remembered, no mapping of that address has a global leaf. -/
theorem not_mapsGlobally (s : State) (uses : List PteUse) (hc : s.cfg = (sv32 .user).cfg) (hs : s.satp = (sv32 .user).satp)
    (hh : s.hist = []) (hm : s.mem = (sv32 .user).mem) (hu : ∀ u ∈ uses, u.value = s.pteAt .sv32 u.addr) :
    ¬ mapsGlobally s s.satp 0x00401ABC uses := by
  have mode : s.satpMode s.satp = .sv32 := by unfold State.satpMode; rw [hc, hs]; decide +kernel
  have root : satpPpn s.cfg.xlen s.satp = 0x80010 := by rw [hc, hs]; decide +kernel
  have held : ∀ addr, s.pteHeld .sv32 addr = [] := by intro addr; unfold State.pteHeld; rw [hh]; rfl
  have at' : ∀ addr, s.pteAt .sv32 addr = (sv32 .user).pteAt .sv32 addr := by
    intro addr; unfold State.pteAt; rw [hm]
  have none : ¬ mapsTo .sv32 0x00401ABC (fun _ addr v => v ∈ [(sv32 .user).pteAt .sv32 addr]) (fun v => pteG v = true) 2
      (0x80010 * 4096) := by
    rw [← mappingHas_iff]; decide +kernel
  unfold mapsGlobally
  dsimp only
  rintro (⟨_, h⟩ | ⟨_, _, rfl | ⟨rfl, _⟩, _, h⟩) <;> rw [mode, root] at h <;>
    refine none (mapsTo_mono ?_ (fun _ h => h) _ _ h)
  · rintro level addr v ⟨h | h, _⟩
    · rw [h, at']; exact List.mem_singleton.2 rfl
    · rw [held] at h; cases h
  all_goals
    rintro level addr v (h | ⟨u, hm, _, rfl, h⟩)
    · rw [h, at']; exact List.mem_singleton.2 rfl
    · rw [← h, hu u hm, at']; exact List.mem_singleton.2 rfl

/-- All four forms complete; the walk after the fence is in the space named, no mapping of the address has a global leaf,
and it ends at a leaf of the page named. The two forms that name no space complete with something remembered. -/
theorem witness_FenceForgetsTranslations :
    fencer.cfg.hasS = true ∧ fencer.priv = .supervisor ∧ fencer.mstatus.getLsbD 20 = false ∧
    (∀ r ∈ [(0#5, 0#5), (10#5, 0#5), (0#5, 11#5), (10#5, 11#5)],
      let t := after (exec (.sfenceVma r.1 r.2) fencer)
      let w := t.chosenWalk 0x00401ABC .load .user
      exec (.sfenceVma r.1 r.2) fencer = .next t ∧
      satpAsid .rv32 w.1 = (fencer.readReg r.2).toNat % 2 ^ fencer.cfg.asidLen ∧
      ¬ mapsGlobally t w.1 0x00401ABC w.2.uses ∧
      (w.2.uses.any fun u => decide (u.level = 0) && pteValidLeaf u.value &&
        decide ((fencer.readReg 10).toNat / 2 ^ (12 + 10 * u.level) =
          (0x00401ABC : Word).toNat / 2 ^ (12 + 10 * u.level))) = true) ∧
    ∀ r ∈ [(0#5, 0#5), (10#5, 0#5)],
      exec (.sfenceVma r.1 r.2) rememberer = .next (after (exec (.sfenceVma r.1 r.2) rememberer)) := by
  refine ⟨by decide +kernel, by decide +kernel, by decide +kernel, ?_, ?_⟩
  · intro r hr
    simp only [List.mem_cons, List.not_mem_nil, or_false] at hr
    rcases hr with rfl | rfl | rfl | rfl
    all_goals
      refine ⟨next_after (by decide +kernel), by decide +kernel, ?_, by decide +kernel⟩
      exact not_mapsGlobally _ _ (by decide +kernel) (by decide +kernel) (by decide +kernel) (by decide +kernel)
        (by decide +kernel)
  · intro r hr
    simp only [List.mem_cons, List.not_mem_nil, or_false] at hr
    rcases hr with rfl | rfl
    all_goals exact next_after (by decide +kernel)

/-- An entry above level 0 is a pointer, a fence with an address runs, then it becomes a leaf: the fence does not cover
the pointer, and the walk that uses it is allowed; a leaf at that place, made invalid before the fence, is covered. With
V = 0 no other bit makes a leaf (R90, R121, R170). -/
theorem test_fence_judged_at_its_time :
    (let s := { sv32 .supervisor with
        mem := withWords [] [(0x80010008, 0x201000CF)]
        hist := [.wrote 0x80010008 [0x01, 0x48, 0x00, 0x20], .fence (some 0x00800000) none,
          .wrote 0x80010008 [0x01, 0x44, 0x00, 0x20]] };
      (s.leafAtFence .sv32 { level := 1, addr := 0x80010008, value := 0x20004401, age := 3 } 1 = false ∧
        s.walkAllowed s.satp 0 0x00800000
          { uses := [{ level := 1, addr := 0x80010008, value := 0x20004401, age := 3 }], result := .pageFault } = true)) ∧
    (let s := { sv32 .supervisor with
        mem := withWords [] [(0x80010008, 0x201000CF)]
        hist := [.fence (some 0x00800000) none, .wrote 0x80010008 [0, 0, 0, 0]] };
      s.walkAllowed s.satp 0 0x00800000
        { uses := [{ level := 1, addr := 0x80010008, value := 0, age := 2 }], result := .pageFault } = false) ∧
    pteValidLeaf 0x201000CE = false := by decide +kernel

/-- A hart in address space 5 that has left another `satp` of that space, whose mapping of 0x00401ABC has the leaf `leaf`,
run a fence for the space, and then cleared the root entry of that mapping. -/
def leaver (leaf : Nat) : State :=
  { sv32 .supervisor with
    satp := 0x81480013
    mem := withWords [] [(0x80010004, 0), (0x80011004, leaf)]
    hist := [.wrote 0x80010004 [0x01, 0x44, 0x00, 0x20], .fence none (some 5), .satpWas 0x81480010] }

/-- R170: the fence left the mapping as it was at the fence alone if its leaf was global, and the earlier `satp` stays
usable, whether the walk reads the old or the new root entry; it covers the mapping if its leaf was not. -/
theorem test_fence_global_mapping :
    ∀ old : Bool,
      let u : PteUse :=
        { level := 1, addr := 0x80010004, value := (if old then 0x20004401 else 0), age := (if old then 1 else 0) }
      (leaver 0x200080FF).walkAllowed 0x81480010 3 0x00401ABC { uses := [u], result := .pageFault } = true ∧
      (leaver 0x200080DF).walkAllowed 0x81480010 3 0x00401ABC { uses := [u], result := .pageFault } = false := by
  decide +kernel

/-- SF2: after a fence for page 0x00401 in address space 5, a walk that uses a leaf remembered from before it is allowed if
that leaf had G = 1, or maps another page, and not if it had G = 0, whatever its place holds by then. -/
theorem test_fence_leaf_of_space :
    ∀ old new : Bool,
      let leaf := fun g : Bool => if g then 0x200080FF else 0x200080DF
      let s : State := { sv32 .supervisor with
        satp := 0x81480010
        mem := withWords [] [(0x80010004, 0x20004401), (0x80011004, leaf new)]
        hist := [.fence (some 0x00401000) (some 5), .wrote 0x80011004 (leBytes 4 (leaf old)),
          .wrote 0x80011008 [0, 0, 0, 0]] }
      let root : PteUse := { level := 1, addr := 0x80010004, value := 0x20004401, age := 0 }
      let walk := fun addr value age : Nat =>
        { uses := [root, { level := 0, addr := addr, value := BitVec.ofNat 64 value, age := age }], result := .pageFault : Walk }
      s.walkAllowed s.satp 0 0x00401ABC (walk 0x80011004 (leaf old) 2) = old ∧
      s.walkAllowed s.satp 0 0x00402ABC (walk 0x80011008 0 3) = true := by
  decide +kernel

/-- R170: over an invalid leaf entry, over a pointer to one, over a `satp` value of the space with an empty root table, a leaf
with G = 1 or G = 0 is written, a pointer to one, a `satp` value under which there is one; then a fence for the page, or for
every page, of the space runs. The walk that uses the old value and so maps nothing is allowed if the leaf at the fence had
G = 1, and not if it had G = 0. -/
theorem test_fence_leaf_over_invalid :
    ∀ isGlobal : Bool,
      let leaf := if isGlobal then 0x200080FF else 0x200080DF
      let root : PteUse := { level := 1, addr := 0x80010004, value := 0x20004401, age := 0 }
      let hartWith := fun (cells : List (Nat × Nat)) (hist : List HistEvent) =>
        { sv32 .supervisor with satp := 0x81480010, mem := withWords [] cells, hist := hist : State }
      (let s := hartWith [(0x80010004, 0x20004401), (0x80011004, leaf)]
          [.fence (some 0x00401000) (some 5), .wrote 0x80011004 [0, 0, 0, 0]];
        s.walkAllowed s.satp 0 0x00401ABC
          { uses := [root, { level := 0, addr := 0x80011004, value := 0, age := 2 }], result := .pageFault } = isGlobal) ∧
      (let s := hartWith [(0x80010004, 0x20004401), (0x80011004, leaf)]
          [.fence none (some 5), .wrote 0x80010004 [0x01, 0x48, 0x00, 0x20]];
        s.walkAllowed s.satp 0 0x00401ABC
          { uses := [{ root with value := 0x20004801, age := 2 }, { level := 0, addr := 0x80012004, value := 0, age := 0 }],
            result := .pageFault } = isGlobal) ∧
      (let s := hartWith [(0x80010004, 0x20004401), (0x80011004, leaf)] [.fence none (some 5), .satpWas 0x81480013];
        s.walkAllowed 0x81480013 2 0x00401ABC
          { uses := [{ root with addr := 0x80013004, value := 0 }], result := .pageFault } = isGlobal) := by
  decide +kernel

/-- M-mode; U-mode on a hart without S-mode; U-mode with S-mode; S-mode with TW set; the policy Wait. -/
theorem witness_WfiResult :
    (hart .rv32 .machine).priv = .machine ∧
    (({ hart .rv32 .user with cfg := { platform .rv32 with hasS := false } } : State).mstatus.getLsbD 21 = false ∧
      ({ hart .rv32 .user with cfg := { platform .rv32 with hasS := false } } : State).cfg.hasS = false) ∧
    ((hart .rv32 .user).priv = .user ∧ (hart .rv32 .user).cfg.hasS = true) ∧
    (({ hart .rv32 .supervisor with mstatus := 0x200000 } : State).priv ≠ .machine ∧
      ({ hart .rv32 .supervisor with mstatus := 0x200000 } : State).mstatus.getLsbD 21 = true) ∧
    (({ hart .rv32 .machine with cfg := { platform .rv32 with wfiPolicy := .wait } } : State).cfg.wfiPolicy = .wait ∧
      ({ hart .rv32 .machine with cfg := { platform .rv32 with wfiPolicy := .wait } } : State).mip &&&
        ({ hart .rv32 .machine with cfg := { platform .rv32 with wfiPolicy := .wait } } : State).mie = 0#64) := by
  decide +kernel

/-- `mscratch` from M-mode, `satp` from S-mode with TVM clear. -/
theorem witness_CsrReadWriteResult :
    csrAccessible (hart .rv32 .machine) 0x340 .mscratch ∧ csrAccessible (hart .rv32 .supervisor) 0x180 .satp := by
  unfold csrAccessible; decide +kernel

theorem witness_CsrSetBitsResult : csrAccessible (hart .rv32 .machine) 0x344 .mip := by unfold csrAccessible; decide +kernel

theorem witness_CsrClearBitsResult : csrAccessible (hart .rv64 .supervisor) 0x100 .sstatus := by
  unfold csrAccessible; decide +kernel

/-- CS16, CS17 and CS8. -/
theorem witness_CsrAccessRefused :
    csrNumberOf (.csrrs 10 0x301 0) = some 0x301 ∧ csrOutside .rv32 0x301 = true ∧
    (csrOutside .rv32 0x7C0 = false ∧ ¬ ∃ c, csrAccessible (hart .rv32 .machine) 0x7C0 c) ∧
    (csrOutside .rv32 0x180 = false ∧ ¬ ∃ c, csrAccessible { hart .rv32 .supervisor with mstatus := 0x100000 } 0x180 c) := by
  refine ⟨by decide +kernel, by decide +kernel, ⟨by decide +kernel, ?_⟩, ⟨by decide +kernel, ?_⟩⟩
  · rintro ⟨c, h, _⟩
    have h0 : csrOfNumber (0x7C0 : CsrNum).toNat = none := by decide +kernel
    rw [h0] at h; cases h
  · rintro ⟨c, h, _, _, h'⟩
    have h0 : csrOfNumber (0x180 : CsrNum).toNat = some .satp := by decide +kernel
    rw [h0] at h
    exact h' ⟨(Option.some.inj h).symm, rfl, by decide +kernel⟩

theorem modesOk_hart : (hart .rv32 .machine).ModesOk := by constructor <;> decide +kernel

theorem interruptRegsOk_hart : (hart .rv32 .machine).InterruptRegsOk := by constructor <;> decide +kernel

/-- A write that sets MPP to a mode that is there, and to the reserved value. -/
theorem witness_MstatusWrite :
    (hart .rv32 .machine).ModesOk ∧ (0x800 : Word).extractLsb' 11 2 = 1#2 ∧ (hart .rv32 .machine).cfg.hasS = true ∧
      (0x1000 : Word).extractLsb' 11 2 = 2#2 := ⟨modesOk_hart, by decide +kernel⟩

theorem witness_MipReadsAndWrites : (hart .rv32 .machine).InterruptRegsOk := interruptRegsOk_hart

/-- Entries 0 and 3 of `pmpcfg0` on RV32 are written; entry 2 is locked, entry 4 is absent. -/
theorem witness_PmpConfigWrite :
    (∀ i ∈ [0, 3], i < 16 ∧ i < 0 + 4 ∧ i < protectedHart.cfg.pmpCount ∧ (protectedHart.pmpCfg i).getLsbD 7 = false) ∧
    (protectedHart.pmpCfg 2).getLsbD 7 = true ∧ ¬ 4 < protectedHart.cfg.pmpCount := by decide +kernel

/-- Address register 2 is locked; with entry 1 locked and TOR so is register 0, whose own entry is not; register 15 is
not, nor is register 1 below a locked entry that is not TOR. -/
theorem witness_PmpAddressWrite :
    (protectedHart.pmpCfg 2).getLsbD 7 = true ∧
    (let s := { protectedHart with pmpcfg := protectedHart.pmpcfg.set 1 0x89 };
      (s.pmpCfg 0).getLsbD 7 = false ∧ (s.pmpCfg (0 + 1)).getLsbD 7 = true ∧
        (s.pmpCfg (0 + 1)).extractLsb' 3 2 = 1#2) ∧
    (∀ i ∈ [1, 15], i < 16 ∧ ¬ ((protectedHart.pmpCfg i).getLsbD 7 = true ∨
      ((protectedHart.pmpCfg (i + 1)).getLsbD 7 = true ∧ (protectedHart.pmpCfg (i + 1)).extractLsb' 3 2 = 1#2))) := by
  decide +kernel

/-- CS12 and CS13, and Sv39; a write that changes `satp` and one that does not. -/
theorem witness_SatpWrite :
    (((hart .rv32 .machine).csrWrite .satp 0x80080010).satp ≠ (hart .rv32 .machine).satp ∧
      ((sv32 .machine).csrWrite .satp 0x80080010).satp = (sv32 .machine).satp) ∧
    satpModeOf .rv64 0x9000000000080010 = some .sv48 ∧ satpModeOf .rv64 0 = some .bare ∧
    ((hart .rv32 .machine).cfg.xlen = .rv32 ∧
      ∃ m ∈ (hart .rv32 .machine).cfg.satpModes, satpModeOf .rv32 0x80080010 = some m) ∧
    ((hart .rv64 .machine).cfg.xlen = .rv64 ∧
      ∃ m ∈ (hart .rv64 .machine).cfg.satpModes, satpModeOf .rv64 0x8000000000080010 = some m) ∧
    ¬ ∃ m ∈ (hart .rv64 .machine).cfg.satpModes, satpModeOf .rv64 0x9000000000080010 = some m := by decide +kernel

theorem witness_CsrWriteFrame :
    csrExists (platform .rv32) .mideleg = true ∧ csrExists (platform .rv32) .satp = true ∧
      csrHome .mideleg ≠ csrHome .satp ∧ ¬ ((Csr.mideleg = .mideleg) ∧ (Csr.satp = .sie ∨ Csr.satp = .sip)) ∧
      Csr.mideleg ≠ .satp := by decide +kernel

/-- AM2 and AM11: the access reaches ordinary memory, untranslated and translated. -/
theorem witness_AmoaddResult :
    (Memory.wf (hart .rv32 .machine).mem = true ∧ (hart .rv32 .machine).translated .machine = false ∧
      ∃ pa u, (hart .rv32 .machine).locate 0x80002000 .store = .ok pa u ∧
        (u.pmpCheck pa 4 .load .machine && u.pmpCheck pa 4 .store .machine && pmaAllows u.cfg pa 4 .load &&
          pmaAllows u.cfg pa 4 .store && pmaAtomic u.cfg pa 4 && !pmaDevice u.cfg pa 4) = true) ∧
    (Memory.wf (sv32 .user).mem = true ∧
      ∃ pa u, (sv32 .user).locate 0x00401ABC .store = .ok pa u ∧
        (u.pmpCheck pa 4 .load .user && u.pmpCheck pa 4 .store .user && pmaAllows u.cfg pa 4 .load &&
          pmaAllows u.cfg pa 4 .store && pmaAtomic u.cfg pa 4 && !pmaDevice u.cfg pa 4) = true) :=
  ⟨⟨by decide +kernel, by decide +kernel,
      exists_ok (f := fun pa u => u.pmpCheck pa 4 .load .machine && u.pmpCheck pa 4 .store .machine &&
        pmaAllows u.cfg pa 4 .load && pmaAllows u.cfg pa 4 .store && pmaAtomic u.cfg pa 4 && !pmaDevice u.cfg pa 4)
        (by decide +kernel)⟩,
    ⟨by decide +kernel,
      exists_ok (f := fun pa u => u.pmpCheck pa 4 .load .user && u.pmpCheck pa 4 .store .user &&
        pmaAllows u.cfg pa 4 .load && pmaAllows u.cfg pa 4 .store && pmaAtomic u.cfg pa 4 && !pmaDevice u.cfg pa 4)
        (by decide +kernel)⟩⟩

/-- AM2, and the last word of the RAM. -/
theorem witness_AmoaddUntranslatedResult :
    ∀ i : Bool, let a : Word := if i then 0x80002000 else 0x80FFFFFC
      Memory.wf ((hart .rv32 .machine).writeReg 12 a).mem = true ∧
      ((hart .rv32 .machine).writeReg 12 a).translated .machine = false ∧
      ((hart .rv32 .machine).writeReg 12 a).readReg 12 = a ∧ a.toNat % 4 = 0 ∧
      ((hart .rv32 .machine).writeReg 12 a).pmpCheck a.toNat 4 .load .machine = true ∧
      ((hart .rv32 .machine).writeReg 12 a).pmpCheck a.toNat 4 .store .machine = true ∧
      pmaAllows (platform .rv32) a.toNat 4 .load = true ∧ pmaAllows (platform .rv32) a.toNat 4 .store = true ∧
      pmaAtomic (platform .rv32) a.toNat 4 = true ∧ pmaDevice (platform .rv32) a.toNat 4 = false := by decide +kernel

/-- A hart that stores at 0x00400000, whose leaf (V, R, W, A and D clear) is in ROM. -/
def storer (policy : AdPolicy) : State :=
  { fetcher policy 0x1000 with mem := withWords [] [(0x80010004, 0x401), (0x1000, 0x20008807)] }

/-- The walk of a store ends in a page fault; at a denied entry; at a leaf with A clear in ROM, under the policy Fault and
under HardwareUpdate and Either, where the write is denied. -/
theorem witness_AmoaddFaults_translated :
    ((sv32 .user).translated .user = true ∧ ((sv32 .user).chosenWalk 0x00404000 .store .user).2.result = .pageFault) ∧
    (let s : State := { sv32 .user with satp := 0x80000002 };
      s.translated (s.effPriv .store) = true ∧ canonical .sv32 0x80000040 = true ∧
        (s.chosenWalk 0x80000040 .store .user).2.result = .accessFault ∧
        nextEntry .sv32 0x80000040 (satpPpn .rv32 0x80000002 * 4096) 2 (s.chosenWalk 0x80000040 .store .user).2.uses =
          some 0x2800 ∧ ¬ pteReadable s .sv32 0x2800) ∧
    (∀ policy ∈ [AdPolicy.fault, .hardwareUpdate, .either],
      (storer policy).translated ((storer policy).effPriv .store) = true ∧
        ((storer policy).chosenWalk 0x00400000 .store .supervisor).2.result = .leaf 0 0x1000 0x20008807 ∧
        (0x20008807 : Word).getLsbD 6 = false ∧ ¬ pteWritable (storer policy) .sv32 0x1000) := by
  unfold pteReadable pteWritable; decide +kernel

/-- AM8; AM10; AM9 (ROM); a device; a page-table access that reaches a device; ROM, a device, RAM and no region, an access that ends one byte past
2^PASIZE, one that ends there, and one between two regions. -/
theorem witness_AmoaddFaults :
    (0x80002002 : Word).toNat % 4 ≠ 0 ∧
    ((0x00402010 : Word).toNat % 4 = 0 ∧ ∃ v u, (sv32 .user).locate 0x00402010 .store = .raised .storePageFault v u) ∧
    (∃ pa u, (hart .rv32 .machine).locate 0x1000 .store = .ok pa u ∧
      decide (pmaAllows u.cfg pa 4 .store = false) = true) ∧
    (∃ pa u, (hart .rv32 .machine).locate 0x10000FFC .store = .ok pa u ∧
      (u.pmpCheck pa 4 .load .machine && u.pmpCheck pa 4 .store .machine && pmaAllows u.cfg pa 4 .load &&
        pmaAllows u.cfg pa 4 .store && pmaAtomic u.cfg pa 4 && pmaDevice u.cfg pa 4) = true) ∧
    ({ sv32 .user with satp := 0x80010000 } : State).locate 0x00401ABC .store = .refused .deviceRegion ∧
    ((regionOf (platform .rv32) 0x1FFC 4).map Region.kind = some .rom ∧
      (regionOf (platform .rv32) 0x10000FFC 4).map Region.kind = some .device ∧
      (regionOf (platform .rv32) 0x80FFFFFC 4).map Region.kind = some .ram ∧ regionOf (platform .rv32) 0x80FFFFFE 4 = none ∧
      2 ^ (platform .rv32).pasize < 0x3FFFFFFFD + 4 ∧ 0x3FFFFFFFC + 4 ≤ 2 ^ (platform .rv32).pasize ∧
      ∀ r ∈ (platform .rv32).regions, ¬ (r.base ≤ 0x1FFE ∧ 0x1FFE + 4 ≤ r.base + r.size)) :=
  ⟨by decide +kernel, ⟨by decide +kernel, exists_raised (by decide +kernel)⟩,
    exists_ok (f := fun pa u => decide (pmaAllows u.cfg pa 4 .store = false)) (by decide +kernel),
    exists_ok (f := fun pa u => u.pmpCheck pa 4 .load .machine && u.pmpCheck pa 4 .store .machine &&
      pmaAllows u.cfg pa 4 .load && pmaAllows u.cfg pa 4 .store && pmaAtomic u.cfg pa 4 && pmaDevice u.cfg pa 4)
      (by decide +kernel),
    exists_refused (by decide +kernel), by decide +kernel⟩

/-- OFF, TOR, NA4 and NAPOT, the last with 9, with no and with all (PM15) trailing ones. -/
theorem witness_PmpRegions :
    (protectedHart.pmpCfg 3).extractLsb' 3 2 = 0#2 ∧ (protectedHart.pmpCfg 0).extractLsb' 3 2 = 1#2 ∧
    (protectedHart.pmpCfg 1).extractLsb' 3 2 = 2#2 ∧ (protectedHart.pmpCfg 2).extractLsb' 3 2 = 3#2 ∧
    ((∀ j, j < 9 → (protectedHart.pmpAddr 2).getLsbD j = true) ∧ (protectedHart.pmpAddr 2).getLsbD 9 = false) ∧
    (0x20000400#64).getLsbD 0 = false ∧ (∀ j, j < 32 → (0xFFFFFFFF#64).getLsbD j = true) := by decide +kernel

/-- An entry that decides (entry 1 after entry 0), no entry that matches, no entries. -/
theorem witness_PmpFirstMatchDecides :
    (1 < protectedHart.cfg.pmpCount ∧ protectedHart.pmpRegion 0 = some (0, 0x80001000) ∧
      protectedHart.pmpRegion 1 = some (0x80002000, 0x80002004) ∧
      protectedHart.pmpRegion 2 = some (0x80004000, 0x80005000) ∧ protectedHart.pmpRegion 3 = none) ∧
    pmpTouches protectedHart 1 0x80002000 4 ∧ ¬ pmpTouches protectedHart 0 0x80002000 4 ∧
    (∀ j, j < protectedHart.cfg.pmpCount → ¬ pmpTouches protectedHart j 0x80001000 4) ∧
    (hart .rv32 .machine).cfg.pmpCount = 0 := by
  have h0 : protectedHart.pmpRegion 0 = some (0, 0x80001000) := by decide +kernel
  have h1 : protectedHart.pmpRegion 1 = some (0x80002000, 0x80002004) := by decide +kernel
  have h2 : protectedHart.pmpRegion 2 = some (0x80004000, 0x80005000) := by decide +kernel
  have h3 : protectedHart.pmpRegion 3 = none := by decide +kernel
  refine ⟨⟨by decide +kernel, h0, h1, h2, h3⟩, ⟨_, _, 0x80002000, h1, by decide +kernel⟩, ?_, ?_, by decide +kernel⟩
  · rintro ⟨lo, hi, y, h, hy⟩
    rw [h0] at h; cases h; omega
  · intro j hj
    rintro ⟨lo, hi, y, h, hy⟩
    have hj' : j < 4 := hj
    have : j = 0 ∨ j = 1 ∨ j = 2 ∨ j = 3 := by omega
    rcases this with rfl | rfl | rfl | rfl
    · rw [h0] at h; cases h; omega
    · rw [h1] at h; cases h; omega
    · rw [h2] at h; cases h; omega
    · rw [h3] at h; cases h

/-- MPRV set with MPP = U, and MPRV clear. -/
theorem witness_EffectivePrivilege :
    ((0x20000 : Word).getLsbD 17 = true ∧ (0x20000 : Word).extractLsb' 11 2 ≠ 2#2) ∧ (0x1800 : Word).getLsbD 17 = false := by
  decide +kernel

/-- Without S-mode; MODE = Bare; in M-mode with MODE = Sv32; in U-mode with Sv32. -/
theorem witness_WhenTranslationApplies :
    (0x80000000 : Word).toNat % 4 = 0 ∧
    ({ hart .rv32 .user with cfg := { platform .rv32 with hasS := false } } : State).cfg.hasS = false ∧
    (hart .rv32 .user).satpMode (hart .rv32 .user).satp = .bare ∧ (sv32 .machine).effPriv .fetch = .machine ∧
    (sv32 .user).translated ((sv32 .user).effPriv .store) = true := by decide +kernel

/-- TR25, and the first and the last address that is not canonical. -/
theorem witness_NonCanonicalAddressFaults :
    (sv39 .supervisor).satpMode ((sv39 .supervisor).chosenWalk 0x0000008000000000 .load .supervisor).1 = .sv39 ∧
    ∀ va ∈ [(0x0000008000000000 : Word), 0x0000004000000000, 0xFFFFFFBFFFFFFFFF],
      ∃ i, 39 ≤ i ∧ i < 64 ∧ va.getLsbD i ≠ va.getLsbD 38 := by
  refine ⟨by decide +kernel, ?_⟩
  intro va h
  simp only [List.mem_cons, List.not_mem_nil, or_false] at h
  rcases h with rfl | rfl | rfl <;> exact ⟨39, by decide +kernel⟩

/-- TR14 (V = 0), TR10 (W without R), TR15 (a pointer at level 0), TR3 (S-mode on a U page) and TR13 (a misaligned
superpage). -/
theorem witness_InvalidEntryFaults :
    (∃ u ∈ ((sv32 .supervisor).chosenWalk 0x01000000 .load .supervisor).2.uses, u.value.getLsbD 0 = false) ∧
    (∃ u ∈ ((sv32 .supervisor).chosenWalk 0x00404000 .load .supervisor).2.uses,
      u.value.getLsbD 1 = false ∧ u.value.getLsbD 2 = true) ∧
    (∃ u ∈ ((sv32 .supervisor).chosenWalk 0x01400000 .load .supervisor).2.uses,
      u.level = 0 ∧ u.value.getLsbD 1 = false ∧ u.value.getLsbD 3 = false) ∧
    (∃ u ∈ ((sv32 .supervisor).chosenWalk 0x00401ABC .load .supervisor).2.uses,
      u.value.getLsbD 0 = true ∧ u.value.getLsbD 1 = true ∧ Mode.supervisor ≠ .machine ∧
        ¬ leafPermits (sv32 .supervisor) u.value .load .supervisor) ∧
    (∃ u ∈ ((sv32 .supervisor).chosenWalk 0x00C00000 .load .supervisor).2.uses,
      u.value.getLsbD 0 = true ∧ u.value.getLsbD 1 = true ∧ ptePpn .sv32 u.value % 2 ^ (vpnBits .sv32 * u.level) ≠ 0) := by
  unfold leafPermits; decide +kernel

/-- The two reads of TR1. -/
def tr1Root : PteUse := { level := 1, addr := 0x80010004, value := 0x20004401, age := 0 }
def tr1Leaf : PteUse := { level := 0, addr := 0x80011004, value := 0x200080DF, age := 0 }

/-- They follow the tables in memory to a leaf that a store in U-mode may use, with nothing remembered. -/
theorem witness_TranslationFollowsTables_leaf :
    followsTables .sv32 0x00401ABC (satpPpn .rv32 (sv32 .user).satp * 4096) (levels .sv32) ([tr1Root] ++ [tr1Leaf]) ∧
    (∀ v ∈ [tr1Root] ++ [tr1Leaf], (pteReadable (sv32 .user) .sv32 v.addr ∧
      pmaDevice (sv32 .user).cfg v.addr (pteSize .sv32) = false) ∧ v.value = (sv32 .user).pteAt .sv32 v.addr) ∧
    (∀ v ∈ [tr1Root], pointerEntry v.value) ∧ usableLeaf (sv32 .user) .sv32 tr1Leaf .store .user ∧
    (sv32 .user).hist = [] ∧ ((sv32 .user).chosenWalk 0x00401ABC .store .user).2.uses = [tr1Root] ++ [tr1Leaf] ∧
    tr1Leaf.value.getLsbD 6 = true ∧ tr1Leaf.value.getLsbD 7 = true := by
  unfold pteReadable pointerEntry usableLeaf leafPermits
  exact ⟨⟨by decide +kernel, by decide +kernel, by decide +kernel, by decide +kernel, trivial⟩, by decide +kernel⟩

/-- A root table outside every region, and one in a device. -/
theorem witness_TranslationFollowsTables_next :
    ∀ ppn ∈ [0x2, 0x10000], let s : State := { sv32 .user with satp := 0x80000000 + BitVec.ofNat 64 ppn };
      nextEntry .sv32 0x00401ABC (ppn * 4096) 2 (s.chosenWalk 0x00401ABC .load .user).2.uses = some (ppn * 4096 + 4) ∧
      (pteReadable s .sv32 (ppn * 4096 + 4) ↔ ppn = 0x10000) ∧
      pmaDevice s.cfg (ppn * 4096 + 4) 4 = decide (ppn = 0x10000) := by
  unfold pteReadable; decide +kernel

/-- TR1 (two levels) and TR12 (a superpage). -/
theorem witness_TranslationFollowsTables :
    (∃ pa t, (sv32 .user).translate 0x00401ABC .load .user = .ok pa t ∧ decide (pa = 0x80020ABC) = true) ∧
    (∃ pa t, (sv32 .supervisor).translate 0x00812345 .load .supervisor = .ok pa t ∧
      decide (pa = 0x80412345) = true) :=
  ⟨exists_ok (f := fun pa _ => decide (pa = 0x80020ABC)) (by decide +kernel),
    exists_ok (f := fun pa _ => decide (pa = 0x80412345)) (by decide +kernel)⟩

/-- TR2 (A and D set), TR6 (A clear) and TR11 (D clear for a store), under each policy. -/
theorem witness_AccessedAndDirtyUpdate :
    Memory.wf (sv32 .user).mem = true ∧
    ((sv32 .user).chosenWalk 0x00401ABC .store .user).2.result = .leaf 0 0x80011004 0x200080DF ∧
    ((sv32 .user).chosenWalk 0x00402010 .load .user).2.result = .leaf 0 0x80011008 0x20008413 ∧
    ((sv32Update .user).chosenWalk 0x00402010 .load .user).2.result = .leaf 0 0x80011008 0x20008413 ∧
    ((sv32Update .user).chosenWalk 0x00405008 .store .supervisor).2.result = .leaf 0 0x80011014 0x20009047 ∧
    (({ sv32 .user with cfg := { platform .rv32 with adPolicy := .either } } : State).chosenWalk 0x00402010 .load
      .user).2.result = .leaf 0 0x80011008 0x20008413 ∧
    (0x200080DF#64).getLsbD 6 = true ∧ (0x200080DF#64).getLsbD 7 = true ∧ (0x20008413#64).getLsbD 6 = false ∧
    (0x20009047#64).getLsbD 7 = false ∧ (sv32 .user).cfg.adPolicy = .fault ∧
    (sv32Update .user).cfg.adPolicy = .hardwareUpdate := by decide +kernel

theorem witness_RegisterFrame :
    ∃ t, exec (.csrrw 10 0x340 10) (hart .rv32 .machine) = .next t ∧ decide (t.pc = 0x80000044) = true :=
  exists_next (f := fun t => decide (t.pc = 0x80000044)) (by decide +kernel)

/-- `mret` stores nothing; a step that runs an untranslated `amoadd.w`, and an address outside its word. -/
theorem witness_OnlyAmoaddStores :
    (∃ t, exec .mret (hart .rv32 .machine) = .next t ∧ decide (t.priv = .user) = true) ∧
      (∀ aq rl rd rs1 rs2, Instr.mret ≠ .amoaddW aq rl rd rs1 rs2) ∧
    (let s := ({ hart .rv32 .machine with mem := withWords [] [(0x80000040, 0x00B6252F)] }.writeReg 12 0x80002000);
      (∃ t, step s = .next t ∧ decide (t.written = [0x20000800]) = true) ∧ s.awake.translated .machine = false ∧
        (∃ w u, s.awake.fetch = .ok w u ∧ decide (w = 0x00B6252F ∧ u.translated (u.effPriv .store) = false) = true) ∧
        ∃ pa v, s.awake.locate (s.readReg 12) .store = .ok pa v ∧ decide (pa = 0x80002000) = true) :=
  ⟨exists_next (f := fun t => decide (t.priv = .user)) (by decide +kernel), fun _ _ _ _ _ h => by (cases h),
    exists_next (f := fun t => decide (t.written = [0x20000800])) (by decide +kernel), by decide +kernel,
    exists_ok (f := fun w u => decide (w = 0x00B6252F ∧ u.translated (u.effPriv .store) = false)) (by decide +kernel),
    exists_ok (f := fun pa _ => decide (pa = 0x80002000)) (by decide +kernel)⟩

/-- ROM contents in canonical form. -/
theorem witness_ResetValues :
    cellsOk [(0x1000, 1), (0x1FFF, 2)] = true ∧ (0x1FFF, 2#8) ∈ [(0x1000, 1#8), (0x1FFF, 2#8)] := by decide +kernel

/-- With and without Bare among the modes of `satp`. -/
theorem witness_ResetSatisfiesInvariant :
    (platform .rv32).wf = true ∧ (platform .rv64).wf = true ∧
      ({ platform .rv32 with satpModes := [.sv32] } : Config).wf = true := by decide +kernel

/-- R4: without Bare among its modes `satp` holds the first one at reset. -/
theorem test_reset_satp :
    (State.resetOf { platform .rv32 with satpModes := [.sv32] }).satp = 0x80000000 ∧
    (State.resetOf { platform .rv64 with satpModes := [.sv48, .sv39] }).satp = 0x9000000000000000 ∧
    (State.resetOf (platform .rv64)).satp = 0 := by decide +kernel

/-- A state of the invariant, in U-mode on an M+U hart of RV64 with the word of `wfi` at its pc. -/
def userAtWfi : State :=
  { State.resetOf { platform .rv64 with hasS := false } with
    priv := .user, pc := 0x80000040, mem := withWords [] [(0x80000040, 0x10500073)] }

theorem userAtWfi_inv : userAtWfi.Inv := by
  have hc : ∀ i, userAtWfi.pmpCfg i = 0#8 := by intro i; simp [State.pmpCfg, userAtWfi, State.resetOf]
  have ha : ∀ i, userAtWfi.pmpAddr i = 0#64 := by intro i; simp [State.pmpAddr, userAtWfi, State.resetOf]
  have hz : ∀ w : Word, fits .rv64 w := fun _ => rfl
  constructor
  · decide +kernel
  · exact ⟨hz _, fun _ => hz _, hz _, hz _, hz _, hz _, hz _, hz _, hz _, hz _, hz _, hz _, hz _, hz _⟩
  · exact ⟨by unfold aligned4; decide, rfl, rfl, rfl, rfl⟩
  · constructor <;> decide +kernel
  · constructor <;> decide +kernel
  · exact ⟨fun _ => ⟨.bare, by decide +kernel⟩, by decide +kernel⟩
  · constructor
    · intro i; rw [hc]; rfl
    · intro i h; rw [hc] at h; cases h
    · intro i; rw [ha]; simp
    · exact fun i _ => hc i
    · exact fun i _ => ha i
  · exact ⟨by decide +kernel, by decide +kernel⟩

theorem witness_StepKeepsInvariant :
    userAtWfi.Inv ∧ ∃ t, step userAtWfi = .next t ∧ decide (t.pc = 0x80000044) = true :=
  ⟨userAtWfi_inv, exists_next (f := fun t => decide (t.pc = 0x80000044)) (by decide +kernel)⟩

/-- A step that raises the mode, and one that lowers it. -/
theorem witness_PrivilegeChangesOnlyByTrapOrReturn :
    (∃ t, step (atEcall .user) = .next t ∧
      decide (modeCode (atEcall .user).priv < modeCode t.priv) = true) ∧
    (∃ t, step { hart .rv32 .machine with mem := withWords [] [(0x80000040, 0x30200073)] } = .next t ∧
      decide (modeCode t.priv < modeCode .machine) = true) :=
  ⟨exists_next (f := fun t => decide (modeCode (atEcall .user).priv < modeCode t.priv)) (by decide +kernel),
    exists_next (f := fun t => decide (modeCode t.priv < modeCode .machine)) (by decide +kernel)⟩

theorem witness_UserModeLeavesCsrs :
    userAtWfi.priv = .user ∧ ∃ t, step userAtWfi = .next t ∧ decide (t.priv = .user) = true :=
  ⟨rfl, exists_next (f := fun t => decide (t.priv = .user)) (by decide +kernel)⟩

/-- `csrrw x0, sstatus, a0` (word of CS6) in S-mode. -/
theorem witness_LowerModesLeaveMachineRegisters :
    ∃ t, step ({ hart .rv32 .supervisor with mem := withWords [] [(0x80000040, 0x10051073)] }.writeReg 10 0xFFFFFFFF) =
      .next t ∧ decide (t.priv ≠ .machine ∧ t.mstatus = 0x000C0122) = true :=
  exists_next (f := fun t => decide (t.priv ≠ .machine ∧ t.mstatus = 0x000C0122)) (by decide +kernel)

end Sys2Proof.Tests
end

section
/-! `sie` and `sip`, bit by bit: what a read of each view shows and what a write to it reaches (10_state.md R54). -/

namespace Sys2Proof.Machine

/-! ## The two masks of R54 -/

/-- The supervisor interrupts SSI, STI and SEI stand at bits 1, 5 and 9 (10_state.md R40, R43). -/
theorem getLsbD_supervisorMask (i : Nat) : (0x222#64).getLsbD i = decide (i ∈ [1, 5, 9]) := by
  by_cases h : i < 64
  · have low : ∀ k : Fin 64, (0x222#64).getLsbD k.val = decide (k.val ∈ [1, 5, 9]) := by decide
    exact low ⟨i, h⟩
  · have above : i ∉ [1, 5, 9] := by simp; omega
    rw [BitVec.getLsbD_of_ge _ _ (Nat.le_of_not_lt h), decide_eq_false above]

/-- SSIP, the only bit a write to `sip` can reach, stands at bit 1 (10_state.md R41). -/
theorem getLsbD_ssipMask (i : Nat) : (0x2#64).getLsbD i = decide (i = 1) := by
  have single : (0x2#64) = BitVec.twoPow 64 1 := rfl
  rw [single, BitVec.getLsbD_twoPow]
  simp [eq_comm]

/-! ## Reads -/

/-- A register restricted to the delegated supervisor interrupts: the shape of both views. -/
theorem getLsbD_and_delegated (w mideleg : Word) (i : Nat) :
    (w &&& mideleg &&& 0x222#64).getLsbD i = (decide (i ∈ [1, 5, 9]) && w.getLsbD i && mideleg.getLsbD i) := by
  rw [BitVec.getLsbD_and, BitVec.getLsbD_and, getLsbD_supervisorMask, Bool.and_comm, Bool.and_assoc]

theorem getLsbD_csrRead_sie (s : State) (i : Nat) :
    (s.csrRead .sie).getLsbD i = (decide (i ∈ [1, 5, 9]) && s.mie.getLsbD i && s.mideleg.getLsbD i) :=
  getLsbD_and_delegated s.mie s.mideleg i

theorem getLsbD_csrRead_sip (s : State) (i : Nat) :
    (s.csrRead .sip).getLsbD i = (decide (i ∈ [1, 5, 9]) && s.mip.getLsbD i && s.mideleg.getLsbD i) :=
  getLsbD_and_delegated s.mip s.mideleg i

/-! ## Writes -/

@[simp] theorem csrWrite_sie_mie (s : State) (v : Word) :
    (s.csrWrite .sie v).mie = withMask s.mie v (s.mideleg &&& 0x222#64) := rfl

@[simp] theorem csrWrite_sip_mipSw (s : State) (v : Word) :
    (s.csrWrite .sip v).mipSw = withMask s.mipSw v (s.mideleg &&& 0x2#64) := rfl

/-- A write to `sie` reaches a bit of `mie` when it is a supervisor interrupt and delegated. -/
theorem getLsbD_csrWrite_sie_mie (s : State) (v : Word) (i : Nat) :
    (s.csrWrite .sie v).mie.getLsbD i =
      if i ∈ [1, 5, 9] ∧ s.mideleg.getLsbD i = true then v.getLsbD i else s.mie.getLsbD i := by
  have reached : (s.mideleg &&& 0x222#64).getLsbD i = true ↔ i ∈ [1, 5, 9] ∧ s.mideleg.getLsbD i = true := by
    rw [BitVec.getLsbD_and, getLsbD_supervisorMask, Bool.and_eq_true, decide_eq_true_iff, and_comm]
  rw [csrWrite_sie_mie, getLsbD_withMask, if_congr reached rfl rfl]

/-- A write to `sip` reaches SSIP alone, and only when SSI is delegated; STIP and SEIP are read-only there. -/
theorem getLsbD_csrWrite_sip_mipSw (s : State) (v : Word) (i : Nat) :
    (s.csrWrite .sip v).mipSw.getLsbD i =
      if i = 1 ∧ s.mideleg.getLsbD 1 = true then v.getLsbD 1 else s.mipSw.getLsbD i := by
  rw [csrWrite_sip_mipSw, getLsbD_withMask, BitVec.getLsbD_and, getLsbD_ssipMask]
  by_cases h : i = 1
  · subst h; simp
  · simp [h]

/-- Settles O33: the two reads and the two writes, each by its bit lemma above. -/
theorem sieSipAreViews : Obligations.SieSipAreViews := fun s v i =>
  ⟨getLsbD_csrRead_sie s i, getLsbD_csrRead_sip s i, getLsbD_csrWrite_sie_mie s v i, getLsbD_csrWrite_sip_mipSw s v i⟩

end Sys2Proof.Machine
end

section
/-! The PMP check and the region of an entry (20_memory.md R116, R117). -/

namespace Sys2Proof.Machine

/-! ## Regions (R116) -/

/-- What makes `onesFrom` answer `k`: `k` one bits, and then a zero unless the count is exhausted. -/
theorem onesFrom_eq (a : Word) (i n k : Nat) (hk : k ≤ n) (ones : ∀ j, j < k → a.getLsbD (i + j) = true)
    (stop : k < n → a.getLsbD (i + k) = false) : onesFrom a i n = k := by
  induction n generalizing i k with
  | zero => rw [onesFrom]; omega
  | succ n ih =>
    cases k with
    | zero =>
      have first : a.getLsbD i = false := stop n.succ_pos
      simp [onesFrom, first]
    | succ k =>
      have first : a.getLsbD i = true := ones 0 k.succ_pos
      have rest : onesFrom a (i + 1) n = k := by
        refine ih (i + 1) k (by omega) (fun j hj => ?_) (fun hlt => ?_)
        · rw [show i + 1 + j = i + (j + 1) by omega]
          exact ones (j + 1) (by omega)
        · rw [show i + 1 + k = i + (k + 1) by omega]
          exact stop (by omega)
      simp [onesFrom, first, rest]

/-- Settles O44: a case for each value of A; the NAPOT size is the count of trailing ones. -/
theorem pmpRegions : Obligations.PmpRegions := by
  intro s i _
  refine ⟨fun off => ?_, fun tor => ?_, fun na4 => ?_, fun napot k hk ones stop => ?_⟩
  · simp [State.pmpRegion, pmpA, off]
  · simp [State.pmpRegion, pmpA, tor]
  · simp [State.pmpRegion, pmpA, na4]
  · have count : onesFrom (s.pmpAddr i) 0 s.cfg.xlen.bits = k :=
      onesFrom_eq _ 0 _ k hk (by simpa using ones) (by simpa using stop)
    simp [State.pmpRegion, pmpA, napot, count]

/-! ## The deciding entry (R117) -/

/-- A region shares a byte with an access when the two intervals overlap. -/
theorem pmpTouches_iff (s : State) (i pa n lo hi : Nat) (hr : s.pmpRegion i = some (lo, hi)) :
    pmpTouches s i pa n ↔ max lo pa < min hi (pa + n) := by
  constructor
  · rintro ⟨lo', hi', y, hr', hy⟩
    cases hr.symm.trans hr'
    omega
  · intro h
    exact ⟨lo, hi, max lo pa, hr, by omega⟩

/-- A region holds a non-empty access when its two ends are in it. -/
theorem pmpCovers_iff (s : State) (i pa n lo hi : Nat) (hr : s.pmpRegion i = some (lo, hi)) (hn : 0 < n) :
    pmpCovers s i pa n ↔ lo ≤ pa ∧ pa + n ≤ hi := by
  constructor
  · rintro ⟨lo', hi', hr', inside⟩
    cases hr.symm.trans hr'
    have first := inside pa (by omega) (by omega)
    have last := inside (pa + n - 1) (by omega) (by omega)
    omega
  · intro h
    exact ⟨lo, hi, hr, fun y _ _ => by omega⟩

/-- An entry that matches no byte is passed over. -/
theorem pmpFrom_of_not_touches (s : State) (pa len : Nat) (acc : Access) (p : Mode) (i n : Nat)
    (h : ¬ pmpTouches s i pa len) : s.pmpFrom pa len acc p i (n + 1) = s.pmpFrom pa len acc p (i + 1) n := by
  rw [State.pmpFrom]
  cases hr : s.pmpRegion i with
  | none => rfl
  | some region =>
    obtain ⟨lo, hi⟩ := region
    exact if_neg fun overlap => h ((pmpTouches_iff s i pa len lo hi hr).2 overlap)

/-- So are any number of entries in a row. -/
theorem pmpFrom_skip (s : State) (pa len : Nat) (acc : Access) (p : Mode) (d i n : Nat)
    (h : ∀ j, j < d → ¬ pmpTouches s (i + j) pa len) :
    s.pmpFrom pa len acc p i (d + n) = s.pmpFrom pa len acc p (i + d) n := by
  induction d generalizing i with
  | zero => simp
  | succ d ih =>
    have later : ∀ j, j < d → ¬ pmpTouches s (i + 1 + j) pa len := fun j hj => by
      rw [show i + 1 + j = i + (j + 1) by omega]
      exact h (j + 1) (by omega)
    rw [show d + 1 + n = d + n + 1 by omega, pmpFrom_of_not_touches s pa len acc p i _ (h 0 d.succ_pos), ih _ later,
      show i + 1 + d = i + (d + 1) by omega]

/-- An entry that matches some byte decides: it must hold the whole access and grant it. -/
theorem pmpFrom_of_touches (s : State) (pa len : Nat) (acc : Access) (p : Mode) (i n : Nat)
    (h : pmpTouches s i pa len) :
    s.pmpFrom pa len acc p i (n + 1) = true ↔ pmpCovers s i pa len ∧ pmpGrants (s.pmpCfg i) acc p = true := by
  obtain ⟨lo, hi, y, hr, hy⟩ := id h
  have overlap := (pmpTouches_iff s i pa len lo hi hr).1 h
  rw [pmpCovers_iff s i pa len lo hi hr (by omega), State.pmpFrom, hr]
  simp [overlap]

theorem pmpGrants_iff (b : Byte) (acc : Access) (p : Mode) :
    pmpGrants b acc p = true ↔ (p = .machine ∧ b.getLsbD 7 = false) ∨ (acc = .load ∧ b.getLsbD 0 = true) ∨
      (acc = .store ∧ b.getLsbD 1 = true) ∨ (acc = .fetch ∧ b.getLsbD 2 = true) := by
  cases acc <;> simp [pmpGrants, pmpL, pmpR, pmpW, pmpX]

/-- Settles O45: the entries before the first that matches are passed over, and that one decides. -/
theorem pmpFirstMatchDecides : Obligations.PmpFirstMatchDecides := by
  intro s pa n acc p
  refine ⟨fun noEntries => ?_, fun i hi before first => ?_, fun hpos before => ?_⟩
  · simp [State.pmpCheck, noEntries]
  · have reached : s.pmpCheck pa n acc p = s.pmpFrom pa n acc p i (s.cfg.pmpCount - i - 1 + 1) := by
      have skip := pmpFrom_skip s pa n acc p i 0 (s.cfg.pmpCount - i - 1 + 1) (by simpa using before)
      rw [show i + (s.cfg.pmpCount - i - 1 + 1) = s.cfg.pmpCount by omega, Nat.zero_add] at skip
      simp [State.pmpCheck, skip, show s.cfg.pmpCount ≠ 0 by omega]
    rw [reached, pmpFrom_of_touches s pa n acc p i _ first, pmpGrants_iff]
  · have skip := pmpFrom_skip s pa n acc p s.cfg.pmpCount 0 0 (by simpa using before)
    simp only [Nat.add_zero, State.pmpFrom] at skip
    simp [State.pmpCheck, skip, show s.cfg.pmpCount ≠ 0 by omega]

end Sys2Proof.Machine
end

section
/-! The effective privilege of an access, when translation applies, and the walks that end in a page fault
(20_memory.md R83-R87, R104-R107, R111). -/

namespace Sys2Proof.Machine

/-! ## Privilege (R85, R86) -/

/-- The three mode numbers are read back as they are written; 2 is not one of them. -/
theorem modeCode_modeOfCode (v : BitVec 2) (h : v ≠ 2#2) : modeCode (modeOfCode v) = v.toNat := by
  have listed : ∀ v : BitVec 2, v ≠ 2#2 → modeCode (modeOfCode v) = v.toNat := by decide
  exact listed v h

theorem effPriv_of_mprv_clear (s : State) (acc : Access) (h : s.mstatus.getLsbD 17 = false) : s.effPriv acc = s.priv := by
  cases acc <;> simp [State.effPriv, State.flag, h]

theorem effPriv_of_mprv_set (s : State) (acc : Access) (h : s.mstatus.getLsbD 17 = true) (ha : acc ≠ .fetch) :
    s.effPriv acc = mppOf s.mstatus := by
  cases acc with
  | fetch => exact absurd rfl ha
  | load | store => simp [State.effPriv, State.flag, h]

/-- Settles O46: MPRV clear and set, the latter by the mode number MPP holds. -/
theorem effectivePrivilege : Obligations.EffectivePrivilege := by
  intro s
  refine ⟨rfl, fun acc hacc => ⟨effPriv_of_mprv_clear s acc, fun mprv legal => ?_⟩⟩
  have data : acc ≠ .fetch := by rintro rfl; simp at hacc
  rw [effPriv_of_mprv_set s acc mprv data]
  exact modeCode_modeOfCode _ legal

theorem translated_iff (s : State) (p : Mode) :
    s.translated p = true ↔ s.cfg.hasS = true ∧ s.satpMode s.satp ≠ .bare ∧ (p = .supervisor ∨ p = .user) := by
  have below : p ≠ .machine ↔ p = .supervisor ∨ p = .user := by cases p <;> simp
  simp [State.translated, ← below, and_assoc]

/-- An aligned address to which translation applies goes where its translation sends it (R83). -/
theorem locate_translated (s : State) (va : Word) (acc : Access) (ha : va.toNat % 4 = 0)
    (ht : s.translated (s.effPriv acc) = true) : s.locate va acc = s.translate va acc (s.effPriv acc) := by
  simp [State.locate, ha, ht]

/-- Settles O47: the condition on the bits, and `locate` where it holds and where it fails. -/
theorem whenTranslationApplies : Obligations.WhenTranslationApplies := by
  intro s va acc
  refine ⟨translated_iff s, locate_translated s va acc, fun aligned untranslated => ?_⟩
  refine locate_untranslated s va acc aligned (Bool.eq_false_iff.2 fun ht => ?_)
  obtain ⟨hasS, mode, below⟩ := (translated_iff s _).1 ht
  rcases untranslated with noS | bare | machine
  · simp [noS] at hasS
  · exact mode bare
  · simp [machine] at below

/-! ## Entries (R104-R107) -/

theorem pteInvalid_iff (pte : Word) :
    pteInvalid pte = true ↔ pte.getLsbD 0 = false ∨ (pte.getLsbD 1 = false ∧ pte.getLsbD 2 = true) := by
  simp [pteInvalid, pteV, pteR, pteW]

theorem pteLeaf_iff (pte : Word) : pteLeaf pte = true ↔ pte.getLsbD 1 = true ∨ pte.getLsbD 3 = true := by
  simp [pteLeaf, pteR, pteX]

/-- Below M-mode the permission check is `PermOK` on the bits (R106). -/
theorem permOk_iff (s : State) (pte : Word) (acc : Access) (p : Mode) (hp : p ≠ .machine) :
    s.permOk pte acc p = true ↔ leafPermits s pte acc p := by
  have user : (if p = .user then pteU pte else !pteU pte || (s.flag bitSUM && decide (acc ≠ .fetch))) = true ↔
      ((p = .user ∧ pte.getLsbD 4 = true) ∨ (p = .supervisor ∧ pte.getLsbD 4 = false) ∨
        (p = .supervisor ∧ pte.getLsbD 4 = true ∧ s.mstatus.getLsbD 18 = true ∧ acc ≠ .fetch)) := by
    cases p with
    | machine => exact absurd rfl hp
    | user => simp [pteU]
    | supervisor => cases hu : pteU pte <;> rw [pteU] at hu <;> simp [State.flag, hu, -BitVec.getLsbD_eq_getElem]
  rw [leafPermits, ← user]
  cases acc <;> simp [State.permOk, pteX, pteR, pteW, State.flag, -BitVec.getLsbD_eq_getElem]

theorem misalignedSuperpage_iff (m : SatpMode) (pte : Word) (level : Nat) :
    misalignedSuperpage m pte level = true ↔ ptePpn m pte % 2 ^ (vpnBits m * level) ≠ 0 := by
  simp [misalignedSuperpage]

/-! ## Walks that end in a page fault -/

/-- An entry from which a walk does not go on: invalid (step 3), a pointer with no level left (step 4), or a leaf that
fails step 5 or 6. -/
def DeadEnd (s : State) (m : SatpMode) (acc : Access) (p : Mode) (u : PteUse) : Prop :=
  pteInvalid u.value = true ∨ (u.level = 0 ∧ pteLeaf u.value = false) ∨
    (pteLeaf u.value = true ∧ s.leafOk m acc p u.value u.level = false)

theorem pteReadable_iff (s : State) (m : SatpMode) (addr : Nat) :
    pteReadable s m addr ↔
      (s.pmpCheck addr (pteSize m) .load .supervisor && pmaAllows s.cfg addr (pteSize m) .load) = true := by
  rw [pteReadable, Bool.and_eq_true]

/-- What a walk from a table does at its entry `addr` (R103-R107): it may not read it; it stops there, with a page fault or
with a leaf; or it goes on from a valid pointer. -/
theorem walkFrom_cases (s : State) (m : SatpMode) (va : Word) (acc : Access) (p : Mode) (choice : Nat → Nat)
    (i a addr : Nat) (haddr : addr = a + vpnOf m va i * pteSize m) :
    (¬ pteReadable s m addr ∧ s.walkFrom m va acc p choice (i + 1) a = ⟨[], .accessFault⟩) ∨
      (pteReadable s m addr ∧ pmaDevice s.cfg addr (pteSize m) = true ∧
        s.walkFrom m va acc p choice (i + 1) a = ⟨[], .device⟩) ∨
      (pteReadable s m addr ∧ pmaDevice s.cfg addr (pteSize m) = false ∧
        ∃ value age, s.pteUsed m acc p addr i (choice i) = (value, age) ∧
          ((DeadEnd s m acc p ⟨i, addr, value, age⟩ ∧
              s.walkFrom m va acc p choice (i + 1) a = ⟨[⟨i, addr, value, age⟩], .pageFault⟩) ∨
            (pteInvalid value = false ∧ pteLeaf value = true ∧ s.leafOk m acc p value i = true ∧
              s.walkFrom m va acc p choice (i + 1) a = ⟨[⟨i, addr, value, age⟩], .leaf i addr value⟩) ∨
            (pteInvalid value = false ∧ pteLeaf value = false ∧
              s.walkFrom m va acc p choice (i + 1) a =
                ⟨⟨i, addr, value, age⟩ :: (s.walkFrom m va acc p choice i (ptePpn m value * 4096)).uses,
                  (s.walkFrom m va acc p choice i (ptePpn m value * 4096)).result⟩))) := by
  rw [State.walkFrom, pteReadable_iff]
  dsimp only
  rw [← haddr]
  split
  · next unreadable => exact .inl ⟨by simpa only [Bool.not_eq_true', Bool.not_eq_true] using unreadable, rfl⟩
  next readable =>
  rw [Bool.not_eq_true', Bool.not_eq_false] at readable
  split
  · next device => exact .inr (.inl ⟨readable, device, rfl⟩)
  next memory =>
  refine .inr (.inr ⟨readable, Bool.eq_false_iff.2 memory, _, _, rfl, ?_⟩)
  split
  · next invalid => exact .inl ⟨.inl invalid, rfl⟩
  · next valid =>
    split
    · next leaf =>
      split
      · next ok => exact .inr (.inl ⟨Bool.eq_false_iff.2 valid, leaf, ok, rfl⟩)
      · next bad => exact .inl ⟨.inr (.inr ⟨leaf, Bool.eq_false_iff.2 bad⟩), rfl⟩
    · next pointer => exact .inr (.inr ⟨Bool.eq_false_iff.2 valid, Bool.eq_false_iff.2 pointer, rfl⟩)

/-- A walk that reads a dead end ends in the page fault: nothing follows it but, after a pointer at level 0, the walk with
no level left. -/
theorem walkFrom_pageFault_of_deadEnd (s : State) (m : SatpMode) (va : Word) (acc : Access) (p : Mode)
    (choice : Nat → Nat) (n a : Nat) (u : PteUse) (hu : u ∈ (s.walkFrom m va acc p choice n a).uses)
    (dead : DeadEnd s m acc p u) : (s.walkFrom m va acc p choice n a).result = .pageFault := by
  induction n generalizing a with
  | zero => rfl
  | succ i ih =>
    rcases walkFrom_cases s m va acc p choice i a _ rfl with ⟨_, walk⟩ | ⟨_, _, walk⟩ |
      ⟨_, _, value, age, _, ⟨_, walk⟩ | ⟨valid, leaf, ok, walk⟩ | ⟨valid, pointer, walk⟩⟩
    · rw [walk] at hu
      cases hu
    · rw [walk] at hu
      cases hu
    · rw [walk]
    · rw [walk, List.mem_singleton] at hu
      subst hu
      simp [DeadEnd, valid, leaf, ok] at dead
    · rw [walk] at hu ⊢
      rcases List.mem_cons.1 hu with rfl | later
      · obtain rfl : i = 0 := by simpa [DeadEnd, valid, pointer] using dead
        rfl
      · exact ih _ later

/-- Before the walk there is only the check of the address (R112, R113). -/
theorem walk_cases (s : State) (satp va : Word) (acc : Access) (p : Mode) (choice : Nat → Nat) :
    (translatable (s.satpMode satp) va ∧ s.walk satp va acc p choice =
        s.walkFrom (s.satpMode satp) va acc p choice (levels (s.satpMode satp)) (satpPpn s.cfg.xlen satp * 4096)) ∨
      (¬ translatable (s.satpMode satp) va ∧ s.walk satp va acc p choice = ⟨[], .pageFault⟩) := by
  rw [State.walk, ← canonical_iff]
  split
  · next ok => exact .inl ⟨ok, rfl⟩
  · next bad => exact .inr ⟨bad, rfl⟩

theorem walk_pageFault_of_deadEnd (s : State) (satp va : Word) (acc : Access) (p : Mode) (choice : Nat → Nat)
    (u : PteUse) (hu : u ∈ (s.walk satp va acc p choice).uses) (dead : DeadEnd s (s.satpMode satp) acc p u) :
    (s.walk satp va acc p choice).result = .pageFault := by
  rcases walk_cases s satp va acc p choice with ⟨_, walk⟩ | ⟨_, walk⟩
  · rw [walk] at hu ⊢
    exact walkFrom_pageFault_of_deadEnd s _ va acc p choice _ _ u hu dead
  · rw [walk]

/-- The walk of a translation is one of `State.walk`, under the value of `satp` that goes with it. -/
theorem chosenWalk_is_walk (s : State) (va : Word) (acc : Access) (p : Mode) :
    ∃ choice, (s.chosenWalk va acc p).2 = s.walk (s.chosenWalk va acc p).1 va acc p choice := by
  rcases chosenWalk_cases s va acc p with ⟨satp, _, choice, h, _⟩ | h
  · exact ⟨choice, by rw [h]⟩
  · exact ⟨_, by rw [h]⟩

theorem translate_of_pageFault (s : State) (va : Word) (acc : Access) (p : Mode)
    (h : (s.chosenWalk va acc p).2.result = .pageFault) :
    s.translate va acc p = .raised (pageFaultOf acc) va s.drawn := by
  unfold State.translate
  simp only [h]

/-- Settles O49: each of the five kinds of entry is a dead end, whose walk ends in the page fault. -/
theorem invalidEntryFaults : Obligations.InvalidEntryFaults := by
  refine ⟨by decide, fun s va acc p u hu bits => translate_of_pageFault s va acc p ?_⟩
  have dead : DeadEnd s (s.satpMode (s.chosenWalk va acc p).1) acc p u := by
    rcases bits with invalid | writeOnly | ⟨bottom, noR, noX⟩ | ⟨_, leaf, below, forbids⟩ | ⟨_, leaf, misaligned⟩
    · exact .inl ((pteInvalid_iff _).2 (.inl invalid))
    · exact .inl ((pteInvalid_iff _).2 (.inr writeOnly))
    · exact .inr (.inl ⟨bottom, by simp only [pteLeaf, pteR, pteX, noR, noX, Bool.or_false]⟩)
    · have denied : s.permOk u.value acc p = false :=
        Bool.eq_false_iff.2 fun ok => forbids ((permOk_iff s _ acc p below).1 ok)
      exact .inr (.inr ⟨(pteLeaf_iff _).2 leaf, by simp [State.leafOk, denied]⟩)
    · have off := (misalignedSuperpage_iff _ u.value u.level).2 misaligned
      exact .inr (.inr ⟨(pteLeaf_iff _).2 leaf, by simp [State.leafOk, off]⟩)
  obtain ⟨choice, walk⟩ := chosenWalk_is_walk s va acc p
  rw [walk] at hu ⊢
  exact walk_pageFault_of_deadEnd s _ va acc p choice u hu dead

end Sys2Proof.Machine
end

section
/-! Step 7 of a translation: when A and D are set in memory, and what the write leaves (20_memory.md R108, R123). -/

namespace Sys2Proof.Machine

/-! ## The bits step 7 looks at and sets -/

theorem needsUpdate_eq_false_iff (pte : Word) (acc : Access) :
    needsUpdate pte acc = false ↔ pte.getLsbD 6 = true ∧ (acc = .store → pte.getLsbD 7 = true) := by
  simp [needsUpdate, pteA, pteD]

theorem pteUpdated_eq (pte : Word) (acc : Access) :
    pteUpdated pte acc = pte ||| (if acc = .store then 0xC0#64 else 0x40#64) := by
  unfold pteUpdated
  split <;> rfl

/-- A and D lie in the lowest byte, so an entry of `n` bytes stays one. -/
theorem toNat_pteUpdated_lt (pte : Word) (acc : Access) (n : Nat) (hn : 0 < n) (h : pte.toNat < 256 ^ n) :
    (pteUpdated pte acc).toNat < 256 ^ n := by
  have bytes : 256 ^ n = 2 ^ (8 * n) := by rw [Nat.pow_mul]
  have flags : (if acc = .store then 0xC0#64 else 0x40#64).toNat < 2 ^ (8 * n) :=
    calc (if acc = .store then 0xC0#64 else 0x40#64).toNat
      _ < 2 ^ 8 := by split <;> decide
      _ ≤ 2 ^ (8 * n) := Nat.pow_le_pow_right (by decide) (by omega)
  rw [pteUpdated_eq, BitVec.toNat_or, bytes]
  exact Nat.or_lt_two_pow (bytes ▸ h) flags

/-! ## An entry in memory -/

theorem pteSize_pos (m : SatpMode) : 0 < pteSize m := by cases m <;> decide

theorem toNat_pteAt_lt (s : State) (m : SatpMode) (addr : Nat) : (s.pteAt m addr).toNat < 256 ^ pteSize m := by
  have value := leValue_lt (s.mem.readBytes addr (pteSize m))
  rw [length_readBytes] at value
  exact lt_of_le_of_lt (Nat.mod_le _ _) value

/-- An entry just stored is read back (R82). -/
theorem pteAt_physWrite (s : State) (m : SatpMode) (addr : Nat) (v : Word) (hm : Memory.wf s.mem = true)
    (hv : v.toNat < 256 ^ pteSize m) : (s.physWrite addr (leBytes (pteSize m) v.toNat)).pteAt m addr = v := by
  have stored := readBytes_writeBytes s.mem addr (leBytes (pteSize m) v.toNat) hm
  rw [length_leBytes] at stored
  rw [State.pteAt, physWrite_mem, stored, leValue_leBytes, Nat.mod_eq_of_lt hv, BitVec.ofNat_toNat, BitVec.setWidth_eq]

theorem sameBytesOutside_physWrite (s : State) (pa : Nat) (bs : List Byte) :
    sameBytesOutside s (s.physWrite pa bs) pa bs.length :=
  fun a ha => read_writeBytes_other s.mem pa a bs ha

theorem mem_written_physWrite (s : State) (pa : Nat) (bs : List Byte) (k : Nat) :
    k ∈ (s.physWrite pa bs).written ↔ (∃ j, j < bs.length ∧ k = (pa + j) / 4) ∨ k ∈ s.written := by
  rw [physWrite_written, mem_markWords, or_comm]

/-! ## The leaf a walk ends at -/

/-- A value that would reach step 7 with a bit missing is the current one, not a remembered one (R121). -/
theorem pteUsed_current (s : State) (m : SatpMode) (acc : Access) (p : Mode) (addr level choice : Nat)
    (h : s.reachesUpdate m acc p (s.pteUsed m acc p addr level choice).1 level = true) :
    (s.pteUsed m acc p addr level choice).1 = s.pteAt m addr := by
  unfold State.pteUsed at h ⊢
  dsimp only at h ⊢
  split at h
  · next reread => rw [if_pos reread]
  · next kept => exact absurd h kept

/-- Step 7 never writes over a remembered value: the leaf it updates is the entry in memory. -/
theorem walkFrom_leaf_current (s : State) (m : SatpMode) (va : Word) (acc : Access) (p : Mode) (choice : Nat → Nat)
    (n a level addr : Nat) (pte : Word) (h : (s.walkFrom m va acc p choice n a).result = .leaf level addr pte)
    (hn : needsUpdate pte acc = true) : pte = s.pteAt m addr := by
  induction n generalizing a with
  | zero => cases h
  | succ i ih =>
    rcases walkFrom_cases s m va acc p choice i a _ rfl with ⟨_, walk⟩ | ⟨_, _, walk⟩ |
      ⟨_, _, value, age, used, ⟨_, walk⟩ | ⟨valid, leaf, ok, walk⟩ | ⟨_, _, walk⟩⟩
    · rw [walk] at h
      cases h
    · rw [walk] at h
      cases h
    · rw [walk] at h
      cases h
    · have current := pteUsed_current s m acc p (a + vpnOf m va i * pteSize m) i (choice i)
      rw [used] at current
      rw [walk] at h
      cases h
      exact current (by simp [State.reachesUpdate, valid, leaf, ok, hn])
    · rw [walk] at h
      exact ih _ h

theorem chosenWalk_leaf_current (s : State) (va : Word) (acc : Access) (p : Mode) (level addr : Nat) (pte : Word)
    (h : (s.chosenWalk va acc p).2.result = .leaf level addr pte) (hn : needsUpdate pte acc = true) :
    pte = s.pteAt (s.satpMode (s.chosenWalk va acc p).1) addr := by
  obtain ⟨choice, walk⟩ := chosenWalk_is_walk s va acc p
  rw [walk] at h
  rcases walk_cases s _ va acc p choice with ⟨_, walk⟩ | ⟨_, walk⟩
  · rw [walk] at h
    exact walkFrom_leaf_current s _ va acc p choice _ _ level addr pte h hn
  · rw [walk] at h
    cases h

/-! ## What a translation answers at a leaf -/

theorem pteWritable_iff (s : State) (m : SatpMode) (addr : Nat) :
    pteWritable s m addr ↔
      (s.pmpCheck addr (pteSize m) .store .supervisor && pmaAllows s.cfg addr (pteSize m) .store) = true := by
  rw [pteWritable, Bool.and_eq_true]

section
variable {s : State} {va : Word} {acc : Access} {p : Mode} {level addr : Nat} {pte : Word}

theorem translate_of_clean (hr : (s.chosenWalk va acc p).2.result = .leaf level addr pte)
    (hn : needsUpdate pte acc = false) :
    s.translate va acc p = .ok (physicalAddress (s.satpMode (s.chosenWalk va acc p).1) va pte level) s.drawn := by
  simp [State.translate, hr, hn]

theorem translate_of_adFault (hr : (s.chosenWalk va acc p).2.result = .leaf level addr pte)
    (hn : needsUpdate pte acc = true) (hf : s.adFault = true) :
    s.translate va acc p = .raised (pageFaultOf acc) va s.drawn := by
  simp [State.translate, hr, hn, hf]

/-- Where step 7 does not raise the page fault, PMP and PMA decide between the access fault and the write. -/
theorem translate_of_update (hr : (s.chosenWalk va acc p).2.result = .leaf level addr pte)
    (hn : needsUpdate pte acc = true) (hf : s.adFault = false) :
    (¬ pteWritable s (s.satpMode (s.chosenWalk va acc p).1) addr ∧
        s.translate va acc p = .raised (accessFaultOf acc) va s.drawn) ∨
      (pteWritable s (s.satpMode (s.chosenWalk va acc p).1) addr ∧
        s.translate va acc p = .ok (physicalAddress (s.satpMode (s.chosenWalk va acc p).1) va pte level)
          (s.drawn.physWrite addr
            (leBytes (pteSize (s.satpMode (s.chosenWalk va acc p).1)) (pteUpdated pte acc).toNat))) := by
  rw [pteWritable_iff]
  cases hw : s.pmpCheck addr (pteSize (s.satpMode (s.chosenWalk va acc p).1)) .store .supervisor &&
      pmaAllows s.cfg addr (pteSize (s.satpMode (s.chosenWalk va acc p).1)) .store
  · exact .inl ⟨Bool.false_ne_true, by simp [State.translate, hr, hn, hf, hw, -Bool.not_and]⟩
  · exact .inr ⟨rfl, by simp [State.translate, hr, hn, hf, hw, -Bool.not_and]⟩

end

theorem adFault_of_fault (s : State) (h : s.cfg.adPolicy = .fault) : s.adFault = true := by simp [State.adFault, h]

theorem adFault_of_hardwareUpdate (s : State) (h : s.cfg.adPolicy = .hardwareUpdate) : s.adFault = false := by
  simp [State.adFault, h]

/-- Settles O51: the two answers of step 7 by whether it faults, which the policy decides, or the free choice under
Either. -/
theorem accessedAndDirtyUpdate : Obligations.AccessedAndDirtyUpdate := by
  intro s va acc p level addr pte hwf hr m clean allowed faults denied updates
  have missing : ¬ clean → needsUpdate pte acc = true := fun unclean =>
    Bool.eq_true_of_not_eq_false (mt (needsUpdate_eq_false_iff pte acc).1 unclean)
  have faulting : ¬ clean → s.adFault = true → faults := fun unclean => translate_of_adFault hr (missing unclean)
  have updating : ¬ clean → s.adFault = false → denied ∨ updates := by
    intro unclean hf
    have current : pte = s.pteAt m addr := chosenWalk_leaf_current s va acc p level addr pte hr (missing unclean)
    refine (translate_of_update hr (missing unclean) hf).imp_right fun ⟨writable, result⟩ => ?_
    have stored := pteAt_physWrite s.drawn m addr (pteUpdated pte acc) hwf
      (toNat_pteUpdated_lt pte acc _ (pteSize_pos m) (current ▸ toNat_pteAt_lt s m addr))
    have outside := sameBytesOutside_physWrite s.drawn addr (leBytes (pteSize m) (pteUpdated pte acc).toNat)
    have written := mem_written_physWrite s.drawn addr (leBytes (pteSize m) (pteUpdated pte acc).toNat)
    rw [length_leBytes] at outside written
    exact ⟨writable, _, result, current, stored.trans (pteUpdated_eq pte acc), outside, written, rfl⟩
  refine ⟨fun h => translate_of_clean hr ((needsUpdate_eq_false_iff pte acc).2 h),
    fun unclean policy => faulting unclean (adFault_of_fault s policy),
    fun unclean policy => updating unclean (adFault_of_hardwareUpdate s policy), fun unclean _ => ?_⟩
  cases hf : s.adFault with
  | true => exact .inl (faulting unclean hf)
  | false => exact .inr (updating unclean hf)

end Sys2Proof.Machine
end

section
/-! Trap entry in the terms of the statements: where a trap goes, what it writes and what it leaves
(60_exceptions.md R211, R234-R236). -/

namespace Sys2Proof.Machine

/-! ## Where a trap goes and the cause it writes -/

theorem delegated_iff_goesToS (s : State) (c : Cause) :
    s.delegated c = true ↔ goesToS s (causeIsInterrupt c) (causeCode c) := by
  rw [delegated_iff]
  cases c <;> exact Iff.rfl

theorem causeValue_eq (x : XLen) (c : Cause) :
    causeValue x c = BitVec.ofNat 64 ((if causeIsInterrupt c then 2 ^ (x.bits - 1) else 0) + causeCode c) := by
  cases c <;> simp [causeValue, causeIsInterrupt, causeCode]

/-! ## Trap entry -/

theorem untouchedByTrap_takeTrap (s : State) (c : Cause) (tval epc : Word) :
    UntouchedByTrap s (s.takeTrap c tval epc) where
  regs := readReg_takeTrap s c tval epc
  csrs := by simp [sameOtherCsrs]
  bytes := by simp [sameBytes]
  surroundings := by simp [sameSurroundings]
  record := by simp

/-- Trap entry to M-mode writes MIE, MPIE and MPP of `mstatus`, and no other bit (R235). -/
theorem tookTrapM_takeTrap (s : State) (c : Cause) (tval epc : Word) (h : s.delegated c = false) :
    TookTrapM s (s.takeTrap c tval epc) (causeIsInterrupt c) (causeCode c) tval epc := by
  have rest := untouchedByTrap_takeTrap s c tval epc
  have toM : s.takeTrap c tval epc = s.trapToM c tval epc := by simpa [h] using takeTrap_cases s c tval epc
  rw [toM] at rest ⊢
  exact {
    mepc := rfl
    mcause := causeValue_eq s.cfg.xlen c
    mtval := rfl
    mpie := by
      rw [trapToM_mstatus, getLsbD_withMpp _ _ _ (by decide) (by decide), getLsbD_withBit_other _ _ _ _ (by decide),
        getLsbD_withBit_same _ _ _ (by decide), State.flag]
    mie := by
      rw [trapToM_mstatus, getLsbD_withMpp _ _ _ (by decide) (by decide), getLsbD_withBit_same _ _ _ (by decide)]
    mpp := extract_withMpp _ s.priv
    status := fun i not3 not7 not11 not12 => by
      rw [trapToM_mstatus, getLsbD_withMpp _ _ _ not11 not12, getLsbD_withBit_other _ _ _ _ not3.symm,
        getLsbD_withBit_other _ _ _ _ not7.symm]
    priv := rfl
    pc := rfl
    waiting := rfl
    supervisor := ⟨rfl, rfl, rfl⟩
    rest }

/-- Trap entry to S-mode writes SIE, SPIE and SPP of `mstatus`, and no other bit (R236). -/
theorem tookTrapS_takeTrap (s : State) (c : Cause) (tval epc : Word) (h : s.delegated c = true) :
    TookTrapS s (s.takeTrap c tval epc) (causeIsInterrupt c) (causeCode c) tval epc := by
  have rest := untouchedByTrap_takeTrap s c tval epc
  have toS : s.takeTrap c tval epc = s.trapToS c tval epc := by simpa [h] using takeTrap_cases s c tval epc
  rw [toS] at rest ⊢
  exact {
    sepc := rfl
    scause := causeValue_eq s.cfg.xlen c
    stval := rfl
    spie := by
      rw [trapToS_mstatus, getLsbD_withBit_other _ _ _ _ (by decide), getLsbD_withBit_other _ _ _ _ (by decide),
        getLsbD_withBit_same _ _ _ (by decide), State.flag]
    sie := by
      rw [trapToS_mstatus, getLsbD_withBit_other _ _ _ _ (by decide), getLsbD_withBit_same _ _ _ (by decide)]
    spp := by rw [trapToS_mstatus, getLsbD_withBit_same _ _ _ (by decide)]
    status := fun i not1 not5 not8 => by
      rw [trapToS_mstatus, getLsbD_withBit_other _ _ _ _ not8.symm, getLsbD_withBit_other _ _ _ _ not1.symm,
        getLsbD_withBit_other _ _ _ _ not5.symm]
    priv := rfl
    pc := rfl
    waiting := rfl
    machine := ⟨rfl, rfl, rfl⟩
    rest }

theorem tookTrap_takeTrap (s : State) (c : Cause) (tval epc : Word) :
    TookTrap s (s.takeTrap c tval epc) (causeIsInterrupt c) (causeCode c) tval epc := by
  rw [TookTrap, ← delegated_iff_goesToS]
  exact ⟨tookTrapS_takeTrap s c tval epc, fun h => tookTrapM_takeTrap s c tval epc (Bool.eq_false_iff.2 h)⟩

theorem tookTrap_raise (s : State) (e : Exn) (tval : Word) :
    TookTrap s (s.raise e tval) false (exnCode e) tval s.pc :=
  tookTrap_takeTrap s (.exception e) tval s.pc

/-- An illegal instruction takes code 2 and the word as trap value, where the hart captures it (R217). -/
theorem tookTrap_raiseIllegal (s : State) (w : InstrWord) :
    TookTrap s (s.raiseIllegal w) false 2 (if s.cfg.tvalIllegalBits then w.setWidth 64 else 0#64) s.pc :=
  tookTrap_raise s .illegalInstr (illegalTval s.cfg w)

end Sys2Proof.Machine
end

section
/-! What the decoder answers, by the class of the word (30_encoding.md R142-R148). -/

namespace Sys2Proof

/-! ## A word is what its fields make it -/

theorem getLsbD_field (w : InstrWord) (start len i : Nat) (above : start ≤ i) (below : i < start + len) :
    (w.extractLsb' start len).getLsbD (i - start) = w.getLsbD i := by
  rw [BitVec.getLsbD_extractLsb', Nat.add_sub_cancel' above, decide_eq_true (by omega : i - start < len),
    Bool.true_and]

/-- A SYSTEM word is what its fields make it (I-type). -/
theorem encodeCsr_fields (w : InstrWord) (system : opcodeOf w = opcodeSystem) :
    encodeCsr (funct3Of w) (rdOf w) (csrOf w) (rs1Of w) = w := by
  apply BitVec.eq_of_getLsbD_eq
  intro i hi
  rw [Laws.bit_encodeCsr, ← system]
  split_ifs
  · exact getLsbD_field w 0 7 i (by omega) (by omega)
  · exact getLsbD_field w 7 5 i (by omega) (by omega)
  · exact getLsbD_field w 12 3 i (by omega) (by omega)
  · exact getLsbD_field w 15 5 i (by omega) (by omega)
  · exact getLsbD_field w 20 12 i (by omega) (by omega)

/-- `funct7` is `funct5`, `aq` and `rl`. -/
theorem funct7Of_eq_append (w : InstrWord) :
    funct7Of w = funct5Of w ++ BitVec.ofBool (aqOf w) ++ BitVec.ofBool (rlOf w) := by
  obtain ⟨high, aq, rl⟩ := funct7Of_parts w
  rw [high, aq, rl]
  generalize funct7Of w = f
  revert f
  decide

theorem encode_amoaddW_fields (w : InstrWord) (amo : opcodeOf w = opcodeAmo) (width : funct3Of w = 0b010#3)
    (add : funct5Of w = 0b00000#5) :
    encode (.amoaddW (aqOf w) (rlOf w) (rdOf w) (rs1Of w) (rs2Of w)) = w := by
  rw [encode, ← add, ← width, ← amo, ← funct7Of_eq_append, encodeR_fields]

/-! ## The rows of the opcode table -/

/-- The word of an instruction is in the instruction's row (R142-R145). -/
theorem encode_matches_row (i : Instr) : encode i &&& (opcodeRow i).1 = (opcodeRow i).2 := by
  cases i with
  | ecall => exact Laws.MatchesRow.ecall
  | ebreak => exact Laws.MatchesRow.ebreak
  | sret => exact Laws.MatchesRow.sret
  | mret => exact Laws.MatchesRow.mret
  | wfi => exact Laws.MatchesRow.wfi
  | sfenceVma rs1 rs2 => exact Laws.MatchesRow.sfenceVma rs1 rs2
  | csrrw rd csr rs1 => exact Laws.MatchesRow.csrrw rd csr rs1
  | csrrs rd csr rs1 => exact Laws.MatchesRow.csrrs rd csr rs1
  | csrrc rd csr rs1 => exact Laws.MatchesRow.csrrc rd csr rs1
  | csrrwi rd csr uimm => exact Laws.MatchesRow.csrrwi rd csr uimm
  | csrrsi rd csr uimm => exact Laws.MatchesRow.csrrsi rd csr uimm
  | csrrci rd csr uimm => exact Laws.MatchesRow.csrrci rd csr uimm
  | amoaddW aq rl rd rs1 rs2 => exact Laws.MatchesRow.amoaddW aq rl rd rs1 rs2

/-! ## What the decoder answers -/

/-- The answer is an instruction, and the word is that instruction's. -/
def IsInstrOf (d : Decoded) (w : InstrWord) : Prop := ∃ i, d = .instr i ∧ encode i = w

theorem isInstrOf_csr {w : InstrWord} {f : BitVec 3} {i : Instr} (system : opcodeOf w = opcodeSystem)
    (hf : funct3Of w = f) (hi : encode i = encodeCsr f (rdOf w) (csrOf w) (rs1Of w)) : IsInstrOf (.instr i) w :=
  ⟨i, rfl, by rw [hi, ← hf, encodeCsr_fields w system]⟩

theorem decodePrivileged_cases (w : InstrWord) (system : opcodeOf w = opcodeSystem) (hf : funct3Of w = 0b000#3) :
    IsInstrOf (decodePrivileged w) w ∨ decodePrivileged w = .illegal .reservedSystem := by
  unfold decodePrivileged
  split_ifs with ecall ebreak sret mret wfi fence
  · exact .inl ⟨_, rfl, ecall.symm⟩
  · exact .inl ⟨_, rfl, ebreak.symm⟩
  · exact .inl ⟨_, rfl, sret.symm⟩
  · exact .inl ⟨_, rfl, mret.symm⟩
  · exact .inl ⟨_, rfl, wfi.symm⟩
  · obtain ⟨funct7, rd⟩ := fence
    exact .inl ⟨_, rfl, by rw [encode, ← funct7, ← hf, ← rd, ← system, encodeR_fields]⟩
  · exact .inr rfl

/-- A SYSTEM word is an instruction or reserved (R142-R144, R148). -/
theorem decodeSystem_cases (w : InstrWord) (system : opcodeOf w = opcodeSystem) :
    IsInstrOf (decodeSystem w) w ∨ decodeSystem w = .illegal .reservedSystem := by
  unfold decodeSystem
  split_ifs with privileged csrrw csrrs csrrc csrrwi csrrsi csrrci
  · exact decodePrivileged_cases w system privileged
  · exact .inl (isInstrOf_csr system csrrw rfl)
  · exact .inl (isInstrOf_csr system csrrs rfl)
  · exact .inl (isInstrOf_csr system csrrc rfl)
  · exact .inl (isInstrOf_csr system csrrwi rfl)
  · exact .inl (isInstrOf_csr system csrrsi rfl)
  · exact .inl (isInstrOf_csr system csrrci rfl)
  · exact .inr rfl

/-- The classes (a), (b) and (c) of R147, of the words that match no row. -/
def InIllegalClass (w : InstrWord) : Prop :=
  w.extractLsb' 0 7 = 0b1110011#7 ∨ w = 0x00000000#32 ∨ w = 0xFFFFFFFF#32 ∨ w.extractLsb' 0 2 ≠ 0b11#2

/-- Off the SYSTEM opcode, an unknown word is illegal exactly in the classes (b) and (c). -/
theorem decodeUnknown_cases (w : InstrWord) (notSystem : opcodeOf w ≠ opcodeSystem) :
    (InIllegalClass w ∧ ∃ why, decodeUnknown w = .illegal why) ∨
      (¬ InIllegalClass w ∧ decodeUnknown w = .outside) := by
  unfold decodeUnknown
  split_ifs with zeros ones short
  · exact .inl ⟨.inr (.inl zeros), _, rfl⟩
  · exact .inl ⟨.inr (.inr (.inl ones)), _, rfl⟩
  · exact .inl ⟨.inr (.inr (.inr short)), _, rfl⟩
  · refine .inr ⟨?_, rfl⟩
    rintro (system | isZeros | isOnes | isShort)
    · exact notSystem system
    · exact zeros isZeros
    · exact ones isOnes
    · exact short isShort

/-- Everything the decoder can answer: an instruction, whose word it then is; illegal, in the classes (a) to (c); or
outside this spec, in class (d). -/
theorem decode_cases (w : InstrWord) :
    IsInstrOf (decode w) w ∨ (InIllegalClass w ∧ ∃ why, decode w = .illegal why) ∨
      (¬ InIllegalClass w ∧ decode w = .outside) := by
  unfold decode
  split_ifs with system amoadd
  · exact (decodeSystem_cases w system).imp_right fun reserved => .inl ⟨.inl system, _, reserved⟩
  · obtain ⟨amo, width, add⟩ := amoadd
    exact .inl ⟨_, rfl, encode_amoaddW_fields w amo width add⟩
  · exact .inr (decodeUnknown_cases w system)

theorem not_isInstrOf_of_no_row (w : InstrWord) (unmatched : ∀ i, w &&& (opcodeRow i).1 ≠ (opcodeRow i).2) :
    ¬ IsInstrOf (decode w) w := by
  rintro ⟨i, -, rfl⟩
  exact unmatched i (encode_matches_row i)

end Sys2Proof
end

section
/-! A fetched word that is no instruction (30_encoding.md R147, R148). -/

namespace Sys2Proof.Machine

theorem runWord_of_illegal (s : State) {w : InstrWord} {why : IllegalWord} (h : decode w = .illegal why) :
    s.runWord w = .next (s.raiseIllegal w) := by
  rw [State.runWord, h]

theorem runWord_of_outside (s : State) {w : InstrWord} (h : decode w = .outside) :
    s.runWord w = .refused .wordOutsideSpec := by
  rw [State.runWord, h]

/-- Settles O4: with no row matched, the decoder's answer is illegal or outside, by the class of the word. -/
theorem unknownWordClasses : Obligations.UnknownWordClasses := by
  intro s w unmatched
  rcases decode_cases w with isInstr | ⟨illegal, why, answer⟩ | ⟨legal, answer⟩
  · exact absurd isInstr (not_isInstrOf_of_no_row w unmatched)
  · exact ⟨fun _ => ⟨_, runWord_of_illegal s answer, tookTrap_raiseIllegal s w⟩, fun legal => absurd illegal legal⟩
  · exact ⟨fun illegal => absurd illegal legal, fun _ => runWord_of_outside s answer⟩

end Sys2Proof.Machine
end

section
/-! Returning from a trap taken to M-mode: the bits of `mstatus` that `mret` writes, the mode it returns to, and what it
leaves (40_trap_return.md R160). -/

namespace Sys2Proof.Machine

/-! ## Which way `mret` goes -/

theorem exec_mret (s : State) :
    exec .mret s = .next (if s.priv = .machine then s.returnFromM else s.raiseIllegal (encode .mret)) := rfl

theorem exec_mret_of_machine {s : State} (h : s.priv = .machine) : exec .mret s = .next s.returnFromM := by
  rw [exec_mret, if_pos h]

theorem exec_mret_of_not_machine {s : State} (h : s.priv ≠ .machine) :
    exec .mret s = .next (s.raiseIllegal (encode .mret)) := by
  rw [exec_mret, if_neg h]

/-! ## The bits of `mstatus` after the return -/

theorem returnFromM_mie_bit (s : State) : s.returnFromM.mstatus.getLsbD 3 = s.mstatus.getLsbD 7 := by
  rw [returnFromM_mstatus, getLsbD_withMpp _ _ _ (by decide) (by decide), getLsbD_withBit_other _ _ _ _ (by decide),
    getLsbD_withBit_same _ _ _ (by decide), State.flag]

theorem returnFromM_mpie_bit (s : State) : s.returnFromM.mstatus.getLsbD 7 = true := by
  rw [returnFromM_mstatus, getLsbD_withMpp _ _ _ (by decide) (by decide), getLsbD_withBit_same _ _ _ (by decide)]

/-- MPP becomes the least-privileged mode the hart has. -/
theorem returnFromM_mpp_field (s : State) :
    s.returnFromM.mstatus.extractLsb' 11 2 = if s.cfg.hasU then 0#2 else 3#2 := by
  rw [returnFromM_mstatus, extract_withMpp]
  split_ifs
  · rfl
  · rfl

theorem returnFromM_other_bits (s : State) (i : Nat) (not3 : i ≠ 3) (not7 : i ≠ 7) (not11 : i ≠ 11) (not12 : i ≠ 12) :
    s.returnFromM.mstatus.getLsbD i = s.mstatus.getLsbD i := by
  rw [returnFromM_mstatus, getLsbD_withMpp _ _ _ not11 not12, getLsbD_withBit_other _ _ _ _ not7.symm,
    getLsbD_withBit_other _ _ _ _ not3.symm]

/-! ## The mode it returns to -/

theorem returnFromM_priv_of_mpp {s : State} {v : BitVec 2} (h : s.mstatus.extractLsb' 11 2 = v) :
    s.returnFromM.priv = modeOfCode v := by
  rw [returnFromM_priv, mppOf, h]

/-- Settles O22: the return in M-mode, field by field, and the trap elsewhere. -/
theorem mretResult : Obligations.MretResult := by
  intro s
  by_cases machine : s.priv = .machine
  · refine ⟨s.returnFromM, exec_mret_of_machine machine, fun _ => ?_, fun below => absurd machine below⟩
    exact ⟨returnFromM_pc s, returnFromM_priv_of_mpp, returnFromM_priv_of_mpp, returnFromM_priv_of_mpp,
      returnFromM_mie_bit s, returnFromM_mpie_bit s, returnFromM_mpp_field s, returnFromM_other_bits s, rfl⟩
  · exact ⟨s.raiseIllegal (encode .mret), exec_mret_of_not_machine machine, fun isMachine => absurd isMachine machine,
      fun _ => tookTrap_raiseIllegal s (encode .mret)⟩

end Sys2Proof.Machine
end

section
/-! The cause values and the traps of `ecall` and `ebreak` (60_exceptions.md R211-R213, R218, R223-R225, R234-R236;
42_ecall_ebreak.md). -/

namespace Sys2Proof.Machine

/-! ## Cause values (R211) -/

theorem exnCode_le (e : Exn) : exnCode e ≤ 15 := by
  cases e <;> decide

theorem interruptCode_le (i : Interrupt) : interruptCode i ≤ 11 := by
  cases i <;> decide

/-- No bit of the cause is lost: the code leaves the Interrupt bit alone, and both fit in a register. -/
theorem toNat_causeValue (x : XLen) (c : Cause) :
    (causeValue x c).toNat = (if causeIsInterrupt c then 2 ^ (x.bits - 1) else 0) + causeCode c := by
  rw [causeValue_eq, BitVec.toNat_ofNat]
  apply Nat.mod_eq_of_lt
  cases c with
  | exception e =>
    have code : exnCode e ≤ 15 := exnCode_le e
    simp only [causeIsInterrupt, causeCode, Bool.false_eq_true, if_false]
    omega
  | interrupt i =>
    have code : interruptCode i ≤ 11 := interruptCode_le i
    have bit : 2 ^ (x.bits - 1) ≤ 2 ^ 63 := by cases x <;> decide
    simp only [causeIsInterrupt, causeCode, if_true]
    omega

/-- Settles O16: the value of either kind of cause, and the two tables of codes. -/
theorem causeEncoding : Obligations.CauseEncoding := by
  refine ⟨fun x c => ?_, by decide⟩
  rw [toNat_causeValue]
  cases c with
  | exception e => exact Nat.zero_add _
  | interrupt i => rfl

/-! ## Trap entry (R234-R236) -/

/-- Settles O17: trap entry for the two kinds of cause. -/
theorem trapEntry : Obligations.TrapEntry := fun s tval epc =>
  ⟨fun e => tookTrap_takeTrap s (.exception e) tval epc, fun i => tookTrap_takeTrap s (.interrupt i) tval epc⟩

/-- No trap from M-mode is delegated (R234). -/
theorem not_goesToS_of_machine {s : State} {isInterrupt : Bool} {code : Nat} (h : s.priv = .machine) :
    ¬ goesToS s isInterrupt code :=
  fun ⟨_, below, _⟩ => below h

/-! ## `ecall` and `ebreak` (R180, R181) -/

theorem exec_ecall (s : State) : exec .ecall s = .next (s.raise (ecallOf s.priv) 0#64) := rfl

theorem exec_ebreak (s : State) : exec .ebreak s = .next (s.raise .breakpoint 0#64) := rfl

/-- The environment call of the mode the hart is in, with that mode's code. -/
theorem tookTrap_raise_ecallOf {s : State} {p : Mode} (h : s.priv = p) :
    TookTrap s (s.raise (ecallOf s.priv) 0#64) false (exnCode (ecallOf p)) 0#64 s.pc := by
  subst h
  exact tookTrap_raise s (ecallOf s.priv) 0#64

/-- Settles O20: the environment call of each mode; from M-mode the trap stays in M-mode. -/
theorem ecallTraps : Obligations.EcallTraps := fun s =>
  ⟨_, exec_ecall s, fun user => tookTrap_raise_ecallOf user, fun supervisor => tookTrap_raise_ecallOf supervisor,
    fun machine => (tookTrap_raise_ecallOf machine).2 (not_goesToS_of_machine machine)⟩

/-- Settles O21: a breakpoint raises its exception in every mode. -/
theorem ebreakTraps : Obligations.EbreakTraps := fun s => ⟨_, exec_ebreak s, tookTrap_raise s .breakpoint 0#64⟩

end Sys2Proof.Machine
end

section
/-! What reset leaves (10_state.md R61; 70_reset_and_hazards.md R270). -/

namespace Sys2Proof.Machine

/-! ## `mstatus` -/

/-- Reset sets no bit of `mstatus` but those of MPP, and these only where R26 hardwires the field. -/
theorem resetOf_mstatus_bit (c : Config) {i : Nat} (not11 : i ≠ 11) (not12 : i ≠ 12) :
    (State.resetOf c).mstatus.getLsbD i = false := by
  have value : (State.resetOf c).mstatus = if c.hasU then 0#64 else maskMPP := rfl
  rw [value]
  split_ifs
  · exact BitVec.getLsbD_zero
  · simp [getLsbD_maskMPP, not11, not12]

/-! ## The PMP entries -/

@[simp] theorem resetOf_pmpCfg (c : Config) (i : Nat) : (State.resetOf c).pmpCfg i = 0#8 := by
  simp [State.pmpCfg, State.resetOf]

/-- An entry that is OFF has no region, whatever its address register (20_memory.md R116). -/
theorem pmpRegion_of_off {s : State} {i : Nat} (off : pmpA (s.pmpCfg i) = 0#2) : s.pmpRegion i = none := by
  simp [State.pmpRegion, off]

/-! ## The ROM -/

/-- A memory in canonical form lists no address twice, so each cell is what its address reads as. -/
theorem read_of_mem {m : Memory} (canonical : Memory.wf m = true) {cell : Host.Cell} (listed : cell ∈ m) :
    m.read cell.1 = cell.2 := by
  induction m with
  | nil => simp at listed
  | cons first rest ih =>
    obtain ⟨_, above, canonicalRest⟩ := (wf_cons first rest).1 canonical
    rw [Memory.read]
    rcases List.mem_cons.1 listed with rfl | inRest
    · rw [if_pos rfl]
    · rw [if_neg (above cell inRest).ne]
      exact ih canonicalRest inRest

/-- Settles O54: what R61 and R270 state, the ROM by the canonical form of its contents. -/
theorem resetValues : Obligations.ResetValues := by
  intro c
  have lowBits : ∀ i ∈ [0, 2, 4, 6, 9, 10, 13, 14, 15, 16], i ≠ 11 ∧ i ≠ 12 := by decide
  have allOff : ∀ i, pmpA ((State.resetOf c).pmpCfg i) = 0#2 := fun i => by rw [resetOf_pmpCfg]; rfl
  have allUnlocked : ∀ i, pmpL ((State.resetOf c).pmpCfg i) = false := fun i => by rw [resetOf_pmpCfg]; rfl
  refine ⟨rfl, rfl, rfl, readReg_zero _, resetOf_mstatus_bit c (by decide) (by decide),
    resetOf_mstatus_bit c (by decide) (by decide), fun i low => ?_, fun i high => ?_, rfl,
    fun i => ⟨allUnlocked i, allOff i⟩, fun i => pmpRegion_of_off (allOff i),
    fun canonical _ listed => read_of_mem canonical listed, rfl, rfl⟩
  · obtain ⟨not11, not12⟩ := lowBits i low
    exact resetOf_mstatus_bit c not11 not12
  · exact resetOf_mstatus_bit c (by omega) (by omega)

end Sys2Proof.Machine
end

section
/-! The two directions of the encoding and the rows of the opcode table (30_encoding.md R140-R146, R153). -/

namespace Sys2Proof

/-! ## Decoding a word by its fields (R142-R145) -/

theorem decode_of_system {w : InstrWord} (system : opcodeOf w = opcodeSystem) : decode w = decodeSystem w := by
  rw [decode, if_pos system]

theorem decode_of_privileged {w : InstrWord} (system : opcodeOf w = opcodeSystem) (f3 : funct3Of w = 0b000#3) :
    decode w = decodePrivileged w := by
  rw [decode_of_system system, decodeSystem, if_pos f3]

/-- `funct7` tells `sfence.vma` from the five fixed words. -/
theorem decode_of_fence {w : InstrWord} (system : opcodeOf w = opcodeSystem) (f3 : funct3Of w = 0b000#3)
    (f7 : funct7Of w = 0b0001001#7) (rd : rdOf w = 0#5) :
    decode w = .instr (.sfenceVma (rs1Of w) (rs2Of w)) := by
  have unlike : ∀ fixed : InstrWord, funct7Of fixed ≠ 0b0001001#7 → w ≠ fixed := fun _ other same => other (same ▸ f7)
  rw [decode_of_privileged system f3, decodePrivileged, if_neg (unlike _ (by decide)), if_neg (unlike _ (by decide)),
    if_neg (unlike _ (by decide)), if_neg (unlike _ (by decide)), if_neg (unlike _ (by decide)), if_pos ⟨f7, rd⟩]

theorem decode_of_amoadd {w : InstrWord} (amo : opcodeOf w = opcodeAmo) (f3 : funct3Of w = 0b010#3)
    (f5 : funct5Of w = 0b00000#5) :
    decode w = .instr (.amoaddW (aqOf w) (rlOf w) (rdOf w) (rs1Of w) (rs2Of w)) := by
  have notSystem : opcodeOf w ≠ opcodeSystem := by rw [amo]; decide
  rw [decode, if_neg notSystem, if_pos ⟨amo, f3, f5⟩]

/-! ## Decode after encode -/

theorem decode_encode_sfenceVma (rs1 rs2 : RegIdx) :
    decode (encode (.sfenceVma rs1 rs2)) = .instr (.sfenceVma rs1 rs2) := by
  rw [encode, decode_of_fence (opcodeOf_encodeR ..) (funct3Of_encodeR ..) (funct7Of_encodeR ..) (rdOf_encodeR ..),
    rs1Of_encodeR, rs2Of_encodeR]

/-- The three parts of the `funct7` of `amoadd.w` are read back. -/
theorem funct7_amoadd_parts (aq rl : Bool) :
    (0b00000#5 ++ BitVec.ofBool aq ++ BitVec.ofBool rl).extractLsb' 2 5 = 0b00000#5 ∧
      (0b00000#5 ++ BitVec.ofBool aq ++ BitVec.ofBool rl).getLsbD 1 = aq ∧
      (0b00000#5 ++ BitVec.ofBool aq ++ BitVec.ofBool rl).getLsbD 0 = rl := by
  revert aq rl
  decide

theorem decode_encode_amoaddW (aq rl : Bool) (rd rs1 rs2 : RegIdx) :
    decode (encode (.amoaddW aq rl rd rs1 rs2)) = .instr (.amoaddW aq rl rd rs1 rs2) := by
  rw [encode]
  generalize hw : encodeR (0b00000#5 ++ BitVec.ofBool aq ++ BitVec.ofBool rl) rs2 rs1 0b010#3 rd opcodeAmo = w
  obtain ⟨f5, isAq, isRl⟩ := funct7Of_parts w
  rw [← hw, funct7Of_encodeR] at f5 isAq isRl
  obtain ⟨partF5, partAq, partRl⟩ := funct7_amoadd_parts aq rl
  rw [partF5] at f5
  rw [partAq] at isAq
  rw [partRl] at isRl
  rw [← hw, decode_of_amoadd (opcodeOf_encodeR ..) (funct3Of_encodeR ..) f5, isAq, isRl, rdOf_encodeR, rs1Of_encodeR,
    rs2Of_encodeR]

/-- The fields of a CSR instruction's word, as the decoder reads them. -/
theorem decode_encodeCsr (f : BitVec 3) (rd : RegIdx) (csr : CsrNum) (rs1 : BitVec 5) :
    decode (encodeCsr f rd csr rs1) = decodeSystem (encodeCsr f rd csr rs1) :=
  decode_of_system (opcodeOf_encodeCsr ..)

theorem decode_encode (i : Instr) : decode (encode i) = .instr i := by
  cases i with
  | ecall | ebreak | sret | mret | wfi => rfl
  | sfenceVma rs1 rs2 => exact decode_encode_sfenceVma rs1 rs2
  | csrrw rd csr rs | csrrs rd csr rs | csrrc rd csr rs | csrrwi rd csr rs | csrrsi rd csr rs | csrrci rd csr rs =>
    simp [encode, decode_encodeCsr, decodeSystem, funct3Of_encodeCsr, rdOf_encodeCsr, csrOf_encodeCsr, rs1Of_encodeCsr]
  | amoaddW aq rl rd rs1 rs2 => exact decode_encode_amoaddW aq rl rd rs1 rs2

/-- A word's four little-endian bytes decode as the word, whatever follows (R140). -/
theorem decodeBytes_leBytes (w : InstrWord) (rest : List Byte) :
    decodeBytes (leBytes 4 w.toNat ++ rest) = some (decode w, rest) := by
  have value : BitVec.ofNat 32 (leValue (leBytes 4 w.toNat)) = w := by
    rw [Machine.leValue_leBytes, show 256 ^ 4 = 2 ^ 32 by rfl, Nat.mod_eq_of_lt w.isLt, BitVec.ofNat_toNat, BitVec.setWidth_eq]
  calc decodeBytes (leBytes 4 w.toNat ++ rest)
    _ = some (decode (BitVec.ofNat 32 (leValue (leBytes 4 w.toNat))), rest) := rfl
    _ = some (decode w, rest) := by rw [value]

/-- Settles O1: the fields of each format are read back, and a word is its bytes. -/
theorem decodeEncodeRoundTrip : Obligations.DecodeEncodeRoundTrip := fun i rest =>
  ⟨decode_encode i, by rw [decodeBytes_leBytes, decode_encode]⟩

/-! ## Encode after decode -/

theorem encode_of_decode {w : InstrWord} {i : Instr} (h : decode w = .instr i) : encode i = w := by
  rcases decode_cases w with ⟨j, isInstr, word⟩ | ⟨_, _, illegal⟩ | ⟨_, outside⟩
  · cases isInstr.symm.trans h
    exact word
  · cases illegal.symm.trans h
  · cases outside.symm.trans h

/-- Settles O2: what the decoder answers is an instruction only where the word is that instruction's. -/
theorem encodeDecodeRoundTrip : Obligations.EncodeDecodeRoundTrip := fun _ _ => encode_of_decode

/-! ## The rows of the opcode table (R153) -/

/-- A field that the mask holds whole is read off the match value. -/
theorem field_of_masked {w mask value : InstrWord} (h : w &&& mask = value) {start len : Nat} {field : BitVec len}
    (whole : mask.extractLsb' start len = BitVec.allOnes len) (isField : value.extractLsb' start len = field) :
    w.extractLsb' start len = field := by
  rw [← isField, ← h, BitVec.extractLsb'_and, whole, BitVec.and_allOnes]

/-- A word under a mask of all ones is its row's match value. -/
theorem eq_of_masked {w value : InstrWord} (h : w &&& 0xFFFFFFFF#32 = value) : w = value :=
  BitVec.and_allOnes.symm.trans h

/-- A word that matches a row decodes to an instruction of that row. -/
theorem decode_of_matches_row {w : InstrWord} {i : Instr} (h : w &&& (opcodeRow i).1 = (opcodeRow i).2) :
    ∃ j, decode w = .instr j ∧ opcodeRow j = opcodeRow i := by
  cases i with
  | ecall => exact ⟨.ecall, by rw [eq_of_masked h]; rfl, rfl⟩
  | ebreak => exact ⟨.ebreak, by rw [eq_of_masked h]; rfl, rfl⟩
  | sret => exact ⟨.sret, by rw [eq_of_masked h]; rfl, rfl⟩
  | mret => exact ⟨.mret, by rw [eq_of_masked h]; rfl, rfl⟩
  | wfi => exact ⟨.wfi, by rw [eq_of_masked h]; rfl, rfl⟩
  | sfenceVma _ _ =>
    dsimp only [opcodeRow] at h
    exact ⟨_, decode_of_fence (field_of_masked h (by decide) (by decide)) (field_of_masked h (by decide) (by decide))
      (field_of_masked h (by decide) (by decide)) (field_of_masked h (by decide) (by decide)), rfl⟩
  | csrrw _ _ _ | csrrs _ _ _ | csrrc _ _ _ | csrrwi _ _ _ | csrrsi _ _ _ | csrrci _ _ _ =>
    dsimp only [opcodeRow] at h
    have system : opcodeOf w = opcodeSystem := field_of_masked h (by decide) (by decide)
    have f3 := field_of_masked h (start := 12) (len := 3) (by decide) rfl
    rw [decode_of_system system, decodeSystem, funct3Of, f3]
    refine ⟨_, rfl, ?_⟩
    rfl
  | amoaddW _ _ _ _ _ =>
    dsimp only [opcodeRow] at h
    exact ⟨_, decode_of_amoadd (field_of_masked h (by decide) (by decide)) (field_of_masked h (by decide) (by decide))
      (field_of_masked h (by decide) (by decide)), rfl⟩

theorem matches_row_of_decode {w : InstrWord} {j : Instr} (h : decode w = .instr j) :
    w &&& (opcodeRow j).1 = (opcodeRow j).2 := by
  rw [← encode_of_decode h]
  exact encode_matches_row j

/-- Settles O3: a word in two rows would decode to instructions of both; and each row is what the decoder answers. -/
theorem decodeFollowsTable : Obligations.DecodeFollowsTable := by
  refine ⟨fun w i j inI inJ => ?_, fun w i => ⟨decode_of_matches_row, ?_⟩⟩
  · obtain ⟨i', decodedI, rowI⟩ := decode_of_matches_row inI
    obtain ⟨j', decodedJ, rowJ⟩ := decode_of_matches_row inJ
    cases decodedI.symm.trans decodedJ
    exact rowI.symm.trans rowJ
  · rintro ⟨j, decoded, row⟩
    rw [← row]
    exact matches_row_of_decode decoded

/-- Settles O5: each printed word, evaluated. -/
theorem printedWordsDecode : Obligations.PrintedWordsDecode := by
  refine ⟨rfl, rfl, rfl, rfl, rfl, rfl, rfl, rfl, rfl, rfl, rfl, rfl, rfl, rfl⟩

end Sys2Proof
end

section
/-! Every step keeps the invariant: one lemma a field that an operation writes, then the operations, the instructions
and the step (10_state.md R20-R57; 20_memory.md R80). -/

namespace Sys2Proof.Machine

/-! ## Bits outside a mask -/

/-- A word has no bit outside a mask. -/
theorem and_not_eq_zero_iff (w mask : Word) :
    w &&& ~~~mask = 0#64 ↔ ∀ i, w.getLsbD i = true → mask.getLsbD i = true := by
  constructor
  · intro h i hw
    have bit : (w &&& ~~~mask).getLsbD i = false := by rw [h]; simp
    have hi : i < 64 := BitVec.lt_of_getLsbD hw
    simpa [hw, hi, -BitVec.getLsbD_eq_getElem] using bit
  · intro h
    apply BitVec.eq_of_getLsbD_eq
    intro i hi
    have := h i
    cases hw : w.getLsbD i
    · simp [hw, -BitVec.getLsbD_eq_getElem]
    · simp [hw, this hw, -BitVec.getLsbD_eq_getElem]

theorem masked_and_not_eq_zero (w mask : Word) : w &&& mask &&& ~~~mask = 0#64 := by
  simp [BitVec.and_assoc]

/-- Writing under a part of the mask keeps a word inside the mask. -/
theorem withMask_inside {old new part mask : Word} (ho : old &&& ~~~mask = 0#64)
    (hp : ∀ i, part.getLsbD i = true → mask.getLsbD i = true) : withMask old new part &&& ~~~mask = 0#64 := by
  rw [and_not_eq_zero_iff] at ho ⊢
  intro i hi
  rw [getLsbD_withMask] at hi
  split at hi
  · next inPart => exact hp i inPart
  · exact ho i hi

/-- So does setting or clearing one of its bits. -/
theorem withBit_inside {w mask : Word} {i : Nat} {b : Bool} (hw : w &&& ~~~mask = 0#64)
    (hi : mask.getLsbD i = true) : withBit w i b &&& ~~~mask = 0#64 := by
  refine withMask_inside hw fun j hj => ?_
  rw [BitVec.getLsbD_twoPow] at hj
  simp only [Bool.and_eq_true, decide_eq_true_eq] at hj
  exact hj.2 ▸ hi

/-- A word inside a mask that is an XLEN-bit value is one. -/
theorem fits_of_inside {x : XLen} {w mask : Word} (h : w &&& ~~~mask = 0#64) (hm : fits x mask) : fits x w := by
  have same : w = mask &&& w := by
    apply BitVec.eq_of_getLsbD_eq
    intro i _
    rw [BitVec.getLsbD_and]
    cases hw : w.getLsbD i
    · simp
    · simp [(and_not_eq_zero_iff w mask).1 h i hw, -BitVec.getLsbD_eq_getElem]
  rw [same]
  exact fits_and x mask w hm

theorem fits_zero (x : XLen) : fits x 0#64 := fits_low x 0 (by decide)

theorem fits_setWidth {n : Nat} (x : XLen) (v : BitVec n) (h : n ≤ 32) : fits x (v.setWidth 64) := by
  have small : v.toNat < 2 ^ 32 := lt_of_lt_of_le v.isLt (Nat.pow_le_pow_right (by decide) h)
  have value : v.setWidth 64 = BitVec.ofNat 64 v.toNat := by
    apply BitVec.eq_of_toNat_eq
    simp
  rw [value]
  exact fits_low x _ small

theorem fits_sextXlen (x : XLen) (v : BitVec 32) : fits x (sextXlen x v) := by
  cases x with
  | rv32 => exact fits_setWidth .rv32 v (Nat.le_refl 32)
  | rv64 => rfl

theorem fits_causeValue (x : XLen) (c : Cause) : fits x (causeValue x c) := by
  cases x with
  | rv64 => rfl
  | rv32 =>
    cases c with
    | exception e => exact fits_low .rv32 _ (lt_of_le_of_lt (exnCode_le e) (by decide))
    | interrupt i =>
      have code := interruptCode_le i
      exact fits_low .rv32 _ (by simp only [XLen.bits]; omega)

theorem fits_illegalTval (x : XLen) (c : Config) (w : InstrWord) : fits x (illegalTval c w) := by
  unfold illegalTval
  split
  · exact fits_setWidth x w (Nat.le_refl 32)
  · exact fits_zero x

/-! ## `mstatus` -/

/-- What the invariant says of an `mstatus` value. -/
structure MstatusOk (c : Config) (m : Word) : Prop where
  mpp : legalMpp c (m.extractLsb' 11 2) = true
  hardwired : m &&& ~~~(mstatusWritable c ||| maskMPP) = 0#64

/-- The bits of `mstatus` that can be other than zero lie below 32. -/
theorem MstatusOk.fits {c : Config} {m : Word} (h : MstatusOk c m) (x : XLen) : fits x m := by
  have masks : ∀ hasS hasU : Bool, ((0x88#64 ||| (if hasS then 0x7C0122#64 else 0#64) |||
      (if hasU then 0x20000#64 else 0#64)) ||| maskMPP).toNat < 2 ^ 32 := by decide
  have small : (mstatusWritable c ||| maskMPP).toNat < 2 ^ 32 := masks c.hasS c.hasU
  refine fits_of_inside h.hardwired ?_
  have := fits_low x _ small
  rwa [BitVec.ofNat_toNat, BitVec.setWidth_eq] at this

theorem getLsbD_writable_machine (c : Config) {i : Nat} (h : i = 3 ∨ i = 7) :
    (mstatusWritable c ||| maskMPP).getLsbD i = true := by
  unfold mstatusWritable
  rcases h with rfl | rfl <;> cases c.hasS <;> cases c.hasU <;> decide

theorem getLsbD_writable_supervisor {c : Config} (hasS : c.hasS = true) {i : Nat}
    (h : i = 1 ∨ i = 5 ∨ i = 8) : (mstatusWritable c ||| maskMPP).getLsbD i = true := by
  unfold mstatusWritable
  rw [hasS]
  rcases h with rfl | rfl | rfl <;> cases c.hasU <;> decide

theorem MstatusOk.withBit {c : Config} {m : Word} (h : MstatusOk c m) {i : Nat} {b : Bool}
    (hi : (mstatusWritable c ||| maskMPP).getLsbD i = true) (h11 : i ≠ 11) (h12 : i ≠ 12) :
    MstatusOk c (withBit m i b) where
  mpp := by rw [extract_withBit m i b h11 h12]; exact h.mpp
  hardwired := withBit_inside h.hardwired hi

theorem legalMpp_modeCode (c : Config) (p : Mode) (h : hasMode c p = true) :
    legalMpp c (BitVec.ofNat 2 (modeCode p)) = true := by
  cases p <;> simpa [legalMpp, modeCode, modeOfCode] using h

theorem maskMPP_inside (c : Config) (i : Nat) (h : maskMPP.getLsbD i = true) :
    (mstatusWritable c ||| maskMPP).getLsbD i = true := by
  rw [BitVec.getLsbD_or, h, Bool.or_true]

theorem MstatusOk.withMpp {c : Config} {m : Word} (h : MstatusOk c m) {p : Mode} (hp : hasMode c p = true) :
    MstatusOk c (withMpp m p) where
  mpp := by rw [extract_withMpp]; exact legalMpp_modeCode c p hp
  hardwired := withMask_inside h.hardwired (maskMPP_inside c)

/-- MPP holds a mode the hart has, and so does what `mret` returns to. -/
theorem MstatusOk.hasMode_mppOf {c : Config} {m : Word} (h : MstatusOk c m) : hasMode c (mppOf m) = true := by
  have legal := h.mpp
  simp only [legalMpp, Bool.and_eq_true] at legal
  exact legal.2

theorem extract_withMask_of_clear {old new mask : Word} (h11 : mask.getLsbD 11 = false) (h12 : mask.getLsbD 12 = false) :
    (withMask old new mask).extractLsb' 11 2 = old.extractLsb' 11 2 := by
  apply BitVec.eq_of_getLsbD_eq
  intro i hi
  have : i = 0 ∨ i = 1 := by omega
  rw [BitVec.getLsbD_extractLsb', BitVec.getLsbD_extractLsb', getLsbD_withMask]
  rcases this with rfl | rfl
  · rw [h11]; rfl
  · rw [h12]; rfl

theorem extract_withMask_maskMPP (old new : Word) :
    (withMask old new maskMPP).extractLsb' 11 2 = new.extractLsb' 11 2 := by
  apply BitVec.eq_of_getLsbD_eq
  intro i hi
  have : i = 0 ∨ i = 1 := by omega
  rw [BitVec.getLsbD_extractLsb', BitVec.getLsbD_extractLsb', getLsbD_withMask, getLsbD_maskMPP]
  rcases this with rfl | rfl <;> rfl

theorem mstatusWritable_no_mpp (c : Config) :
    (mstatusWritable c).getLsbD 11 = false ∧ (mstatusWritable c).getLsbD 12 = false := by
  unfold mstatusWritable
  cases c.hasS <;> cases c.hasU <;> decide

theorem mstatusWritable_inside (c : Config) (i : Nat) (h : (mstatusWritable c).getLsbD i = true) :
    (mstatusWritable c ||| maskMPP).getLsbD i = true := by
  rw [BitVec.getLsbD_or, h, Bool.true_or]

theorem MstatusOk.written {c : Config} {m : Word} (h : MstatusOk c m) (v : Word) :
    MstatusOk c (mstatusWritten c m v) := by
  obtain ⟨no11, no12⟩ := mstatusWritable_no_mpp c
  have inside : withMask m v (mstatusWritable c) &&& ~~~(mstatusWritable c ||| maskMPP) = 0#64 :=
    withMask_inside h.hardwired (mstatusWritable_inside c)
  unfold mstatusWritten
  dsimp only
  split
  · next legal => exact ⟨by rwa [extract_withMask_maskMPP], withMask_inside inside (maskMPP_inside c)⟩
  · exact ⟨by rw [extract_withMask_of_clear no11 no12]; exact h.mpp, inside⟩

/-- With S-mode `sstatus` writes writable fields of `mstatus` (R47, R48). -/
theorem MstatusOk.sstatus {c : Config} {m : Word} (h : MstatusOk c m) (hasS : c.hasS = true) (v : Word) :
    MstatusOk c (withMask m v sstatusMask) where
  mpp := by rw [extract_withMask_of_clear (by decide) (by decide)]; exact h.mpp
  hardwired := by
    refine withMask_inside h.hardwired ((and_not_eq_zero_iff _ _).1 ?_)
    unfold mstatusWritable
    rw [hasS]
    cases c.hasU <;> decide

theorem State.Inv.mstatusOk {s : State} (h : s.Inv) : MstatusOk s.cfg s.mstatus := ⟨h.modes.mpp, h.modes.hardwired⟩

/-! ## One field at a time -/

section
variable {s : State}

/-- The invariant does not speak of the lines, the schedule, the wfi flag, the record and the free choices. -/
theorem State.Inv.with_rest (h : s.Inv) (lines : Lines) (inputs : List Lines) (waiting : Bool) (hist : List HistEvent)
    (draws : Nat) :
    ({ s with lines := lines, inputs := inputs, waiting := waiting, hist := hist, draws := draws } : State).Inv :=
  { h with
    widths := { h.widths with }, aligned := { h.aligned with }, modes := { h.modes with },
    interrupts := { h.interrupts with }, satp := { h.satp with }, pmp := { h.pmp with },
    memory := { h.memory with } }

theorem State.Inv.with_pc (h : s.Inv) {v : Word} (hf : fits s.cfg.xlen v) (ha : aligned4 v) :
    ({ s with pc := v } : State).Inv :=
  { h with
    widths := { h.widths with pc := hf }, aligned := { h.aligned with pc := ha }, modes := { h.modes with },
    interrupts := { h.interrupts with }, satp := { h.satp with }, pmp := { h.pmp with },
    memory := { h.memory with } }

theorem State.Inv.writeReg (h : s.Inv) {r : RegIdx} {v : Word} (hf : fits s.cfg.xlen v) : (s.writeReg r v).Inv := by
  have regs : ∀ r', fits s.cfg.xlen ((s.writeReg r v).readReg r') := by
    intro r'
    rw [readReg_writeReg]
    split
    · exact fits_zero _
    · split
      · exact hf
      · exact h.widths.x r'
  exact { h with
    widths := { h.widths with x := regs }, aligned := { h.aligned with }, modes := { h.modes with },
    interrupts := { h.interrupts with }, satp := { h.satp with }, pmp := { h.pmp with },
    memory := { h.memory with } }

theorem State.Inv.with_mstatus (h : s.Inv) {m : Word} (hm : MstatusOk s.cfg m) : ({ s with mstatus := m } : State).Inv :=
  { h with
    widths := { h.widths with mstatus := hm.fits _ }, aligned := { h.aligned with },
    modes := { h.modes with mpp := hm.mpp, hardwired := hm.hardwired }, interrupts := { h.interrupts with },
    satp := { h.satp with }, pmp := { h.pmp with }, memory := { h.memory with } }

theorem State.Inv.with_priv (h : s.Inv) {p : Mode} (hp : hasMode s.cfg p = true) : ({ s with priv := p } : State).Inv :=
  { h with
    widths := { h.widths with }, aligned := { h.aligned with }, modes := { h.modes with priv := hp },
    interrupts := { h.interrupts with }, satp := { h.satp with }, pmp := { h.pmp with },
    memory := { h.memory with } }

theorem State.Inv.with_mtvec (h : s.Inv) {v : Word} (hf : fits s.cfg.xlen v) (ha : aligned4 v) :
    ({ s with mtvec := v } : State).Inv :=
  { h with
    widths := { h.widths with mtvec := hf }, aligned := { h.aligned with mtvec := ha }, modes := { h.modes with },
    interrupts := { h.interrupts with }, satp := { h.satp with }, pmp := { h.pmp with },
    memory := { h.memory with } }

/-- The registers a trap to M-mode saves into. -/
theorem State.Inv.with_machineTrap (h : s.Inv) {epc cause tval : Word} (he : fits s.cfg.xlen epc) (ha : aligned4 epc)
    (hc : fits s.cfg.xlen cause) (ht : fits s.cfg.xlen tval) :
    ({ s with mepc := epc, mcause := cause, mtval := tval } : State).Inv :=
  { h with
    widths := { h.widths with mepc := he, mcause := hc, mtval := ht }, aligned := { h.aligned with mepc := ha },
    modes := { h.modes with }, interrupts := { h.interrupts with }, satp := { h.satp with }, pmp := { h.pmp with },
    memory := { h.memory with } }

theorem State.Inv.with_stvec (h : s.Inv) {v : Word} (hf : fits s.cfg.xlen v) (ha : aligned4 v) :
    ({ s with stvec := v } : State).Inv :=
  { h with
    widths := { h.widths with stvec := hf }, aligned := { h.aligned with stvec := ha }, modes := { h.modes with },
    interrupts := { h.interrupts with }, satp := { h.satp with }, pmp := { h.pmp with },
    memory := { h.memory with } }

/-- The registers a trap to S-mode saves into. -/
theorem State.Inv.with_supervisorTrap (h : s.Inv) {epc cause tval : Word} (he : fits s.cfg.xlen epc)
    (ha : aligned4 epc) (hc : fits s.cfg.xlen cause) (ht : fits s.cfg.xlen tval) :
    ({ s with sepc := epc, scause := cause, stval := tval } : State).Inv :=
  { h with
    widths := { h.widths with sepc := he, scause := hc, stval := ht }, aligned := { h.aligned with sepc := ha },
    modes := { h.modes with }, interrupts := { h.interrupts with }, satp := { h.satp with }, pmp := { h.pmp with },
    memory := { h.memory with } }

theorem State.Inv.with_scratch (h : s.Inv) {m v : Word} (hm : fits s.cfg.xlen m) (hv : fits s.cfg.xlen v) :
    ({ s with mscratch := m, sscratch := v } : State).Inv :=
  { h with
    widths := { h.widths with mscratch := hm, sscratch := hv }, aligned := { h.aligned with },
    modes := { h.modes with }, interrupts := { h.interrupts with }, satp := { h.satp with }, pmp := { h.pmp with },
    memory := { h.memory with } }

theorem State.Inv.with_interruptRegs (h : s.Inv) {e p x i : Word} (ok : s.InterruptRegsOk →
    ({ s with mie := e, mipSw := p, medeleg := x, mideleg := i } : State).InterruptRegsOk) :
    ({ s with mie := e, mipSw := p, medeleg := x, mideleg := i } : State).Inv :=
  { h with
    widths := { h.widths with }, aligned := { h.aligned with }, modes := { h.modes with },
    interrupts := ok h.interrupts, satp := { h.satp with }, pmp := { h.pmp with }, memory := { h.memory with } }

theorem State.Inv.with_satp (h : s.Inv) {v : Word} {hist : List HistEvent} (hf : fits s.cfg.xlen v)
    (ok : ({ s with satp := v, hist := hist } : State).SatpOk) : ({ s with satp := v, hist := hist } : State).Inv :=
  { h with
    widths := { h.widths with satp := hf }, aligned := { h.aligned with }, modes := { h.modes with },
    interrupts := { h.interrupts with }, satp := ok, pmp := { h.pmp with }, memory := { h.memory with } }

theorem State.Inv.with_pmp (h : s.Inv) {cfgs : Vector Byte 16} {addrs : Vector Word 16}
    (ok : ({ s with pmpcfg := cfgs, pmpaddr := addrs } : State).PmpOk) :
    ({ s with pmpcfg := cfgs, pmpaddr := addrs } : State).Inv :=
  { h with
    widths := { h.widths with }, aligned := { h.aligned with }, modes := { h.modes with },
    interrupts := { h.interrupts with }, satp := { h.satp with }, pmp := ok, memory := { h.memory with } }

theorem State.Inv.physWrite (h : s.Inv) (pa : Nat) (bytes : List Byte) : (s.physWrite pa bytes).Inv :=
  { h with
    widths := { h.widths with }, aligned := { h.aligned with }, modes := { h.modes with },
    interrupts := { h.interrupts with }, satp := { h.satp with }, pmp := { h.pmp with },
    memory := { mem := wf_writeBytes _ pa bytes h.memory.mem, written := rising_markWords pa _ _ h.memory.written } }

end

end Sys2Proof.Machine
end

section
/-! The operations that keep the invariant: traps and returns, register and CSR writes, translations
(10_state.md R20-R57). -/

namespace Sys2Proof.Machine

section
variable {s : State}

/-! ## Traps, returns, the pc -/

theorem State.Inv.trapToM (h : s.Inv) (c : Cause) {tval epc : Word} (ht : fits s.cfg.xlen tval)
    (he : fits s.cfg.xlen epc) : (s.trapToM c tval epc).Inv :=
  have saved := h.with_machineTrap (fits_clearLow2 _ _ he) (aligned4_clearLow2 epc) (fits_causeValue _ c) ht
  have status : MstatusOk s.cfg (s.trapToM c tval epc).mstatus :=
    ((h.mstatusOk.withBit (getLsbD_writable_machine _ (.inr rfl)) (by decide) (by decide)).withBit
      (getLsbD_writable_machine _ (.inl rfl)) (by decide) (by decide)).withMpp h.modes.priv
  (((saved.with_mstatus status).with_priv (p := .machine) rfl).with_pc h.widths.mtvec h.aligned.mtvec).with_rest
    s.lines s.inputs false s.hist s.draws

theorem State.Inv.trapToS (h : s.Inv) (hasS : s.cfg.hasS = true) (c : Cause) {tval epc : Word}
    (ht : fits s.cfg.xlen tval) (he : fits s.cfg.xlen epc) : (s.trapToS c tval epc).Inv :=
  have saved := h.with_supervisorTrap (fits_clearLow2 _ _ he) (aligned4_clearLow2 epc) (fits_causeValue _ c) ht
  have status : MstatusOk s.cfg (s.trapToS c tval epc).mstatus :=
    ((h.mstatusOk.withBit (getLsbD_writable_supervisor hasS (.inr (.inl rfl))) (by decide) (by decide)).withBit
      (getLsbD_writable_supervisor hasS (.inl rfl)) (by decide) (by decide)).withBit
        (getLsbD_writable_supervisor hasS (.inr (.inr rfl))) (by decide) (by decide)
  (((saved.with_mstatus status).with_priv (p := .supervisor) hasS).with_pc h.widths.stvec h.aligned.stvec).with_rest
    s.lines s.inputs false s.hist s.draws

theorem State.Inv.takeTrap (h : s.Inv) (c : Cause) {tval epc : Word} (ht : fits s.cfg.xlen tval)
    (he : fits s.cfg.xlen epc) : (s.takeTrap c tval epc).Inv := by
  rcases takeTrap_cases s c tval epc with ⟨delegated, trap⟩ | ⟨_, trap⟩
  · obtain ⟨hasS, _⟩ := (delegated_iff s c).1 delegated
    rw [trap]
    exact h.trapToS hasS c ht he
  · rw [trap]
    exact h.trapToM c ht he

theorem State.Inv.raise (h : s.Inv) (e : Exn) {tval : Word} (ht : fits s.cfg.xlen tval) : (s.raise e tval).Inv :=
  h.takeTrap _ ht h.widths.pc

theorem State.Inv.raiseIllegal (h : s.Inv) (w : InstrWord) : (s.raiseIllegal w).Inv :=
  h.raise _ (fits_illegalTval _ _ w)

/-- `mret` leaves MPP at the least-privileged mode the hart has (R26). -/
theorem State.Inv.returnFromM (h : s.Inv) : s.returnFromM.Inv := by
  have least : hasMode s.cfg (if s.cfg.hasU then .user else .machine) = true := by
    split
    · next hasU => exact hasU
    · rfl
  have status : MstatusOk s.cfg s.returnFromM.mstatus :=
    ((h.mstatusOk.withBit (getLsbD_writable_machine _ (.inl rfl)) (by decide) (by decide)).withBit
      (getLsbD_writable_machine _ (.inr rfl)) (by decide) (by decide)).withMpp least
  exact ((h.with_mstatus status).with_priv h.mstatusOk.hasMode_mppOf).with_pc h.widths.mepc h.aligned.mepc

/-- S-mode comes with U-mode (00_scope.md R2). -/
theorem State.Inv.hasU (h : s.Inv) (hasS : s.cfg.hasS = true) : s.cfg.hasU = true := by
  have wf := h.cfg
  simp only [Config.wf, Config.modesOk, Bool.and_eq_true] at wf
  simpa [hasS] using wf.1.1.1.1.1.1.1

theorem State.Inv.returnFromS (h : s.Inv) (hasS : s.cfg.hasS = true) : s.returnFromS.Inv := by
  have mode : hasMode s.cfg (sppOf s.mstatus) = true := by
    unfold sppOf
    split
    · exact hasS
    · exact h.hasU hasS
  have status : MstatusOk s.cfg s.returnFromS.mstatus :=
    ((h.mstatusOk.withBit (getLsbD_writable_supervisor hasS (.inl rfl)) (by decide) (by decide)).withBit
      (getLsbD_writable_supervisor hasS (.inr (.inl rfl))) (by decide) (by decide)).withBit
        (getLsbD_writable_supervisor hasS (.inr (.inr rfl))) (by decide) (by decide)
  exact ((h.with_mstatus status).with_priv mode).with_pc h.widths.sepc h.aligned.sepc

theorem aligned4_advance (x : XLen) {w : Word} (h : aligned4 w) : aligned4 (truncXlen x (w + 4#64)) := by
  have next : aligned4 (w + 4#64) := by
    unfold aligned4 at h ⊢
    rw [BitVec.toNat_add]
    simp only [BitVec.toNat_ofNat]
    omega
  cases x with
  | rv64 => exact next
  | rv32 =>
    unfold aligned4 at next ⊢
    rw [truncXlen, BitVec.toNat_and, show (0xFFFFFFFF#64).toNat = 2 ^ 32 - 1 by rfl, Nat.and_two_pow_sub_one_eq_mod]
    omega

theorem State.Inv.advance (h : s.Inv) : s.advance.Inv :=
  h.with_pc (fits_trunc _ _) (aligned4_advance _ h.aligned.pc)

/-! ## Free choices and translations -/

theorem State.Inv.drawn (h : s.Inv) : s.drawn.Inv := h.with_rest s.lines s.inputs s.waiting s.hist (s.draws + 1)

theorem State.Inv.of_translationEffect {t : State} (h : s.Inv) (effect : TranslationEffect s t) : t.Inv := by
  rcases effect with rfl | rfl | ⟨addr, bytes, rfl⟩
  · exact h
  · exact h.drawn
  · exact h.drawn.physWrite addr bytes

/-! ## Interrupt and delegation registers (R40-R43) -/

theorem supervisorBits_of_hasS {c : Config} (hasS : c.hasS = true) : supervisorBits c = 0x222#64 := by
  simp [supervisorBits, hasS]

theorem State.Inv.write_sie (h : s.Inv) (hasS : s.cfg.hasS = true) (v : Word) : (s.csrWrite .sie v).Inv := by
  refine h.with_interruptRegs fun ok => { ok with mie := withMask_inside ok.mie fun i hi => ?_ }
  rw [BitVec.getLsbD_and, Bool.and_eq_true] at hi
  rw [interruptBits, BitVec.getLsbD_or, supervisorBits_of_hasS hasS, hi.2, Bool.or_true]

theorem State.Inv.write_sip (h : s.Inv) (hasS : s.cfg.hasS = true) (v : Word) : (s.csrWrite .sip v).Inv := by
  refine h.with_interruptRegs fun ok => { ok with mipSw := withMask_inside ok.mipSw fun i hi => ?_ }
  rw [BitVec.getLsbD_and, Bool.and_eq_true, getLsbD_ssipMask, decide_eq_true_iff] at hi
  rw [supervisorBits_of_hasS hasS, hi.2]
  decide

/-! ## `satp` (R57) -/

/-- Every bit of MODE is kept. -/
theorem satpModeOf_masked (c : Config) (v : Word) : satpModeOf c.xlen (v &&& satpMask c) = satpModeOf c.xlen v := by
  unfold satpMask
  cases c.xlen with
  | rv32 =>
    have top : ∀ a b : Word, (v &&& (0x80000000#64 ||| a ||| b)).getLsbD 31 = v.getLsbD 31 := by
      intro a b
      rw [BitVec.getLsbD_and, BitVec.getLsbD_or, BitVec.getLsbD_or]
      simp
    simp only [satpModeOf, top]
  | rv64 =>
    have top : ∀ a b : Word, (v &&& (0xF000000000000000#64 ||| a ||| b)).extractLsb' 60 4 = v.extractLsb' 60 4 := by
      intro a b
      have ones : (0xF000000000000000#64 : Word).extractLsb' 60 4 = BitVec.allOnes 4 := by decide
      rw [BitVec.extractLsb'_and, BitVec.extractLsb'_or, BitVec.extractLsb'_or, ones, BitVec.or_assoc,
        BitVec.allOnes_or, BitVec.and_allOnes]
    simp only [satpModeOf, top]

theorem satpOk_written (h : s.Inv) (v : Word) (hist : List HistEvent) :
    ({ s with satp := satpWritten s.cfg s.satp v, hist := hist } : State).SatpOk := by
  have kept : ({ s with satp := s.satp, hist := hist } : State).SatpOk := { h.satp with }
  unfold satpWritten
  split
  · next m hm =>
    split
    · next listed =>
      exact ⟨fun _ => ⟨m, (satpModeOf_masked s.cfg v).trans hm, listed⟩, masked_and_not_eq_zero v _⟩
    · exact kept
  · exact kept

theorem fits_satpWritten (h : s.Inv) {v : Word} (hv : fits s.cfg.xlen v) :
    fits s.cfg.xlen (satpWritten s.cfg s.satp v) := by
  unfold satpWritten
  split
  · split
    · exact fits_and _ _ _ hv
    · exact h.widths.satp
  · exact h.widths.satp

theorem State.Inv.writeSatp (h : s.Inv) {v : Word} (hv : fits s.cfg.xlen v) : (s.writeSatp v).Inv :=
  h.with_satp (fits_satpWritten h hv) (satpOk_written h v _)

/-! ## PMP registers (R44-R46) -/

theorem pmpCfg_writePmpCfg (s : State) (k : Nat) (v : Word) (i : Nat) :
    (s.writePmpCfg k v).pmpCfg i =
      if i < 16 ∧ 4 * k ≤ i ∧ i < 4 * k + pmpPerReg s.cfg.xlen ∧ i < s.cfg.pmpCount ∧ s.pmpLocked i = false then
        pmpCfgWritten (s.pmpCfg i) (v.extractLsb' (8 * (i - 4 * k)) 8)
      else s.pmpCfg i := by
  by_cases hi : i < 16
  · simp [State.pmpCfg, State.writePmpCfg, hi]
  · simp [State.pmpCfg, hi]

theorem pmpAddr_writePmpAddr (s : State) (i : Fin 16) (v : Word) (j : Nat) :
    (s.writePmpAddr i v).pmpAddr j =
      if j = i.val ∧ s.pmpAddrLocked i.val = false then v &&& lowMask (s.cfg.pasize - 2) else s.pmpAddr j := by
  cases locked : s.pmpAddrLocked i.val with
  | true => simp [State.pmpAddr, State.writePmpAddr, locked]
  | false =>
    by_cases hj : j < 16
    · by_cases hij : j = i.val
      · subst hij; simp [State.pmpAddr, State.writePmpAddr, locked]
      · simp [State.pmpAddr, State.writePmpAddr, locked, hj, hij, Ne.symm hij]
    · simp [State.pmpAddr, hj, show j ≠ i.val by omega]

/-- The bytes of R46: bits 6:5 zero, and W only with R. -/
def PmpByteOk (b : Byte) : Prop := b &&& 0x60#8 = 0#8 ∧ (pmpW b = true → pmpR b = true)

theorem pmpByteOk_written {old : Byte} (h : PmpByteOk old) (v : Byte) : PmpByteOk (pmpCfgWritten old v) := by
  have reserved : ∀ a b : Byte, ((a &&& 0x98#8) ||| (b &&& 0x07#8)) &&& 0x60#8 = 0#8 := by
    intro a b
    apply BitVec.eq_of_getLsbD_eq
    intro i hi
    simp only [BitVec.getLsbD_and, BitVec.getLsbD_or]
    have masks : ∀ k : Fin 8, ((0x98#8).getLsbD k.val && (0x60#8).getLsbD k.val) = false ∧
        ((0x07#8).getLsbD k.val && (0x60#8).getLsbD k.val) = false := by decide
    obtain ⟨high, low⟩ := masks ⟨i, hi⟩
    dsimp only at high low
    rw [Bool.and_or_distrib_right, Bool.and_assoc, Bool.and_assoc, high, low]
    simp
  have bit : ∀ (a b : Byte) (i : Nat), i < 3 → ((a &&& 0x98#8) ||| (b &&& 0x07#8)).getLsbD i = b.getLsbD i := by
    intro a b i hi
    have : i = 0 ∨ i = 1 ∨ i = 2 := by omega
    rcases this with rfl | rfl | rfl <;> simp
  refine ⟨reserved _ _, ?_⟩
  unfold pmpCfgWritten pmpW pmpR
  rw [bit _ _ 1 (by omega), bit _ _ 0 (by omega)]
  split
  · exact h.2
  · next legal =>
    intro hw
    cases hr : v.getLsbD 0
    · exact absurd (by rw [hr, hw]; rfl) legal
    · rfl

theorem State.Inv.writePmpCfg (h : s.Inv) (k : Nat) (v : Word) : (s.writePmpCfg k v).Inv := by
  refine h.with_pmp (cfgs := (s.writePmpCfg k v).pmpcfg) (addrs := s.pmpaddr) ?_
  have bytes : ∀ i, PmpByteOk ((s.writePmpCfg k v).pmpCfg i) := by
    intro i
    rw [pmpCfg_writePmpCfg]
    split
    · exact pmpByteOk_written ⟨h.pmp.reserved i, h.pmp.readWrite i⟩ _
    · exact ⟨h.pmp.reserved i, h.pmp.readWrite i⟩
  have absent : ∀ i, s.cfg.pmpCount ≤ i → (s.writePmpCfg k v).pmpCfg i = 0#8 := by
    intro i hi
    rw [pmpCfg_writePmpCfg, if_neg (by omega)]
    exact h.pmp.absentCfg i hi
  exact { h.pmp with
    reserved := fun i => (bytes i).1
    readWrite := fun i => (bytes i).2
    absentCfg := absent }

theorem State.Inv.writePmpAddr (h : s.Inv) {i : Fin 16} (hi : i.val < s.cfg.pmpCount) (v : Word) :
    (s.writePmpAddr i v).Inv := by
  refine h.with_pmp (cfgs := s.pmpcfg) (addrs := (s.writePmpAddr i v).pmpaddr) ?_
  have addr : ∀ j, (s.writePmpAddr i v).pmpAddr j &&& ~~~lowMask (s.cfg.pasize - 2) = 0#64 := by
    intro j
    rw [pmpAddr_writePmpAddr]
    split
    · exact masked_and_not_eq_zero v _
    · exact h.pmp.addr j
  have absent : ∀ j, s.cfg.pmpCount ≤ j → (s.writePmpAddr i v).pmpAddr j = 0#64 := by
    intro j hj
    rw [pmpAddr_writePmpAddr, if_neg (by omega)]
    exact h.pmp.absentAddr j hj
  exact { h.pmp with addr := addr, absentAddr := absent }

/-! ## CSR reads are XLEN-bit values -/

theorem fits_interruptBits (x : XLen) (c : Config) : fits x (interruptBits c) := by
  unfold interruptBits supervisorBits
  split
  · exact fits_low x 0xAAA (by decide)
  · exact fits_low x 0x888 (by decide)

/-- An address register of the PMP has at most `PASIZE - 2` bits, at most 32 on RV32 (R44). -/
theorem State.Inv.fits_pmpAddr (h : s.Inv) (i : Nat) : fits s.cfg.xlen (s.pmpAddr i) := by
  cases hx : s.cfg.xlen with
  | rv64 => rfl
  | rv32 =>
    have wf := h.cfg
    simp only [Config.wf, Config.pasizeOk, hx, Bool.and_eq_true, decide_eq_true_eq] at wf
    obtain ⟨⟨⟨⟨⟨⟨⟨_, _, size⟩, _⟩, _⟩, _⟩, _⟩, _⟩, _⟩ := wf
    have bound : 2 ^ (s.cfg.pasize - 2) ≤ 2 ^ 32 := Nat.pow_le_pow_right (by decide) (by omega)
    have positive : 0 < 2 ^ (s.cfg.pasize - 2) := Nat.two_pow_pos _
    exact fits_of_inside (h.pmp.addr i) (fits_low .rv32 _ (by omega))

@[simp] theorem length_pmpCfgBytes (s : State) (k n : Nat) : (s.pmpCfgBytes k n).length = n := by
  induction n generalizing k with
  | zero => rfl
  | succ n ih => simp [State.pmpCfgBytes, ih]

theorem fits_readPmpCfg (s : State) (k : Nat) : fits s.cfg.xlen (s.readPmpCfg k) := by
  unfold State.readPmpCfg
  cases s.cfg.xlen with
  | rv64 => rfl
  | rv32 =>
    have bound := leValue_lt (s.pmpCfgBytes (4 * k) 4)
    rw [length_pmpCfgBytes] at bound
    exact fits_low .rv32 _ bound

theorem State.Inv.fits_csrRead (h : s.Inv) (c : Csr) : fits s.cfg.xlen (s.csrRead c) := by
  have mie : fits s.cfg.xlen s.mie := fits_of_inside h.interrupts.mie (fits_interruptBits _ _)
  have mip : fits s.cfg.xlen s.mip := by
    rw [State.mip, BitVec.and_comm]
    exact fits_and _ _ _ (fits_interruptBits _ _)
  cases c with
  | sstatus => exact fits_and _ _ _ h.widths.mstatus
  | sie => exact fits_and _ _ _ (fits_and _ _ _ mie)
  | stvec => exact h.widths.stvec
  | sscratch => exact h.widths.sscratch
  | sepc => exact h.widths.sepc
  | scause => exact h.widths.scause
  | stval => exact h.widths.stval
  | sip => exact fits_and _ _ _ (fits_and _ _ _ mip)
  | satp => exact h.widths.satp
  | mstatus => exact h.widths.mstatus
  | medeleg => exact fits_of_inside h.interrupts.medeleg (fits_low _ 0xB3FF (by decide))
  | mideleg => exact fits_of_inside h.interrupts.mideleg (fits_low _ 0x222 (by decide))
  | mie => exact mie
  | mtvec => exact h.widths.mtvec
  | mscratch => exact h.widths.mscratch
  | mepc => exact h.widths.mepc
  | mcause => exact h.widths.mcause
  | mtval => exact h.widths.mtval
  | mip => exact mip
  | pmpcfg k => exact fits_readPmpCfg s k.val
  | pmpaddr i => exact h.fits_pmpAddr i.val

/-- Only of `mip` does a set or clear instruction modify another value than a read gives (R41). -/
theorem csrReadForModify_of_ne_mip (s : State) {c : Csr} (hc : c ≠ .mip) : s.csrReadForModify c = s.csrRead c := by
  unfold State.csrReadForModify
  split
  · exact absurd rfl hc
  · rfl

theorem State.Inv.fits_csrReadForModify (h : s.Inv) (c : Csr) : fits s.cfg.xlen (s.csrReadForModify c) := by
  by_cases hc : c = .mip
  · subst hc
    change fits s.cfg.xlen s.mipForModify
    rw [State.mipForModify, BitVec.and_comm]
    exact fits_and _ _ _ (fits_interruptBits _ _)
  · rw [csrReadForModify_of_ne_mip s hc]
    exact h.fits_csrRead c

/-! ## CSR writes (43_csr_access.md R190) -/

/-- Writing an XLEN-bit value to a CSR that the configuration has keeps the invariant. -/
theorem State.Inv.csrWrite (h : s.Inv) {c : Csr} (there : csrExists s.cfg c = true) {v : Word}
    (hv : fits s.cfg.xlen v) : (s.csrWrite c v).Inv := by
  have low := fits_clearLow2 _ _ hv
  have low4 := aligned4_clearLow2 v
  cases c with
  | sstatus => exact h.with_mstatus (h.mstatusOk.sstatus there v)
  | sie => exact h.write_sie there v
  | stvec => exact h.with_stvec low low4
  | sscratch => exact h.with_scratch h.widths.mscratch hv
  | sepc => exact h.with_supervisorTrap low low4 h.widths.scause h.widths.stval
  | scause => exact h.with_supervisorTrap h.widths.sepc h.aligned.sepc hv h.widths.stval
  | stval => exact h.with_supervisorTrap h.widths.sepc h.aligned.sepc h.widths.scause hv
  | sip => exact h.write_sip there v
  | satp => exact h.writeSatp hv
  | mstatus => exact h.with_mstatus (h.mstatusOk.written v)
  | medeleg => exact h.with_interruptRegs fun ok => { ok with medeleg := masked_and_not_eq_zero v _ }
  | mideleg => exact h.with_interruptRegs fun ok => { ok with mideleg := masked_and_not_eq_zero v _ }
  | mie => exact h.with_interruptRegs fun ok => { ok with mie := masked_and_not_eq_zero v _ }
  | mtvec => exact h.with_mtvec low low4
  | mscratch => exact h.with_scratch hv h.widths.sscratch
  | mepc => exact h.with_machineTrap low low4 h.widths.mcause h.widths.mtval
  | mcause => exact h.with_machineTrap h.widths.mepc h.aligned.mepc hv h.widths.mtval
  | mtval => exact h.with_machineTrap h.widths.mepc h.aligned.mepc h.widths.mcause hv
  | mip => exact h.with_interruptRegs fun ok => { ok with mipSw := masked_and_not_eq_zero v _ }
  | pmpcfg k => exact h.writePmpCfg k.val v
  | pmpaddr i => exact h.writePmpAddr (of_decide_eq_true there) v

end

/-! ## The instructions -/

section
variable {s t : State}

/-- The common body of the CSR instructions: what it writes is an XLEN-bit value where `new` makes one of one. -/
theorem State.Inv.csrInstr (h : s.Inv) {w : InstrWord} {n : CsrNum} {rd : RegIdx} {willWrite : Bool}
    {new : Word → Word} (hnew : ∀ old, fits s.cfg.xlen old → fits s.cfg.xlen (new old))
    (done : s.csrInstr w n rd willWrite new = .next t) : t.Inv := by
  rcases csrInstr_cases s w n rd willWrite new with ⟨_, body⟩ | ⟨_, body⟩ | ⟨c, granted, body⟩
  · cases body.symm.trans done
  · cases body.symm.trans done
    exact h.raiseIllegal w
  · cases body.symm.trans done
    obtain ⟨_, _, there, _⟩ := csrCheck_granted s n willWrite c granted
    have written : (if willWrite then s.csrWrite c (new (s.csrReadForModify c)) else s).Inv := by
      split
      · exact h.csrWrite there (hnew _ (h.fits_csrReadForModify c))
      · exact h
    refine (written.writeReg ?_).advance
    have config : (if willWrite then s.csrWrite c (new (s.csrReadForModify c)) else s).cfg = s.cfg := by
      split
      · exact csrWrite_cfg s c _
      · rfl
    rw [config]
    exact h.fits_csrRead c

theorem State.Inv.amoaddW (h : s.Inv) {aq rl : Bool} {rd rs1 rs2 : RegIdx}
    (done : exec (.amoaddW aq rl rd rs1 rs2) s = .next t) : t.Inv := by
  change execAmoaddW aq rl rd rs1 rs2 s = .next t at done
  unfold execAmoaddW at done
  split at done
  · cases done
  · next e tval u raised =>
    cases done
    obtain ⟨rfl, ⟨_, _, rfl⟩ | ⟨_, rfl, _⟩⟩ := locate_raised _ _ _ _ _ _ raised
    · exact h.raise e (h.widths.x rs1)
    · exact h.drawn.raise e (h.widths.x rs1)
  · next pa u located =>
    have effect := locate_effect _ _ _ _ _ located
    have after := h.of_translationEffect effect
    have config : u.cfg = s.cfg := by rcases effect with rfl | rfl | ⟨_, _, rfl⟩ <;> rfl
    split at done
    · cases done
      exact after.raise _ (config ▸ h.widths.x rs1)
    · split at done
      · cases done
      · cases done
        exact ((after.physWrite pa _).writeReg (fits_sextXlen _ _)).advance

/-- Every instruction keeps the invariant. -/
theorem State.Inv.exec (h : s.Inv) {i : Instr} (done : exec i s = .next t) : t.Inv := by
  have reg := h.widths.x
  have imm : ∀ uimm, fits s.cfg.xlen (immOperand uimm) := fun uimm => fits_setWidth _ uimm (by decide)
  cases i with
  | ecall => cases done; exact h.raise _ (fits_zero _)
  | ebreak => cases done; exact h.raise _ (fits_zero _)
  | sret =>
    cases done
    split
    · exact h.raiseIllegal _
    · next legal => exact h.returnFromS (by simp at legal; exact legal.1.1)
  | mret =>
    cases done
    split
    · exact h.returnFromM
    · exact h.raiseIllegal _
  | wfi =>
    cases done
    split
    · exact h.drawn.raiseIllegal _
    · exact h.drawn.advance.with_rest s.lines s.inputs _ s.hist _
  | sfenceVma rs1 rs2 =>
    cases done
    split
    · exact h.raiseIllegal _
    · exact (h.with_rest s.lines s.inputs s.waiting _ s.draws).advance
  | csrrw rd csr rs1 => exact h.csrInstr (fun _ _ => reg rs1) done
  | csrrs rd csr rs1 => exact h.csrInstr (fun _ ho => fits_or _ _ _ ho (reg rs1)) done
  | csrrc rd csr rs1 => exact h.csrInstr (fun _ ho => fits_and _ _ _ ho) done
  | csrrwi rd csr uimm => exact h.csrInstr (fun _ _ => imm uimm) done
  | csrrsi rd csr uimm => exact h.csrInstr (fun _ ho => fits_or _ _ _ ho (imm uimm)) done
  | csrrci rd csr uimm => exact h.csrInstr (fun _ ho => fits_and _ _ _ ho) done
  | amoaddW aq rl rd rs1 rs2 => exact h.amoaddW done

/-! ## The step -/

theorem State.Inv.runNext (h : s.Inv) (done : s.runNext = .next t) : t.Inv := by
  rcases runNext_next s t done with ⟨e, tval, u, raised, rfl⟩ | ⟨w, u, i, fetched, _, executed⟩ |
    ⟨w, u, _, fetched, _, rfl⟩
  · obtain ⟨rfl, effect, _⟩ := fetch_raised _ _ _ _ raised
    have config : u.cfg = s.cfg := by rcases effect with rfl | rfl | ⟨_, _, rfl⟩ <;> rfl
    exact (h.of_translationEffect effect).raise e (config ▸ h.widths.pc)
  · obtain ⟨pa, located, _⟩ := fetch_ok _ _ _ fetched
    exact (h.of_translationEffect (locate_effect _ _ _ _ _ located)).exec executed
  · obtain ⟨pa, located, _⟩ := fetch_ok _ _ _ fetched
    exact (h.of_translationEffect (locate_effect _ _ _ _ _ located)).raiseIllegal w

/-- Settles O57: the interrupt, the wait, and the fetch with what follows it each keep the invariant. -/
theorem stepKeepsInvariant : Obligations.StepKeepsInvariant := by
  intro s t h done
  have sampled : s.sampleLines.Inv := h.with_rest _ _ s.waiting s.hist s.draws
  rcases step_next s t done with ⟨i, _, rfl⟩ | ⟨_, _, _, rfl⟩ | ⟨_, _, run⟩
  · exact sampled.takeTrap _ (fits_zero _) sampled.widths.pc
  · exact sampled
  · exact (sampled.with_rest _ _ false s.hist s.draws).runNext run

end

end Sys2Proof.Machine
end

section
/-! The step (00_scope.md R8): which of its parts runs, what a fetch can answer, and that the hart never halts. -/

namespace Sys2Proof.Machine

/-! ## Which part of the step runs -/

theorem step_of_interrupt {s : State} {i : Interrupt} (h : s.sampleLines.nextInterrupt = some i) :
    step s = .next (s.sampleLines.takeInterrupt i) := by
  rw [step, State.hartStep, h]

theorem step_of_no_interrupt {s : State} (h : s.sampleLines.nextInterrupt = none) :
    step s = s.sampleLines.waitOrRun := by
  rw [step, State.hartStep, h]

theorem wakeUp_iff (s : State) : s.wakeUp = true ↔ s.mip &&& s.mie ≠ 0#64 := decide_eq_true_iff

/-- A step that reaches the fetch is steps 4 to 6 of R8 on the awake hart. -/
theorem step_of_reachesFetch {s : State} (h : reachesFetch s) : step s = s.awake.runNext := by
  obtain ⟨noInterrupt, wakes⟩ := h
  rw [step_of_no_interrupt noInterrupt, State.waitOrRun, if_neg]
  · rfl
  · simp only [sampleLines_waiting, Bool.and_eq_true, Bool.not_eq_true', not_and, Bool.not_eq_false]
    exact fun waiting => (wakeUp_iff _).2 (wakes waiting)

/-- Settles O8: the wake-up condition decides between the wait and the fetch. -/
theorem waitingHart : Obligations.WaitingHart := by
  intro s waiting noInterrupt
  refine ⟨fun nothing => ?_, fun pending => step_of_reachesFetch ⟨noInterrupt, fun _ => pending⟩⟩
  have asleep : s.sampleLines.wakeUp = false := Bool.eq_false_iff.2 fun wakes => (wakeUp_iff _).1 wakes nothing
  rw [step_of_no_interrupt noInterrupt, State.waitOrRun, if_pos]
  rw [sampleLines_waiting, waiting, asleep]
  rfl

/-! ## Steps 4 to 6 by the answer of the fetch -/

theorem runNext_of_fetch_ok {s u : State} {w : InstrWord} (h : s.fetch = .ok w u) : s.runNext = u.runWord w := by
  rw [State.runNext, h]

theorem runNext_of_fetch_raised {s u : State} {e : Exn} {tval : Word} (h : s.fetch = .raised e tval u) :
    s.runNext = .next (u.raise e tval) := by
  rw [State.runNext, h]

theorem runNext_of_fetch_refused {s : State} {r : Refusal} (h : s.fetch = .refused r) : s.runNext = .refused r := by
  rw [State.runNext, h]

theorem runWord_of_instr (s : State) {w : InstrWord} {i : Instr} (h : decode w = .instr i) : s.runWord w = exec i s := by
  rw [State.runWord, h]

/-! ## What a translation leaves as it was -/

/-- Translating an address changes memory, its records and the count of free choices, and nothing else. -/
theorem TranslationEffect.frame {s t : State} (h : TranslationEffect s t) :
    t = { s with mem := t.mem, written := t.written, hist := t.hist, draws := t.draws } := by
  rcases h with rfl | rfl | ⟨_, _, rfl⟩
  · rfl
  · rfl
  · rfl

section
variable {s t : State} (h : TranslationEffect s t)
include h

theorem TranslationEffect.cfg : t.cfg = s.cfg := by rw [h.frame]
theorem TranslationEffect.priv : t.priv = s.priv := by rw [h.frame]
theorem TranslationEffect.pc : t.pc = s.pc := by rw [h.frame]
theorem TranslationEffect.waiting : t.waiting = s.waiting := by rw [h.frame]
theorem TranslationEffect.mstatus : t.mstatus = s.mstatus := by rw [h.frame]
theorem TranslationEffect.sameRegs : sameRegs s t := fun r => readReg_congr s t (by rw [h.frame]) r
theorem TranslationEffect.sameCsrs : sameCsrs s t := by
  rw [h.frame]
  exact ⟨rfl, ⟨rfl, rfl, rfl⟩, ⟨rfl, rfl, rfl⟩, rfl, rfl, rfl, rfl, rfl, rfl, rfl, rfl, rfl, rfl, rfl⟩
theorem TranslationEffect.sameSurroundings : sameSurroundings s t := by
  rw [h.frame]
  exact ⟨rfl, rfl, rfl⟩

end

theorem fetch_effect {s u : State} {w : InstrWord} (h : s.fetch = .ok w u) : TranslationEffect s u := by
  obtain ⟨pa, located, _⟩ := fetch_ok s u w h
  exact locate_effect s u s.pc .fetch pa located

/-- Settles O6: the step is the fetched word run, on a state that differs from the awake hart only by the translation. -/
theorem stepRunsFetchedInstruction : Obligations.StepRunsFetchedInstruction := by
  intro s u w reaches fetched
  have runs : step s = u.runWord w := (step_of_reachesFetch reaches).trans (runNext_of_fetch_ok fetched)
  have effect : TranslationEffect s.awake u := fetch_effect fetched
  obtain ⟨_, lines, inputs⟩ := effect.sameSurroundings
  exact ⟨runs, fun i decoded => runs.trans (runWord_of_instr u decoded), effect.pc, effect.priv, effect.cfg,
    effect.sameRegs, effect.sameCsrs, effect.waiting, lines, inputs⟩

/-! ## What a fetch answers at a physical address (20_memory.md R83, R123, R126) -/

theorem not_fetch_denied {u : State} {pa : Nat} {p : Mode} (pmp : u.pmpCheck pa 4 .fetch p = true)
    (pma : pmaAllows u.cfg pa 4 .fetch = true) :
    ¬ (!(u.pmpCheck pa 4 .fetch p && pmaAllows u.cfg pa 4 .fetch)) = true := by
  rw [pmp, pma]
  decide

section
variable {s u : State} {pa : Nat} (located : s.locate s.pc .fetch = .ok pa u)
include located

theorem fetch_of_denied (denied : ¬ (u.pmpCheck pa 4 .fetch s.priv = true ∧ pmaAllows u.cfg pa 4 .fetch = true)) :
    s.fetch = .raised .instrAccessFault s.pc u := by
  rw [← Bool.and_eq_true, Bool.not_eq_true] at denied
  simp only [State.fetch, located]
  rw [if_pos]
  rw [Bool.not_eq_true']
  exact denied

variable (pmp : u.pmpCheck pa 4 .fetch s.priv = true) (pma : pmaAllows u.cfg pa 4 .fetch = true)
include pmp pma

theorem fetch_of_device (device : pmaDevice u.cfg pa 4 = true) : s.fetch = .refused .deviceRegion := by
  simp only [State.fetch, located]
  rw [if_neg (not_fetch_denied (p := s.effPriv .fetch) pmp pma), if_pos device]

variable (memory : pmaDevice u.cfg pa 4 = false)
include memory

theorem fetch_of_written (written : u.written.contains (pa / 4) = true) :
    s.fetch = .refused .fetchOfWrittenWord := by
  simp only [State.fetch, located]
  rw [if_neg (not_fetch_denied (p := s.effPriv .fetch) pmp pma), if_neg (Bool.eq_false_iff.1 memory), if_pos written]

theorem fetch_of_permitted (unwritten : u.written.contains (pa / 4) = false) :
    s.fetch = .ok (u.physRead32 pa) u := by
  simp only [State.fetch, located]
  rw [if_neg (not_fetch_denied (p := s.effPriv .fetch) pmp pma), if_neg (Bool.eq_false_iff.1 memory),
    if_neg (Bool.eq_false_iff.1 unwritten)]

end

theorem fetch_of_locate_raised {s u : State} {e : Exn} {tval : Word} (h : s.locate s.pc .fetch = .raised e tval u) :
    s.fetch = .raised e tval u := by
  rw [State.fetch, h]

theorem fetch_of_locate_refused {s : State} {r : Refusal} (h : s.locate s.pc .fetch = .refused r) :
    s.fetch = .refused r := by
  rw [State.fetch, h]

/-- Only a walk through a device region refuses an address (R126). -/
theorem locate_refused {s : State} {va : Word} {acc : Access} {r : Refusal} (h : s.locate va acc = .refused r) :
    r = .deviceRegion := by
  unfold State.locate at h
  split at h
  · cases h
  · split at h
    · exact translate_refused s va acc _ r h
    · cases h

theorem fetch_refused {s : State} {r : Refusal} (h : s.fetch = .refused r) :
    r = .deviceRegion ∨ r = .fetchOfWrittenWord := by
  unfold State.fetch at h
  split at h
  · next refused => cases h; exact .inl (locate_refused refused)
  · cases h
  · split at h
    · cases h
    · split at h
      · cases h; exact .inl rfl
      · split at h
        · cases h; exact .inr rfl
        · cases h

/-- Settles O7: untranslated, the pc is its own physical address, and the word there decodes to the instruction. -/
theorem stepRunsInstructionInMemory : Obligations.StepRunsInstructionInMemory := by
  intro s i reaches untranslated aligned bytes pmp pma memory unwritten
  have located : s.awake.locate s.awake.pc .fetch = .ok s.pc.toNat s.awake :=
    locate_untranslated s.awake s.pc .fetch aligned untranslated
  have word : s.awake.physRead32 s.pc.toNat = encode i := by
    change BitVec.ofNat 32 (leValue (s.mem.readBytes s.pc.toNat 4)) = encode i
    rw [bytes, leValue_leBytes, show 256 ^ 4 = 2 ^ 32 by rfl, Nat.mod_eq_of_lt (encode i).isLt, BitVec.ofNat_toNat,
      BitVec.setWidth_eq]
  have pmpAwake : s.awake.pmpCheck s.pc.toNat 4 .fetch s.awake.priv = true :=
    (pmpCheck_congr s s.awake rfl rfl rfl _ _ _ _).trans pmp
  have fetched := fetch_of_permitted located pmpAwake pma memory unwritten
  rw [step_of_reachesFetch reaches, runNext_of_fetch_ok fetched, word, runWord_of_instr _ (decode_encode i)]

/-- Settles O10: a denied fetch raises with the pc as trap value, on the state the translation left. -/
theorem fetchAccessFault : Obligations.FetchAccessFault := by
  intro s u pa reaches located denied
  have effect := locate_effect _ _ _ _ _ located
  have fetched : s.awake.fetch = .raised .instrAccessFault s.pc u := fetch_of_denied located denied
  have trap := tookTrap_raise u .instrAccessFault s.pc
  rw [effect.pc] at trap
  exact ⟨_, (step_of_reachesFetch reaches).trans (runNext_of_fetch_raised fetched), trap⟩

/-- Settles O12: the three refusals of a fetch, by where its address is. -/
theorem fetchRefusals : Obligations.FetchRefusals := by
  intro s reaches
  have refuses : ∀ {r}, s.awake.fetch = .refused r → step s = .refused r := fun h =>
    (step_of_reachesFetch reaches).trans (runNext_of_fetch_refused h)
  refine ⟨fun pa u located pmp pma => ⟨fun device => ?_, fun memory written => ?_⟩, fun r refused => ?_⟩
  · exact refuses (fetch_of_device located pmp pma device)
  · exact refuses (fetch_of_written located pmp pma memory (by simpa using written))
  · obtain rfl := locate_refused refused
    exact ⟨rfl, refuses (fetch_of_locate_refused refused)⟩

/-! ## The hart has no halt (70_reset_and_hazards.md R278) -/

/-- A next state, or one of the refusals the spec asks for. -/
def GoesOn (o : Host.Outcome State Fault Refusal) : Prop :=
  (∃ t, o = .next t) ∨ o = .refused .wordOutsideSpec ∨ o = .refused .csrOutsideSpec ∨
    o = .refused .deviceRegion ∨ o = .refused .fetchOfWrittenWord

theorem goesOn_next (t : State) : GoesOn (.next t) := .inl ⟨t, rfl⟩

theorem goesOn_csrInstr (s : State) (w : InstrWord) (n : CsrNum) (rd : RegIdx) (willWrite : Bool) (new : Word → Word) :
    GoesOn (s.csrInstr w n rd willWrite new) := by
  rcases csrInstr_cases s w n rd willWrite new with ⟨_, body⟩ | ⟨_, body⟩ | ⟨_, _, body⟩
  · exact .inr (.inr (.inl body))
  · exact .inl ⟨_, body⟩
  · exact .inl ⟨_, body⟩

theorem goesOn_amoaddW (s : State) (aq rl : Bool) (rd rs1 rs2 : RegIdx) :
    GoesOn (execAmoaddW aq rl rd rs1 rs2 s) := by
  unfold execAmoaddW
  split
  · next refused =>
    rw [locate_refused refused]
    exact .inr (.inr (.inr (.inl rfl)))
  · exact goesOn_next _
  · split
    · exact goesOn_next _
    · split
      · exact .inr (.inr (.inr (.inl rfl)))
      · exact goesOn_next _

/-- Each of the six CSR instructions is the common body on its number, its destination and its word. -/
theorem exec_of_csrNumber (s : State) {i : Instr} {n : CsrNum} (h : csrNumberOf i = some n) :
    ∃ willWrite new, exec i s = s.csrInstr (encode i) n (destOf i) willWrite new := by
  cases i with
  | ecall | ebreak | sret | mret | wfi | sfenceVma _ _ | amoaddW _ _ _ _ _ => cases h
  | csrrw rd n rs1 => cases h; exact ⟨_, _, exec_csrrw s rd n rs1⟩
  | csrrs rd n rs1 => cases h; exact ⟨_, _, exec_csrrs s rd n rs1⟩
  | csrrc rd n rs1 => cases h; exact ⟨_, _, exec_csrrc s rd n rs1⟩
  | csrrwi rd n uimm => cases h; exact ⟨_, _, exec_csrrwi s rd n uimm⟩
  | csrrsi rd n uimm => cases h; exact ⟨_, _, exec_csrrsi s rd n uimm⟩
  | csrrci rd n uimm => cases h; exact ⟨_, _, exec_csrrci s rd n uimm⟩

theorem goesOn_exec (s : State) (i : Instr) : GoesOn (exec i s) := by
  cases hn : csrNumberOf i with
  | some n =>
    obtain ⟨willWrite, new, body⟩ := exec_of_csrNumber s hn
    rw [body]
    exact goesOn_csrInstr s _ n _ willWrite new
  | none =>
    cases i with
    | ecall | ebreak | sret | mret | wfi | sfenceVma _ _ => exact .inl ⟨_, rfl⟩
    | csrrw _ _ _ | csrrs _ _ _ | csrrc _ _ _ | csrrwi _ _ _ | csrrsi _ _ _ | csrrci _ _ _ => cases hn
    | amoaddW aq rl rd rs1 rs2 => exact goesOn_amoaddW s aq rl rd rs1 rs2

theorem goesOn_runNext (s : State) : GoesOn s.runNext := by
  cases fetched : s.fetch with
  | raised e tval t => exact .inl ⟨_, runNext_of_fetch_raised fetched⟩
  | refused r =>
    rw [runNext_of_fetch_refused fetched]
    rcases fetch_refused fetched with rfl | rfl
    · exact .inr (.inr (.inr (.inl rfl)))
    · exact .inr (.inr (.inr (.inr rfl)))
  | ok w t =>
    rw [runNext_of_fetch_ok fetched]
    rcases decode_cases w with ⟨i, decoded, _⟩ | ⟨_, _, illegal⟩ | ⟨_, outside⟩
    · rw [runWord_of_instr t decoded]
      exact goesOn_exec t i
    · exact .inl ⟨_, runWord_of_illegal t illegal⟩
    · exact .inr (.inl (runWord_of_outside t outside))

/-- Settles O9: an interrupt, a wait, and a fetched word's instruction each go on or are refused by name. -/
theorem hartNeverHalts : Obligations.HartNeverHalts := by
  intro s
  cases interrupt : s.sampleLines.nextInterrupt with
  | some i => exact .inl ⟨_, step_of_interrupt interrupt⟩
  | none =>
    rw [step_of_no_interrupt interrupt, State.waitOrRun]
    split
    · exact .inl ⟨_, rfl⟩
    · exact goesOn_runNext _

end Sys2Proof.Machine
end

section
/-! Interrupts: which is taken, in which mode, and what taking it does (60_exceptions.md R210, R230-R232, R250). -/

namespace Sys2Proof.Machine

/-! ## Takeable interrupts, on the bits (R231) -/

theorem takeableM_iff (s : State) (i : Interrupt) : s.takeableM i = true ↔ wantsM s i := by
  unfold State.takeableM State.pendingEnabled State.boundForS State.flag wantsM
  cases s.cfg.hasS <;> simp [and_assoc, -BitVec.getLsbD_eq_getElem]

theorem takeableS_iff (s : State) (i : Interrupt) : s.takeableS i = true ↔ wantsS s i := by
  unfold State.takeableS State.pendingEnabled State.boundForS State.flag wantsS
  cases s.cfg.hasS <;> simp [and_assoc, -BitVec.getLsbD_eq_getElem]

/-! ## The order (R232) -/

/-- The first of a list in rising order of rank that a test accepts is the accepted one of least rank. -/
theorem find?_eq_some_iff_least {α : Type} (rank : α → Nat) (accepts : α → Bool) (l : List α)
    (inOrder : l.Pairwise fun a b => rank a < rank b) (i : α) :
    l.find? accepts = some i ↔ i ∈ l ∧ accepts i = true ∧ ∀ j ∈ l, accepts j = true → rank i ≤ rank j := by
  induction l with
  | nil => simp
  | cons a l ih =>
    obtain ⟨first, rest⟩ := List.pairwise_cons.1 inOrder
    cases ha : accepts a with
    | true =>
      rw [List.find?_cons_of_pos ha]
      constructor
      · rintro ⟨⟩
        refine ⟨List.mem_cons_self, ha, fun j hj _ => ?_⟩
        rcases List.mem_cons.1 hj with rfl | hj
        · exact Nat.le_refl _
        · exact Nat.le_of_lt (first j hj)
      · rintro ⟨hi, _, least⟩
        rcases List.mem_cons.1 hi with rfl | hi
        · rfl
        · exact absurd (least a List.mem_cons_self ha) (Nat.not_le_of_lt (first i hi))
    | false =>
      have skip : accepts a ≠ true := by rw [ha]; decide
      rw [List.find?_cons_of_neg skip, ih rest]
      constructor
      · rintro ⟨hi, hacc, least⟩
        refine ⟨List.mem_cons_of_mem _ hi, hacc, fun j hj accepted => ?_⟩
        rcases List.mem_cons.1 hj with rfl | hj
        · exact absurd accepted skip
        · exact least j hj accepted
      · rintro ⟨hi, hacc, least⟩
        rcases List.mem_cons.1 hi with rfl | hi
        · exact absurd hacc skip
        · exact ⟨hi, hacc, fun j hj => least j (List.mem_cons_of_mem _ hj)⟩

theorem find?_interruptOrder_iff (accepts : Interrupt → Bool) (i : Interrupt) :
    interruptOrder.find? accepts = some i ↔
      accepts i = true ∧ ∀ j, accepts j = true → interruptRank i ≤ interruptRank j := by
  rw [find?_eq_some_iff_least interruptRank accepts _ (by decide)]
  simp [mem_interruptOrder]

theorem find?_interruptOrder_none_iff (accepts : Interrupt → Bool) :
    interruptOrder.find? accepts = none ↔ ∀ j, ¬ accepts j = true := by
  simp [List.find?_eq_none, mem_interruptOrder]

/-- Settles O13: the first M-bound interrupt in the order, or where there is none the first S-bound one. -/
theorem interruptPriority : Obligations.InterruptPriority := by
  intro s i
  simp only [← takeableM_iff, ← takeableS_iff, ← find?_interruptOrder_iff, ← find?_interruptOrder_none_iff]
  unfold State.nextInterrupt
  cases interruptOrder.find? s.takeableM with
  | some j => simp
  | none => simp

theorem nextInterrupt_ne_none_iff (s : State) : s.nextInterrupt ≠ none ↔ ∃ i, wantsM s i ∨ wantsS s i := by
  rw [Ne, nextInterrupt_none_iff]
  simp only [← takeableM_iff, ← takeableS_iff, not_forall, not_and_or, Bool.not_eq_false]

/-- Settles O14: the conditions of R231 with the mode put in. -/
theorem interruptEnabledByMode : Obligations.InterruptEnabledByMode := by
  intro s
  refine ⟨fun machine => ?_, fun supervisor => ?_, fun user => ?_⟩
  · rw [nextInterrupt_ne_none_iff]
    constructor
    · rintro ⟨i, ⟨⟨pending, enabled⟩, bound, below | mie⟩ | ⟨_, _, user | ⟨supervisor, _⟩⟩⟩
      · exact absurd machine below
      · exact ⟨mie, i, pending, enabled, bound⟩
      · rw [machine] at user; cases user
      · rw [machine] at supervisor; cases supervisor
    · rintro ⟨mie, i, pending, enabled, bound⟩
      exact ⟨i, .inl ⟨⟨pending, enabled⟩, bound, .inr mie⟩⟩
  · have below : s.priv ≠ .machine := by rw [supervisor]; decide
    rw [nextInterrupt_ne_none_iff]
    constructor
    · rintro ⟨i, ⟨⟨pending, enabled⟩, noS | notDelegated, _⟩ | ⟨⟨pending, enabled⟩, _, user | ⟨_, sie⟩⟩⟩
      · exact ⟨i, pending, enabled, .inl noS⟩
      · exact ⟨i, pending, enabled, .inr (.inl notDelegated)⟩
      · rw [supervisor] at user; cases user
      · exact ⟨i, pending, enabled, .inr (.inr sie)⟩
    · rintro ⟨i, pending, enabled, gate⟩
      by_cases toS : s.cfg.hasS = true ∧ s.mideleg.getLsbD (interruptCode i) = true
      · have sie : s.mstatus.getLsbD 1 = true := by simpa [toS.1, toS.2, -BitVec.getLsbD_eq_getElem] using gate
        exact ⟨i, .inr ⟨⟨pending, enabled⟩, toS, .inr ⟨supervisor, sie⟩⟩⟩
      · rw [not_and_or, Bool.not_eq_true, Bool.not_eq_true] at toS
        exact ⟨i, .inl ⟨⟨pending, enabled⟩, toS, .inl below⟩⟩
  · have below : s.priv ≠ .machine := by rw [user]; decide
    rw [nextInterrupt_ne_none_iff]
    constructor
    · rintro ⟨i, ⟨⟨pending, enabled⟩, _⟩ | ⟨⟨pending, enabled⟩, _⟩⟩
      · exact ⟨i, pending, enabled⟩
      · exact ⟨i, pending, enabled⟩
    · rintro ⟨i, pending, enabled⟩
      by_cases toS : s.cfg.hasS = true ∧ s.mideleg.getLsbD (interruptCode i) = true
      · exact ⟨i, .inr ⟨⟨pending, enabled⟩, toS, .inl user⟩⟩
      · rw [not_and_or, Bool.not_eq_true, Bool.not_eq_true] at toS
        exact ⟨i, .inl ⟨⟨pending, enabled⟩, toS, .inl below⟩⟩

/-! ## Taking one -/

theorem mip_takeInterrupt (s : State) (i : Interrupt) : (s.takeInterrupt i).mip = s.mip := by
  simp [State.mip]

/-- Settles O15: the step is the trap of that interrupt, on the state with the lines sampled. -/
theorem stepTakesInterrupt : Obligations.StepTakesInterrupt := fun s i takeable =>
  ⟨_, step_of_interrupt takeable, tookTrap_takeTrap s.sampleLines (.interrupt i) 0#64 s.pc,
    mip_takeInterrupt s.sampleLines i, takeInterrupt_mie s.sampleLines i⟩

/-- Settles O18: a trap ends in M-mode, or in S-mode from below M-mode. -/
theorem trapNeverLowersPrivilege : Obligations.TrapNeverLowersPrivilege := by
  intro s c tval epc
  rcases takeTrap_cases s c tval epc with ⟨delegated, trap⟩ | ⟨_, trap⟩
  · obtain ⟨_, below, _⟩ := (delegated_iff s c).1 delegated
    rw [trap, trapToS_priv]
    exact ⟨by cases hp : s.priv <;> simp [modeCode, hp] at below ⊢, by decide⟩
  · rw [trap, trapToM_priv]
    exact ⟨by cases s.priv <;> decide, by decide⟩

end Sys2Proof.Machine
end

section
/-! Returning from traps, `sfence.vma` and `wfi` (40_trap_return.md; 41_sfence_wfi.md; 60_exceptions.md R240). -/

namespace Sys2Proof.Machine

/-! ## The pc (10_state.md R22) -/

theorem toNat_truncXlen (x : XLen) (w : Word) : (truncXlen x w).toNat = w.toNat % 2 ^ x.bits := by
  cases x with
  | rv64 => exact (Nat.mod_eq_of_lt w.isLt).symm
  | rv32 =>
    rw [truncXlen, BitVec.toNat_and, show (0xFFFFFFFF#64).toNat = 2 ^ 32 - 1 by rfl, Nat.and_two_pow_sub_one_eq_mod]
    rfl

theorem pcAdvanced_of_pc {s t : State} (h : t.pc = truncXlen s.cfg.xlen (s.pc + 4#64)) : pcAdvanced s t := by
  have divides : 2 ^ s.cfg.xlen.bits ∣ 2 ^ 64 := Nat.pow_dvd_pow 2 (by cases s.cfg.xlen <;> decide)
  unfold pcAdvanced
  rw [h, toNat_truncXlen, BitVec.toNat_add, Nat.mod_mod_of_dvd _ divides]
  rfl

/-! ## What only M-mode may do, or S-mode with a bit of `mstatus` clear (R161, R170) -/

/-- The hart may not run `sret` or `sfence.vma`, `bit` being TSR or TVM. -/
def State.supervisorOnly (s : State) (bit : Nat) : Bool :=
  !s.cfg.hasS || decide (s.priv = .user) || (decide (s.priv = .supervisor) && s.flag bit)

theorem supervisorOnly_iff (s : State) (bit : Nat) :
    s.supervisorOnly bit = true ↔
      s.cfg.hasS = false ∨ s.priv = .user ∨ (s.priv = .supervisor ∧ s.mstatus.getLsbD bit = true) := by
  simp [State.supervisorOnly, State.flag, or_assoc]

theorem not_supervisorOnly_iff (s : State) (bit : Nat) :
    s.supervisorOnly bit = false ↔
      s.cfg.hasS = true ∧ (s.priv = .machine ∨ (s.priv = .supervisor ∧ s.mstatus.getLsbD bit = false)) := by
  cases hp : s.priv <;> simp [State.supervisorOnly, State.flag, hp, -BitVec.getLsbD_eq_getElem]

/-! ## `sret` -/

theorem exec_sret (s : State) :
    exec .sret s = .next (if s.supervisorOnly bitTSR then s.raiseIllegal (encode .sret) else s.returnFromS) := rfl

theorem exec_sret_of_legal {s : State} (h : s.supervisorOnly bitTSR = false) : exec .sret s = .next s.returnFromS := by
  rw [exec_sret, h]
  rfl

theorem exec_sret_of_illegal {s : State} (h : s.supervisorOnly bitTSR = true) :
    exec .sret s = .next (s.raiseIllegal (encode .sret)) := by
  rw [exec_sret, h]
  rfl

theorem returnFromS_sie_bit (s : State) : s.returnFromS.mstatus.getLsbD 1 = s.mstatus.getLsbD 5 := by
  rw [returnFromS_mstatus, getLsbD_withBit_other _ _ _ _ (by decide), getLsbD_withBit_other _ _ _ _ (by decide),
    getLsbD_withBit_same _ _ _ (by decide), State.flag]

theorem returnFromS_spie_bit (s : State) : s.returnFromS.mstatus.getLsbD 5 = true := by
  rw [returnFromS_mstatus, getLsbD_withBit_other _ _ _ _ (by decide), getLsbD_withBit_same _ _ _ (by decide)]

theorem returnFromS_spp_bit (s : State) : s.returnFromS.mstatus.getLsbD 8 = false := by
  rw [returnFromS_mstatus, getLsbD_withBit_same _ _ _ (by decide)]

theorem returnFromS_other_bits (s : State) (i : Nat) (not1 : i ≠ 1) (not5 : i ≠ 5) (not8 : i ≠ 8) :
    s.returnFromS.mstatus.getLsbD i = s.mstatus.getLsbD i := by
  rw [returnFromS_mstatus, getLsbD_withBit_other _ _ _ _ not8.symm, getLsbD_withBit_other _ _ _ _ not5.symm,
    getLsbD_withBit_other _ _ _ _ not1.symm]

/-- Settles O23: the return where it is legal, field by field, and the trap elsewhere. -/
theorem sretResult : Obligations.SretResult := by
  intro s
  cases h : s.supervisorOnly bitTSR with
  | true =>
    refine ⟨_, exec_sret_of_illegal h, fun legal => ?_, fun _ => tookTrap_raiseIllegal s (encode .sret)⟩
    rw [(not_supervisorOnly_iff s bitTSR).2 legal] at h
    cases h
  | false =>
    refine ⟨_, exec_sret_of_legal h, fun _ => ?_, fun illegal => ?_⟩
    · exact ⟨returnFromS_pc s, rfl, returnFromS_sie_bit s, returnFromS_spie_bit s, returnFromS_spp_bit s,
        returnFromS_other_bits s, rfl⟩
    · rw [(supervisorOnly_iff s bitTSR).2 illegal] at h
      cases h

/-! ## A return right after a trap (60_exceptions.md R240) -/

theorem mppOf_of_extract {m : Word} {p : Mode} (h : m.extractLsb' 11 2 = BitVec.ofNat 2 (modeCode p)) :
    mppOf m = p := by
  rw [mppOf, h]
  cases p <;> rfl

/-- `mret` undoes a trap to M-mode. -/
theorem returnFromM_undoes {s t : State} {isInterrupt : Bool} {code : Nat} {tval : Word} (aligned : aligned4 s.pc)
    (trap : TookTrapM s t isInterrupt code tval s.pc) :
    t.returnFromM.pc = s.pc ∧ t.returnFromM.priv = s.priv ∧
      t.returnFromM.mstatus.getLsbD 3 = s.mstatus.getLsbD 3 ∧ sameRegs s t.returnFromM ∧ sameBytes s t.returnFromM ∧
      sameSupervisorTrapRegs s t.returnFromM ∧ sameOtherCsrs s t.returnFromM ∧
      ∀ i, i ≠ 3 → i ≠ 7 → i ≠ 11 → i ≠ 12 → t.returnFromM.mstatus.getLsbD i = s.mstatus.getLsbD i := by
  refine ⟨?_, ?_, ?_, trap.rest.regs, trap.rest.bytes, trap.supervisor, trap.rest.csrs, fun i h3 h7 h11 h12 => ?_⟩
  · rw [returnFromM_pc, trap.mepc]
    exact clearLow2_of_aligned s.pc aligned
  · rw [returnFromM_priv, mppOf_of_extract trap.mpp]
  · rw [returnFromM_mie_bit, trap.mpie]
  · rw [returnFromM_other_bits t i h3 h7 h11 h12, trap.status i h3 h7 h11 h12]

/-- `sret` undoes a trap to S-mode, which comes from S or U. -/
theorem returnFromS_undoes {s t : State} {isInterrupt : Bool} {code : Nat} {tval : Word} (aligned : aligned4 s.pc)
    (below : s.priv ≠ .machine) (trap : TookTrapS s t isInterrupt code tval s.pc) :
    t.returnFromS.pc = s.pc ∧ t.returnFromS.priv = s.priv ∧
      t.returnFromS.mstatus.getLsbD 1 = s.mstatus.getLsbD 1 ∧ sameRegs s t.returnFromS ∧ sameBytes s t.returnFromS ∧
      sameMachineTrapRegs s t.returnFromS ∧ sameOtherCsrs s t.returnFromS ∧
      ∀ i, i ≠ 1 → i ≠ 5 → i ≠ 8 → t.returnFromS.mstatus.getLsbD i = s.mstatus.getLsbD i := by
  refine ⟨?_, ?_, ?_, trap.rest.regs, trap.rest.bytes, trap.machine, trap.rest.csrs, fun i h1 h5 h8 => ?_⟩
  · rw [returnFromS_pc, trap.sepc]
    exact clearLow2_of_aligned s.pc aligned
  · rw [returnFromS_priv, sppOf, trap.spp]
    cases hp : s.priv with
    | machine => exact absurd hp below
    | supervisor => rfl
    | user => rfl
  · rw [returnFromS_sie_bit, trap.spie]
  · rw [returnFromS_other_bits t i h1 h5 h8, trap.status i h1 h5 h8]

/-- Settles O19: the return is made in the mode the trap went to, and undoes it. -/
theorem returnUndoesTrap : Obligations.ReturnUndoesTrap := by
  intro s c tval aligned
  obtain ⟨trapS, trapM⟩ := tookTrap_takeTrap s c tval s.pc
  refine ⟨fun toM => ?_, fun toS tsr => ?_⟩
  · exact ⟨_, exec_mret_of_machine (trapM toM).priv, returnFromM_undoes aligned (trapM toM)⟩
  · obtain ⟨hasS, below, _⟩ := id toS
    have trap := trapS toS
    have stillClear : (s.takeTrap c tval s.pc).mstatus.getLsbD bitTSR = false :=
      (trap.status bitTSR (by decide) (by decide) (by decide)).trans tsr
    have legal : (s.takeTrap c tval s.pc).supervisorOnly bitTSR = false :=
      (not_supervisorOnly_iff _ _).2 ⟨(congrArg Config.hasS (takeTrap_cfg ..)).trans hasS, .inr ⟨trap.priv, stillClear⟩⟩
    exact ⟨_, exec_sret_of_legal legal, returnFromS_undoes aligned below trap⟩

/-! ## `sfence.vma` -/

/-- A register operand of `sfence.vma`, absent where its field is `x0` (R170). -/
def State.fenceAddress (s : State) (rs1 : RegIdx) : Option Word := if rs1 = 0#5 then none else some (s.readReg rs1)

/-- The address space an `sfence.vma` names, absent where its field is `x0` (R170). -/
def State.fenceSpace (s : State) (rs2 : RegIdx) : Option Nat :=
  if rs2 = 0#5 then none else some ((s.readReg rs2).toNat % 2 ^ s.cfg.asidLen)

/-- The state after an `sfence.vma` that completes. -/
def State.fenced (s : State) (rs1 rs2 : RegIdx) : State :=
  ({ s with hist := histFenced (s.fenceAddress rs1) (s.fenceSpace rs2) s.hist } : State).advance

theorem exec_sfenceVma (s : State) (rs1 rs2 : RegIdx) :
    exec (.sfenceVma rs1 rs2) s =
      .next (if s.supervisorOnly bitTVM then s.raiseIllegal (encode (.sfenceVma rs1 rs2)) else s.fenced rs1 rs2) := rfl

theorem exec_sfenceVma_of_legal {s : State} (h : s.supervisorOnly bitTVM = false) (rs1 rs2 : RegIdx) :
    exec (.sfenceVma rs1 rs2) s = .next (s.fenced rs1 rs2) := by
  rw [exec_sfenceVma, h]
  rfl

/-- Settles O24: the fence where it is legal, and the trap elsewhere. -/
theorem sfenceVmaResult : Obligations.SfenceVmaResult := by
  intro s rs1 rs2
  cases h : s.supervisorOnly bitTVM with
  | true =>
    refine ⟨s.raiseIllegal (encode (.sfenceVma rs1 rs2)), by rw [exec_sfenceVma, h]; rfl, fun legal => ?_,
      fun _ => tookTrap_raiseIllegal s (encode (.sfenceVma rs1 rs2))⟩
    rw [(not_supervisorOnly_iff s bitTVM).2 legal] at h
    cases h
  | false =>
    refine ⟨s.fenced rs1 rs2, exec_sfenceVma_of_legal h rs1 rs2, fun _ => ?_, fun illegal => ?_⟩
    · refine ⟨pcAdvanced_of_pc rfl, rfl, ?_⟩
      rintro rfl rfl
      rfl
    · rw [(supervisorOnly_iff s bitTVM).2 illegal] at h
      cases h

/-! ## `wfi` -/

/-- The state after a `wfi` that completes. -/
def State.afterWfi (s : State) : State := { s.drawn.advance with waiting := s.wfiWants && !s.wakeUp }

theorem exec_wfi (s : State) :
    exec .wfi s =
      .next (if s.wfiMayTrap && Config.wfiTraps s.draws then s.drawn.raiseIllegal (encode .wfi) else s.afterWfi) := rfl

theorem wfiMayTrap_iff (s : State) :
    s.wfiMayTrap = true ↔
      (s.priv ≠ .machine ∧ s.mstatus.getLsbD 21 = true) ∨ (s.priv = .user ∧ s.cfg.hasS = true) := by
  simp [State.wfiMayTrap, State.flag, -BitVec.getLsbD_eq_getElem]

theorem wakeUp_eq_false_iff (s : State) : s.wakeUp = false ↔ s.mip &&& s.mie = 0#64 := by
  rw [Bool.eq_false_iff, Ne, wakeUp_iff, not_not]

/-- The policy Nop never waits (R171). -/
theorem afterWfi_waits {s : State} (h : s.afterWfi.waiting = true) :
    s.cfg.wfiPolicy ≠ .nop ∧ s.mip &&& s.mie = 0#64 := by
  change (s.wfiWants && !s.wakeUp) = true at h
  rw [Bool.and_eq_true, Bool.not_eq_true', wakeUp_eq_false_iff] at h
  refine ⟨fun nop => ?_, h.2⟩
  simp [State.wfiWants, nop] at h

/-- The policy Wait waits where nothing wakes the hart at once (R171). -/
theorem afterWfi_must_wait {s : State} (policy : s.cfg.wfiPolicy = .wait) (nothing : s.mip &&& s.mie = 0#64) :
    s.afterWfi.waiting = true := by
  change (s.wfiWants && !s.wakeUp) = true
  rw [(wakeUp_eq_false_iff s).2 nothing]
  simp [State.wfiWants, policy]

/-- Settles O26: the two outcomes of `wfi` by the free choice, which counts only where R171 lets it. -/
theorem wfiResult : Obligations.WfiResult := by
  intro s done mayTrap
  have completes : done s.afterWfi := ⟨pcAdvanced_of_pc rfl, rfl, afterWfi_waits, afterWfi_must_wait⟩
  refine ⟨fun mayNot => ⟨s.afterWfi, ?_, completes⟩, fun _ => ?_⟩
  · rw [exec_wfi, Bool.eq_false_iff.2 (mt (wfiMayTrap_iff s).1 mayNot)]
    rfl
  · cases choice : s.wfiMayTrap && Config.wfiTraps s.draws with
    | true =>
      exact ⟨s.drawn.raiseIllegal (encode .wfi), by rw [exec_wfi, choice]; rfl,
        .inr (tookTrap_raiseIllegal s.drawn (encode .wfi))⟩
    | false => exact ⟨s.afterWfi, by rw [exec_wfi, choice]; rfl, .inl completes⟩

end Sys2Proof.Machine
end

section
/-! The CSR instructions: which access is granted, and what a granted one does (43_csr_access.md R190-R196). -/

namespace Sys2Proof.Machine

/-! ## The CSR a number names (10_state.md R60, R62) -/

/-- The named CSRs of R60, with their numbers. -/
def namedCsrs : List (Nat × Csr) :=
  [(0x100, Csr.sstatus), (0x104, .sie), (0x105, .stvec), (0x140, .sscratch), (0x141, .sepc), (0x142, .scause),
    (0x143, .stval), (0x144, .sip), (0x180, .satp), (0x300, .mstatus), (0x302, .medeleg), (0x303, .mideleg),
    (0x304, .mie), (0x305, .mtvec), (0x340, .mscratch), (0x341, .mepc), (0x342, .mcause), (0x343, .mtval), (0x344, .mip)]

theorem csrOfNumber_named : ∀ p ∈ namedCsrs, csrOfNumber p.1 = some p.2 := by decide +kernel

theorem csrOfNumber_pmpcfg : ∀ k : Fin 4, csrOfNumber (0x3A0 + k.val) = some (.pmpcfg k) := by decide +kernel

theorem csrOfNumber_pmpaddr : ∀ i : Fin 16, csrOfNumber (0x3B0 + i.val) = some (.pmpaddr i) := by decide +kernel

theorem csrOfNumber_some {n : Nat} {c : Csr} (h : csrOfNumber n = some c) :
    (n, c) ∈ namedCsrs ∨ (∃ k : Fin 4, n = 0x3A0 + k.val ∧ c = .pmpcfg k) ∨
      (∃ i : Fin 16, n = 0x3B0 + i.val ∧ c = .pmpaddr i) := by
  unfold csrOfNumber at h
  split at h
  case h_20 =>
    split at h
    · next inCfg =>
      have value : n - 0x3A0 < 4 := by omega
      refine .inr (.inl ⟨⟨n - 0x3A0, value⟩, by simp only; omega, ?_⟩)
      exact (Option.some.inj h).symm.trans (congrArg Csr.pmpcfg (Fin.ext (Nat.mod_eq_of_lt value)))
    · split at h
      · next inAddr =>
        have value : n - 0x3B0 < 16 := by omega
        refine .inr (.inr ⟨⟨n - 0x3B0, value⟩, by simp only; omega, ?_⟩)
        exact (Option.some.inj h).symm.trans (congrArg Csr.pmpaddr (Fin.ext (Nat.mod_eq_of_lt value)))
      · cases h
  all_goals
    rw [← Option.some.inj h]
    exact .inl (by simp [namedCsrs])

/-- R62 refuses none of the numbers of R60. -/
theorem csrOutside_of_named (x : XLen) {n : Nat} {c : Csr} (h : csrOfNumber n = some c) : csrOutside x n = false := by
  have named : ∀ p ∈ namedCsrs, csrOutside x p.1 = false := by cases x <;> decide +kernel
  have cfgs : ∀ k : Fin 4, csrOutside x (0x3A0 + k.val) = false := by cases x <;> decide +kernel
  have addrs : ∀ i : Fin 16, csrOutside x (0x3B0 + i.val) = false := by cases x <;> decide +kernel
  rcases csrOfNumber_some h with listed | ⟨k, rfl, _⟩ | ⟨i, rfl, _⟩
  · exact named (n, c) listed
  · exact cfgs k
  · exact addrs i

/-- No number of R60 is of a read-only CSR. -/
theorem csrReadOnly_of_named {n : CsrNum} {c : Csr} (h : csrOfNumber n.toNat = some c) : csrReadOnly n = false := by
  have below : n.toNat < 0xC00 := by
    have named : ∀ p ∈ namedCsrs, p.1 < 0xC00 := by decide +kernel
    rcases csrOfNumber_some h with listed | ⟨k, number, _⟩ | ⟨i, number, _⟩
    · exact named _ listed
    · omega
    · omega
  rw [csrReadOnly, decide_eq_false_iff_not]
  intro readOnly
  have value := congrArg BitVec.toNat readOnly
  rw [BitVec.extractLsb'_toNat, Nat.shiftRight_eq_div_pow, BitVec.toNat_ofNat] at value
  omega

/-! ## The access check (R190) -/

/-- An access that R190 admits is granted, whether or not it writes. -/
theorem csrCheck_of_accessible {s : State} {n : CsrNum} {c : Csr} (h : csrAccessible s n c) (willWrite : Bool) :
    s.csrCheck n willWrite = .granted c := by
  obtain ⟨names, there, level, notTrapped⟩ := h
  have tvm : (decide (c = .satp) && decide (s.priv = .supervisor) && s.flag bitTVM) = false := by
    simpa [State.flag, -BitVec.getLsbD_eq_getElem] using notTrapped
  have mode : ¬ modeCode s.priv < csrLevel n := Nat.not_lt.2 level
  simp [State.csrCheck, csrOutside_of_named s.cfg.xlen names, names, there, mode, csrReadOnly_of_named names, tvm]

theorem accessible_of_granted {s : State} {n : CsrNum} {willWrite : Bool} {c : Csr}
    (h : s.csrCheck n willWrite = .granted c) : csrAccessible s n c := by
  obtain ⟨_, names, there, level, _, tvm⟩ := csrCheck_granted s n willWrite c h
  refine ⟨names, there, level, fun ⟨isSatp, supervisor, trapped⟩ => ?_⟩
  have clear : s.mstatus.getLsbD 20 = false := tvm isSatp supervisor
  rw [clear] at trapped
  cases trapped

theorem csrCheck_outside_iff (s : State) (n : CsrNum) (willWrite : Bool) :
    s.csrCheck n willWrite = .outside ↔ csrOutside s.cfg.xlen n.toNat = true := by
  unfold State.csrCheck
  split
  · next outside => simp [outside]
  · next inside =>
    refine ⟨fun h => ?_, fun h => absurd h inside⟩
    split at h
    · cases h
    · split_ifs at h

theorem csrInstr_of_granted {s : State} {n : CsrNum} {c : Csr} {willWrite : Bool} (h : s.csrCheck n willWrite = .granted c)
    (w : InstrWord) (rd : RegIdx) (new : Word → Word) :
    s.csrInstr w n rd willWrite new =
      .next (((if willWrite then s.csrWrite c (new (s.csrReadForModify c)) else s).writeReg rd (s.csrRead c)).advance) := by
  rw [State.csrInstr, h]

theorem csrInstr_of_illegal {s : State} {n : CsrNum} {willWrite : Bool} (h : s.csrCheck n willWrite = .illegal)
    (w : InstrWord) (rd : RegIdx) (new : Word → Word) :
    s.csrInstr w n rd willWrite new = .next (s.raiseIllegal w) := by
  rw [State.csrInstr, h]

theorem csrInstr_of_outside {s : State} {n : CsrNum} {willWrite : Bool} (h : s.csrCheck n willWrite = .outside)
    (w : InstrWord) (rd : RegIdx) (new : Word → Word) :
    s.csrInstr w n rd willWrite new = .refused .csrOutsideSpec := by
  rw [State.csrInstr, h]

/-! ## A granted access (R191-R196) -/

theorem csrDone_of_writeReg {s w : State} (rd : RegIdx) (old : Word) (regs : w.x = s.x) (pc : w.pc = s.pc)
    (cfg : w.cfg = s.cfg) : CsrDone s w (w.writeReg rd old).advance rd old where
  regs r := by
    rw [readReg_advance, readReg_writeReg, readReg_congr s w regs]
  pc := by
    apply pcAdvanced_of_pc
    rw [advance_pc, writeReg_cfg, writeReg_pc, pc, cfg]
  rest := rfl

/-- A CSR instruction on an accessible CSR writes it if it writes, and `rd` gets the value before. -/
theorem csrInstr_done {s : State} {n : CsrNum} {c : Csr} (access : csrAccessible s n c) (w : InstrWord) (rd : RegIdx)
    (willWrite : Bool) (new : Word → Word) :
    ∃ t, s.csrInstr w n rd willWrite new = .next t ∧
      CsrDone s (if willWrite then s.csrWrite c (new (s.csrReadForModify c)) else s) t rd (s.csrRead c) := by
  refine ⟨_, csrInstr_of_granted (csrCheck_of_accessible access willWrite) w rd new, ?_⟩
  cases willWrite with
  | true => exact csrDone_of_writeReg rd _ (csrWrite_x s c _) (csrWrite_pc s c _) (csrWrite_cfg s c _)
  | false => exact csrDone_of_writeReg rd _ rfl rfl rfl

/-- A set or clear instruction does not write where its field is zero. -/
theorem csrInstr_done_unless_zero {s : State} {n : CsrNum} {c : Csr} (access : csrAccessible s n c) (w : InstrWord)
    (rd : RegIdx) (field : BitVec 5) (new : Word → Word) :
    ∃ t, s.csrInstr w n rd (decide (field ≠ 0#5)) new = .next t ∧
      CsrDone s (if field = 0#5 then s else s.csrWrite c (new (s.csrReadForModify c))) t rd (s.csrRead c) := by
  have done := csrInstr_done access w rd (decide (field ≠ 0#5)) new
  by_cases zero : field = 0#5
  · subst zero
    exact done
  · have writes : decide (field ≠ 0#5) = true := decide_eq_true zero
    rw [if_neg zero]
    rw [writes] at done ⊢
    exact done

/-- Settles O27: both forms write, whatever they write over. -/
theorem csrReadWriteResult : Obligations.CsrReadWriteResult := fun s rd rs1 n uimm _ access =>
  ⟨csrInstr_done access (encode (.csrrw rd n rs1)) rd true fun _ => s.readReg rs1,
    csrInstr_done access (encode (.csrrwi rd n uimm)) rd true fun _ => immOperand uimm⟩

/-- Settles O28: both forms write the value they modify with the mask's bits set. -/
theorem csrSetBitsResult : Obligations.CsrSetBitsResult := fun s rd rs1 n uimm _ access =>
  ⟨csrInstr_done_unless_zero access (encode (.csrrs rd n rs1)) rd rs1 fun old => old ||| s.readReg rs1,
    csrInstr_done_unless_zero access (encode (.csrrsi rd n uimm)) rd uimm fun old => old ||| immOperand uimm⟩

/-- Settles O29: both forms write the value they modify with the mask's bits cleared. -/
theorem csrClearBitsResult : Obligations.CsrClearBitsResult := fun s rd rs1 n uimm _ access =>
  ⟨csrInstr_done_unless_zero access (encode (.csrrc rd n rs1)) rd rs1 fun old => old &&& ~~~s.readReg rs1,
    csrInstr_done_unless_zero access (encode (.csrrci rd n uimm)) rd uimm fun old => old &&& ~~~immOperand uimm⟩

/-! ## Any other access -/

theorem csrCheck_of_inaccessible {s : State} {n : CsrNum} (inside : csrOutside s.cfg.xlen n.toNat = false)
    (none : ¬ ∃ c, csrAccessible s n c) (willWrite : Bool) : s.csrCheck n willWrite = .illegal := by
  cases h : s.csrCheck n willWrite with
  | illegal => rfl
  | granted c => exact absurd ⟨c, accessible_of_granted h⟩ none
  | outside =>
    rw [(csrCheck_outside_iff s n willWrite).1 h] at inside
    cases inside

/-- Settles O30: the refused numbers, the accesses R190 forbids, and the two tables of R60. -/
theorem csrAccessRefused : Obligations.CsrAccessRefused := by
  refine ⟨fun s i n number => ?_, ?_, fun n c => ⟨csrOfNumber_some, ?_⟩, fun cfg => ?_⟩
  · obtain ⟨willWrite, new, body⟩ := exec_of_csrNumber s number
    rw [body]
    refine ⟨fun outside => ?_, fun inside none => ?_⟩
    · exact csrInstr_of_outside ((csrCheck_outside_iff s n willWrite).2 outside) _ _ new
    · exact ⟨_, csrInstr_of_illegal (csrCheck_of_inaccessible inside none willWrite) _ _ new,
        tookTrap_raiseIllegal s (encode i)⟩
  · intro x
    cases x <;> decide
  · rintro (listed | ⟨k, rfl, rfl⟩ | ⟨i, rfl, rfl⟩)
    · exact csrOfNumber_named _ listed
    · exact csrOfNumber_pmpcfg k
    · exact csrOfNumber_pmpaddr i
  · simp [csrExists, and_comm]

end Sys2Proof.Machine
end

section
/-! The registers behind the CSRs, bit by bit: what a read shows, what a write reaches, and what it leaves
(10_state.md R26, R34-R57). -/

namespace Sys2Proof.Machine

/-! ## Masks, bit by bit -/

/-- A word is known bit by bit from its 64 bits and from there being no others. -/
theorem getLsbD_eq_of_low {w : Word} {bit : Nat → Bool} (low : ∀ k : Fin 64, w.getLsbD k.val = bit k.val)
    (high : ∀ i, 64 ≤ i → bit i = false) (i : Nat) : w.getLsbD i = bit i := by
  by_cases h : i < 64
  · exact low ⟨i, h⟩
  · rw [high i (by omega), BitVec.getLsbD_of_ge w i (by omega)]

theorem getLsbD_mstatusWritable (c : Config) (i : Nat) :
    (mstatusWritable c).getLsbD i = (decide (i ∈ [3, 7]) || (c.hasS && decide (i ∈ [1, 5, 8, 18, 19, 20, 21, 22])) ||
      (c.hasU && decide (i = 17))) := by
  have always := getLsbD_eq_of_low (w := 0x88#64) (bit := fun i => decide (i ∈ [3, 7])) (by decide)
    (fun i h => by simp; omega) i
  have supervisor := getLsbD_eq_of_low (w := 0x7C0122#64) (bit := fun i => decide (i ∈ [1, 5, 8, 18, 19, 20, 21, 22]))
    (by decide) (fun i h => by simp; omega) i
  have user := getLsbD_eq_of_low (w := 0x20000#64) (bit := fun i => decide (i = 17)) (by decide)
    (fun i h => by simp; omega) i
  unfold mstatusWritable
  rw [BitVec.getLsbD_or, BitVec.getLsbD_or, always, ← supervisor, ← user]
  cases c.hasS <;> cases c.hasU <;> simp

theorem getLsbD_sstatusMask (i : Nat) : sstatusMask.getLsbD i = decide (i ∈ [1, 5, 8, 18, 19]) :=
  getLsbD_eq_of_low (bit := fun i => decide (i ∈ [1, 5, 8, 18, 19])) (by decide) (fun i h => by simp; omega) i

theorem getLsbD_supervisorBits (c : Config) (i : Nat) :
    (supervisorBits c).getLsbD i = (c.hasS && decide (i ∈ [1, 5, 9])) := by
  unfold supervisorBits
  cases c.hasS with
  | true => exact getLsbD_supervisorMask i
  | false => simp

theorem getLsbD_interruptBits (c : Config) (i : Nat) :
    (interruptBits c).getLsbD i = (decide (i ∈ [3, 7, 11]) || (c.hasS && decide (i ∈ [1, 5, 9]))) := by
  have machine := getLsbD_eq_of_low (w := (0x888 : Word)) (bit := fun i => decide (i ∈ [3, 7, 11])) (by decide)
    (fun i h => by simp; omega) i
  rw [interruptBits, BitVec.getLsbD_or, getLsbD_supervisorBits, machine]

theorem getLsbD_medelegMask (i : Nat) : (0xB3FF#64).getLsbD i = (decide (i ≤ 9) || decide (i ∈ [12, 13, 15])) :=
  getLsbD_eq_of_low (bit := fun i => decide (i ≤ 9) || decide (i ∈ [12, 13, 15])) (by decide)
    (fun i h => by simp; omega) i

theorem getLsbD_clearLow2 (w : Word) (i : Nat) : (clearLow2 w).getLsbD i = (decide (2 ≤ i) && w.getLsbD i) := by
  by_cases h : i < 64
  · have mask : ∀ k : Fin 64, (~~~3#64).getLsbD k.val = decide (2 ≤ k.val) := by decide
    rw [clearLow2, BitVec.getLsbD_and, mask ⟨i, h⟩, Bool.and_comm]
  · rw [BitVec.getLsbD_of_ge _ i (by omega), BitVec.getLsbD_of_ge w i (by omega), Bool.and_false]

theorem getLsbD_lowMask (n i : Nat) : (lowMask n).getLsbD i = (decide (i < 64) && decide (i < n)) := by
  rw [lowMask, BitVec.getLsbD_ofNat, Nat.testBit_two_pow_sub_one]

/-- A word has no bit from 64 up, so a mask may have any there. -/
theorem getLsbD_and_lt (w : Word) (i : Nat) : (decide (i < 64) && w.getLsbD i) = w.getLsbD i := by
  by_cases h : i < 64
  · simp [h]
  · rw [BitVec.getLsbD_of_ge w i (by omega), Bool.and_false]

/-! ## `mstatus` and `sstatus` -/

theorem legalMpp_iff (c : Config) (v : BitVec 2) :
    legalMpp c v = true ↔ v = 3#2 ∨ (v = 1#2 ∧ c.hasS = true) ∨ (v = 0#2 ∧ c.hasU = true) := by
  have values : v = 0#2 ∨ v = 1#2 ∨ v = 2#2 ∨ v = 3#2 := by
    revert v
    decide
  rcases values with rfl | rfl | rfl | rfl <;> simp [legalMpp, modeOfCode, hasMode]

theorem extract_mstatusWritten (c : Config) (m v : Word) :
    (mstatusWritten c m v).extractLsb' 11 2 =
      if legalMpp c (v.extractLsb' 11 2) then v.extractLsb' 11 2 else m.extractLsb' 11 2 := by
  obtain ⟨no11, no12⟩ := mstatusWritable_no_mpp c
  unfold mstatusWritten
  dsimp only
  split
  · exact extract_withMask_maskMPP _ v
  · exact extract_withMask_of_clear no11 no12

/-- Outside MPP a write takes the writable fields, whether or not it takes MPP. -/
theorem getLsbD_mstatusWritten (c : Config) (m v : Word) {i : Nat} (not11 : i ≠ 11) (not12 : i ≠ 12) :
    (mstatusWritten c m v).getLsbD i = if (mstatusWritable c).getLsbD i then v.getLsbD i else m.getLsbD i := by
  unfold mstatusWritten
  dsimp only
  split
  · rw [getLsbD_withMask, getLsbD_maskMPP, decide_eq_false not11, decide_eq_false not12, Bool.or_self,
      if_neg Bool.false_ne_true, getLsbD_withMask]
  · exact getLsbD_withMask m v _ i

/-- A bit that is neither writable nor of MPP is hardwired to zero. -/
theorem State.ModesOk.hardwired_bit {s : State} (h : s.ModesOk) {i : Nat}
    (fixed : (mstatusWritable s.cfg).getLsbD i = false) (not11 : i ≠ 11) (not12 : i ≠ 12) :
    s.mstatus.getLsbD i = false := by
  have outside := (and_not_eq_zero_iff _ _).1 h.hardwired i
  rw [BitVec.getLsbD_or, fixed, getLsbD_maskMPP, decide_eq_false not11, decide_eq_false not12] at outside
  exact Bool.eq_false_iff.2 fun set => Bool.false_ne_true (outside set)

/-- Settles O31: each field by the mask of the writable ones, and MPP by the legality of the value. -/
theorem mstatusWrite : Obligations.MstatusWrite := by
  rintro s _ v rfl
  have written : ∀ i, i ≠ 11 → i ≠ 12 → (s.csrWrite .mstatus v).mstatus.getLsbD i =
      if (mstatusWritable s.cfg).getLsbD i then v.getLsbD i else s.mstatus.getLsbD i :=
    fun i not11 not12 => getLsbD_mstatusWritten s.cfg s.mstatus v not11 not12
  refine ⟨rfl, ?_, ?_, ?_, fun i listed => ?_, ?_, fun i unlisted => ?_⟩
  · rw [written 3 (by decide) (by decide), getLsbD_mstatusWritable]
    rfl
  · rw [written 7 (by decide) (by decide), getLsbD_mstatusWritable]
    rfl
  · exact (extract_mstatusWritten s.cfg s.mstatus v).trans (if_congr (legalMpp_iff _ _) rfl rfl)
  · have others : ∀ j ∈ [1, 5, 8, 18, 19, 20, 21, 22], j ≠ 11 ∧ j ≠ 12 ∧ j ≠ 17 ∧ j ∉ [3, 7] := by decide
    obtain ⟨not11, not12, not17, notMachine⟩ := others i listed
    rw [written i not11 not12, getLsbD_mstatusWritable, decide_eq_true listed, decide_eq_false not17,
      decide_eq_false notMachine, Bool.and_true, Bool.and_false, Bool.or_false, Bool.false_or]
  · rw [written 17 (by decide) (by decide), getLsbD_mstatusWritable]
    cases s.cfg.hasU <;> simp
  · simp only [List.mem_cons, List.not_mem_nil, or_false, not_or] at unlisted
    have fixed : (mstatusWritable s.cfg).getLsbD i = false := by
      rw [getLsbD_mstatusWritable]
      simp [unlisted]
    have not11 : i ≠ 11 := unlisted.2.2.2.2.2.1
    have not12 : i ≠ 12 := unlisted.2.2.2.2.2.2.1
    have kept : (s.csrWrite .mstatus v).mstatus.getLsbD i = s.mstatus.getLsbD i := by
      rw [written i not11 not12, fixed, if_neg Bool.false_ne_true]
    exact ⟨kept, fun ok => kept.trans (ok.hardwired_bit fixed not11 not12)⟩

/-- Settles O32: the mask of the five fields, in a read and in a write. -/
theorem sstatusIsViewOfMstatus : Obligations.SstatusIsViewOfMstatus := by
  intro s v i
  constructor
  · change (s.mstatus &&& sstatusMask).getLsbD i = _
    rw [BitVec.getLsbD_and, getLsbD_sstatusMask, Bool.and_comm]
  · change (withMask s.mstatus v sstatusMask).getLsbD i = _
    rw [getLsbD_withMask, getLsbD_sstatusMask]
    simp only [decide_eq_true_eq]

/-! ## `mip`, `mie` and the delegation registers -/

theorem getLsbD_linesWord (l : Lines) (i : Nat) :
    (linesWord l).getLsbD i = ((decide (i = 11) && l.meip) || (decide (i = 7) && l.mtip) || (decide (i = 3) && l.msip) ||
      (decide (i = 9) && l.seip)) := by
  have single : ∀ n, n < 64 → ∀ b : Bool,
      (if b then BitVec.twoPow 64 n else 0#64).getLsbD i = (decide (i = n) && b) := by
    intro n hn b
    cases b with
    | false => simp
    | true =>
      rw [if_pos rfl, BitVec.getLsbD_twoPow, Bool.and_true, decide_eq_true hn, Bool.true_and]
      exact decide_eq_decide.2 eq_comm
  have line : linesWord l = (if l.meip then BitVec.twoPow 64 11 else 0#64) ||| (if l.mtip then BitVec.twoPow 64 7 else 0#64)
      ||| (if l.msip then BitVec.twoPow 64 3 else 0#64) ||| (if l.seip then BitVec.twoPow 64 9 else 0#64) := rfl
  rw [line, BitVec.getLsbD_or, BitVec.getLsbD_or, BitVec.getLsbD_or, single 11 (by decide), single 7 (by decide),
    single 3 (by decide), single 9 (by decide)]

theorem State.InterruptRegsOk.mipSw_bit {s : State} (h : s.InterruptRegsOk) (i : Nat) :
    s.mipSw.getLsbD i = (s.cfg.hasS && decide (i ∈ [1, 5, 9]) && s.mipSw.getLsbD i) := by
  have inside := (and_not_eq_zero_iff _ _).1 h.mipSw i
  rw [getLsbD_supervisorBits] at inside
  cases set : s.mipSw.getLsbD i with
  | false => simp
  | true => rw [inside set]; rfl

theorem getLsbD_mip (s : State) (i : Nat) :
    s.mip.getLsbD i = ((s.mipSw.getLsbD i || (linesWord s.lines).getLsbD i) &&
      (decide (i ∈ [3, 7, 11]) || (s.cfg.hasS && decide (i ∈ [1, 5, 9])))) := by
  rw [State.mip, BitVec.getLsbD_and, BitVec.getLsbD_or, getLsbD_interruptBits]

theorem getLsbD_mipForModify (s : State) (i : Nat) :
    s.mipForModify.getLsbD i =
      ((s.mipSw.getLsbD i || (linesWord { s.lines with seip := false }).getLsbD i) &&
        (decide (i ∈ [3, 7, 11]) || (s.cfg.hasS && decide (i ∈ [1, 5, 9])))) := by
  rw [State.mipForModify, BitVec.getLsbD_and, BitVec.getLsbD_or, getLsbD_interruptBits]

/-- Settles O34: the written bits and the lines, each at its place, under the mask of the bits that exist. -/
theorem mipReadsAndWrites : Obligations.MipReadsAndWrites := by
  intro s v ok
  have read : s.csrRead .mip = s.mip := rfl
  have modify : s.csrReadForModify .mip = s.mipForModify := rfl
  have machineBit : ∀ i ∈ [3, 7, 11], s.mipSw.getLsbD i = false := by
    intro i listed
    have unlisted : ∀ j ∈ [3, 7, 11], j ∉ [1, 5, 9] := by decide
    rw [ok.mipSw_bit, decide_eq_false (unlisted i listed), Bool.and_false, Bool.false_and]
  refine ⟨?_, ?_, ?_, ?_, ?_, fun i not9 => ?_, fun i listed => ?_, fun i unlisted => ?_, fun i => ?_,
    fun c => csrReadForModify_of_ne_mip s⟩
  · rw [read, getLsbD_mip, machineBit 11 (by decide), getLsbD_linesWord]
    simp
  · rw [read, getLsbD_mip, machineBit 7 (by decide), getLsbD_linesWord]
    simp
  · rw [read, getLsbD_mip, machineBit 3 (by decide), getLsbD_linesWord]
    simp
  · rw [read, getLsbD_mip, getLsbD_linesWord, Bool.and_comm]
    simp
  · rw [modify, getLsbD_mipForModify, getLsbD_linesWord, ok.mipSw_bit 9]
    cases s.cfg.hasS <;> simp
  · rw [modify, read, getLsbD_mipForModify, getLsbD_mip, getLsbD_linesWord, getLsbD_linesWord, decide_eq_false not9]
    rfl
  · have noLine : ∀ j ∈ [1, 5], (linesWord s.lines).getLsbD j = false := by
      intro j listed
      have others : ∀ k ∈ [1, 5], k ≠ 11 ∧ k ≠ 7 ∧ k ≠ 3 ∧ k ≠ 9 := by decide
      obtain ⟨not11, not7, not3, not9⟩ := others j listed
      rw [getLsbD_linesWord, decide_eq_false not11, decide_eq_false not7, decide_eq_false not3, decide_eq_false not9]
      rfl
    have places : ∀ j ∈ [1, 5], j ∉ [3, 7, 11] ∧ j ∈ [1, 5, 9] := by decide
    obtain ⟨notMachine, supervisor⟩ := places i listed
    rw [read, getLsbD_mip, noLine i listed, decide_eq_false notMachine, decide_eq_true supervisor, Bool.or_false,
      Bool.false_or, Bool.and_true]
    have inside := ok.mipSw_bit i
    rw [decide_eq_true supervisor, Bool.and_true] at inside
    rw [Bool.and_comm, ← inside]
  · have places : i ∉ [3, 7, 11] ∧ i ∉ [1, 5, 9] := by
      constructor <;> intro listed <;> simp at listed unlisted <;> omega
    rw [read, getLsbD_mip, decide_eq_false places.1, decide_eq_false places.2, Bool.and_false, Bool.or_self,
      Bool.and_false]
  · change (v &&& supervisorBits s.cfg).getLsbD i = _
    rw [BitVec.getLsbD_and, getLsbD_supervisorBits, Bool.and_comm]

/-- Settles O36: each register is the written value under the mask of the bits that exist. -/
theorem enableAndDelegationBits : Obligations.EnableAndDelegationBits := by
  intro s v i
  refine ⟨⟨rfl, rfl, rfl⟩, ?_, ?_, ?_⟩
  · change (v &&& interruptBits s.cfg).getLsbD i = _
    rw [BitVec.getLsbD_and, getLsbD_interruptBits, Bool.and_comm]
  · change (v &&& 0xB3FF#64).getLsbD i = _
    rw [BitVec.getLsbD_and, getLsbD_medelegMask, Bool.and_comm]
  · change (v &&& 0x222#64).getLsbD i = _
    rw [BitVec.getLsbD_and, getLsbD_supervisorMask, Bool.and_comm]

/-! ## Trap registers -/

/-- Settles O35: the four registers that are loaded into the pc lose bits 1:0, the others take the value. -/
theorem trapRegistersReadBack : Obligations.TrapRegistersReadBack := by
  intro s v
  have cleared : ∀ c ∈ [Csr.mtvec, .mepc, .stvec, .sepc], (s.csrWrite c v).csrRead c = clearLow2 v := by
    simp [State.csrWrite, State.csrRead]
  refine ⟨⟨rfl, rfl, rfl, rfl, rfl, rfl, rfl, rfl, rfl, rfl⟩, fun c listed i => ?_, ?_⟩
  · rw [cleared c listed, getLsbD_clearLow2]
  · simp [State.csrWrite, State.csrRead]

end Sys2Proof.Machine
end

section
/-! The PMP registers and `satp`, bit by bit, and what a CSR write leaves unchanged (10_state.md R44-R46, R55-R57;
43_csr_access.md R190). -/

namespace Sys2Proof.Machine

/-! ## `pmpcfg` (R45, R46) -/

/-- Byte `j` of a little-endian number. -/
theorem leValue_byte (bs : List Byte) (j : Nat) : leValue bs / 256 ^ j % 256 = (bs.getD j 0#8).toNat := by
  induction bs generalizing j with
  | nil => simp [leValue]
  | cons b bs ih =>
    have hb := b.isLt
    cases j with
    | zero => simp only [leValue, List.getD_cons_zero]; omega
    | succ j =>
      have drop : (b.toNat + 256 * leValue bs) / 256 = leValue bs := by omega
      rw [leValue, List.getD_cons_succ, ← ih, Nat.pow_succ', ← Nat.div_div_eq_div_mul, drop]

theorem getD_pmpCfgBytes (s : State) (k n j : Nat) :
    (s.pmpCfgBytes k n).getD j 0#8 = if j < n ∧ k + j < s.cfg.pmpCount then s.pmpCfg (k + j) else 0#8 := by
  induction n generalizing k j with
  | zero => simp [State.pmpCfgBytes]
  | succ n ih =>
    cases j with
    | zero => simp [State.pmpCfgBytes]
    | succ j =>
      rw [State.pmpCfgBytes, List.getD_cons_succ, ih, show k + 1 + j = k + (j + 1) by omega]
      exact if_congr (by omega) rfl rfl

theorem pmpPerReg_le (x : XLen) : pmpPerReg x ≤ 8 := by cases x <;> decide

/-- A read packs the bytes of the register's entries, the first of them lowest. -/
theorem extract_readPmpCfg (s : State) (k j : Nat) :
    (s.readPmpCfg k).extractLsb' (8 * j) 8 =
      if j < pmpPerReg s.cfg.xlen ∧ 4 * k + j < s.cfg.pmpCount then s.pmpCfg (4 * k + j) else 0#8 := by
  have bound : leValue (s.pmpCfgBytes (4 * k) (pmpPerReg s.cfg.xlen)) < 2 ^ 64 := by
    have value := leValue_lt (s.pmpCfgBytes (4 * k) (pmpPerReg s.cfg.xlen))
    rw [length_pmpCfgBytes] at value
    calc leValue (s.pmpCfgBytes (4 * k) (pmpPerReg s.cfg.xlen))
      _ < 256 ^ pmpPerReg s.cfg.xlen := value
      _ ≤ 256 ^ 8 := Nat.pow_le_pow_right (by decide) (pmpPerReg_le _)
      _ = 2 ^ 64 := by rfl
  rw [← getD_pmpCfgBytes]
  apply BitVec.eq_of_toNat_eq
  rw [BitVec.extractLsb'_toNat, State.readPmpCfg, BitVec.toNat_ofNat, Nat.mod_eq_of_lt bound,
    Nat.shiftRight_eq_div_pow, Nat.pow_mul, ← leValue_byte]

/-- A byte under a mask, field by field: a field the mask holds whole is the byte's, one it does not hold is zero. -/
theorem extract_and_whole {n : Nat} {b mask : BitVec n} {start len : Nat}
    (whole : mask.extractLsb' start len = BitVec.allOnes len) :
    (b &&& mask).extractLsb' start len = b.extractLsb' start len := by
  rw [BitVec.extractLsb'_and, whole, BitVec.and_allOnes]

theorem extract_and_none {n : Nat} {b mask : BitVec n} {start len : Nat} (none : mask.extractLsb' start len = 0#len) :
    (b &&& mask).extractLsb' start len = 0#len := by
  rw [BitVec.extractLsb'_and, none, BitVec.and_zero]

/-- The configuration byte a write leaves: L and A of the value, bits 6:5 zero, and R, W, X of the value unless it has W
without R. -/
theorem pmpCfgWritten_fields (old v : Byte) :
    (pmpCfgWritten old v).getLsbD 7 = v.getLsbD 7 ∧ (pmpCfgWritten old v).extractLsb' 5 2 = 0#2 ∧
      (pmpCfgWritten old v).extractLsb' 3 2 = v.extractLsb' 3 2 ∧
      (pmpCfgWritten old v).extractLsb' 0 3 =
        if v.getLsbD 0 = false ∧ v.getLsbD 1 = true then old.extractLsb' 0 3 else v.extractLsb' 0 3 := by
  have guarded : (!pmpR v && pmpW v) = true ↔ v.getLsbD 0 = false ∧ v.getLsbD 1 = true := by
    simp [pmpR, pmpW, -BitVec.getLsbD_eq_getElem]
  unfold pmpCfgWritten
  refine ⟨?_, ?_, ?_, ?_⟩
  · rw [BitVec.getLsbD_or, BitVec.getLsbD_and, BitVec.getLsbD_and]
    simp
  · rw [BitVec.extractLsb'_or, extract_and_none (by decide), extract_and_none (by decide)]
    rfl
  · rw [BitVec.extractLsb'_or, extract_and_whole (by decide), extract_and_none (by decide), BitVec.or_zero]
  · rw [BitVec.extractLsb'_or, extract_and_none (by decide), extract_and_whole (by decide), BitVec.zero_or,
      if_congr guarded rfl rfl]
    split <;> rfl

/-- Settles O37: the read by its bytes, the write by the entry's byte. -/
theorem pmpConfigWrite : Obligations.PmpConfigWrite := by
  intro s k v i hi per b new old
  have perReg : per = pmpPerReg s.cfg.xlen := rfl
  have written : new = if i < 16 ∧ 4 * k.val ≤ i ∧ i < 4 * k.val + per ∧ i < s.cfg.pmpCount ∧ s.pmpLocked i = false then
      pmpCfgWritten old b else old := pmpCfg_writePmpCfg s k.val v i
  refine ⟨fun j _ => ?_, fun open' => ?_, fun shut => ?_⟩
  · exact extract_readPmpCfg s k.val j
  · rw [written, if_pos ⟨hi, open'⟩]
    exact pmpCfgWritten_fields old b
  · rw [written, if_neg fun h => shut h.2]

/-! ## `pmpaddr` (R44, R46) -/

theorem pmpAddrLocked_iff (s : State) (i : Nat) :
    s.pmpAddrLocked i = true ↔ (s.pmpCfg i).getLsbD 7 = true ∨
      ((s.pmpCfg (i + 1)).getLsbD 7 = true ∧ (s.pmpCfg (i + 1)).extractLsb' 3 2 = 1#2) := by
  rw [State.pmpAddrLocked, Bool.or_eq_true, Bool.and_eq_true, decide_eq_true_iff]
  exact Iff.rfl

/-- Settles O38: the write under the mask of the bits that exist, where the entry is not locked. -/
theorem pmpAddressWrite : Obligations.PmpAddressWrite := by
  intro s i v j _ kept
  have written : (s.csrWrite (.pmpaddr i) v).pmpAddr j = _ := pmpAddr_writePmpAddr s i v j
  refine ⟨rfl, fun same free b => ?_, fun other => ?_⟩
  · have unlocked : s.pmpAddrLocked i.val = false := Bool.eq_false_iff.2 (mt (pmpAddrLocked_iff s i.val).1 free)
    rw [written, if_pos ⟨same, unlocked⟩, BitVec.getLsbD_and, getLsbD_lowMask, ← Bool.and_assoc,
      Bool.and_comm (v.getLsbD b), getLsbD_and_lt, Bool.and_comm]
  · rw [written, if_neg]
    rintro ⟨same, unlocked⟩
    rcases other with differ | locked
    · exact differ same
    · rw [(pmpAddrLocked_iff s i.val).2 locked] at unlocked
      cases unlocked

/-! ## `satp` (R55-R57) -/

theorem satpMode_of_some {s : State} {v : Word} {m : SatpMode} (h : satpModeOf s.cfg.xlen v = some m) :
    s.satpMode v = m := by
  rw [State.satpMode, h, Option.getD_some]

theorem satpModeOf_rv32_iff (v : Word) (m : SatpMode) :
    satpModeOf .rv32 v = some m ↔ (m = .bare ∧ v.getLsbD 31 = false) ∨ (m = .sv32 ∧ v.getLsbD 31 = true) := by
  rw [satpModeOf]
  cases v.getLsbD 31 <;> cases m <;> simp

theorem satpModeOf_rv64_iff (v : Word) (m : SatpMode) :
    satpModeOf .rv64 v = some m ↔ (m = .bare ∧ v.toNat / 2 ^ 60 = 0) ∨ (m = .sv39 ∧ v.toNat / 2 ^ 60 = 8) ∨
      (m = .sv48 ∧ v.toNat / 2 ^ 60 = 9) := by
  have field : ∀ k, k < 16 → (v.extractLsb' 60 4 = BitVec.ofNat 4 k ↔ v.toNat / 2 ^ 60 = k) := by
    intro k hk
    have bound := v.isLt
    rw [← BitVec.toNat_inj, BitVec.extractLsb'_toNat, Nat.shiftRight_eq_div_pow, BitVec.toNat_ofNat]
    omega
  have bare := field 0 (by decide)
  have sv39 := field 8 (by decide)
  have sv48 := field 9 (by decide)
  simp only [satpModeOf, bare, sv39, sv48]
  split_ifs with is0 is8 is9
  · rw [is0]; cases m <;> simp
  · rw [is8]; cases m <;> simp
  · rw [is9]; cases m <;> simp
  · simp only [is0, is8, is9, and_false, or_self]

theorem getLsbD_satpMask_rv32 {c : Config} (h : c.xlen = .rv32) (i : Nat) :
    (satpMask c).getLsbD i = (decide (i = 31) || (decide (22 ≤ i ∧ i < 31) && decide (i - 22 < c.asidLen)) ||
      (decide (i < 22) && decide (i < c.pasize - 12))) := by
  have top : (0x80000000#64 : Word).getLsbD i = decide (i = 31) :=
    getLsbD_eq_of_low (bit := fun i => decide (i = 31)) (by decide) (fun i h => by simp; omega) i
  simp only [satpMask, h]
  rw [BitVec.getLsbD_or, BitVec.getLsbD_or, top, BitVec.getLsbD_shiftLeft, getLsbD_lowMask, getLsbD_lowMask]
  rw [Bool.eq_iff_iff]
  simp only [Bool.or_eq_true, Bool.and_eq_true, Bool.not_eq_true', decide_eq_true_eq, decide_eq_false_iff_not]
  omega

theorem getLsbD_satpMask_rv64 {c : Config} (h : c.xlen = .rv64) {i : Nat} (hi : i < 64) :
    (satpMask c).getLsbD i = (decide (60 ≤ i) || (decide (44 ≤ i ∧ i < 60) && decide (i - 44 < c.asidLen)) ||
      (decide (i < 44) && decide (i < c.pasize - 12))) := by
  have top : ∀ k : Fin 64, (0xF000000000000000#64 : Word).getLsbD k.val = decide (60 ≤ k.val) := by decide
  simp only [satpMask, h]
  rw [BitVec.getLsbD_or, BitVec.getLsbD_or, top ⟨i, hi⟩, BitVec.getLsbD_shiftLeft, getLsbD_lowMask, getLsbD_lowMask]
  rw [Bool.eq_iff_iff]
  simp only [Bool.or_eq_true, Bool.and_eq_true, Bool.not_eq_true', decide_eq_true_eq, decide_eq_false_iff_not]
  omega

theorem satpWritten_of_listed {c : Config} {old v : Word} (h : ∃ m ∈ c.satpModes, satpModeOf c.xlen v = some m) :
    satpWritten c old v = v &&& satpMask c := by
  obtain ⟨m, listed, mode⟩ := h
  simp [satpWritten, mode, listed]

theorem satpWritten_of_unlisted {c : Config} {old v : Word} (h : ¬ ∃ m ∈ c.satpModes, satpModeOf c.xlen v = some m) :
    satpWritten c old v = old := by
  unfold satpWritten
  split
  · next m mode => exact if_neg fun listed => h ⟨m, by simpa using listed, mode⟩
  · rfl

/-- The fields of `satp` as the figures draw them (R55, R56). -/
theorem satp_fields (v : Word) (i : Nat) :
    (satpPpn .rv32 v).testBit i = (decide (i < 22) && v.getLsbD i) ∧
      (satpAsid .rv32 v).testBit i = (decide (i < 9) && v.getLsbD (22 + i)) ∧
      (satpPpn .rv64 v).testBit i = (decide (i < 44) && v.getLsbD i) ∧
      (satpAsid .rv64 v).testBit i = (decide (i < 16) && v.getLsbD (44 + i)) := by
  simp only [satpPpn, satpAsid, Nat.testBit_mod_two_pow, Nat.testBit_div_two_pow, BitVec.testBit_toNat]
  simp [Nat.add_comm]

/-- Settles O39: the write by whether its MODE is listed, then the fields. -/
theorem satpWrite : Obligations.SatpWrite := by
  rintro s _ v rfl
  have satp : (s.csrWrite .satp v).satp = satpWritten s.cfg s.satp v := rfl
  have hist : (s.csrWrite .satp v).hist =
      if (s.csrWrite .satp v).satp = s.satp then s.hist else .satpWas s.satp :: s.hist := rfl
  refine ⟨rfl, fun same => hist.trans (if_pos same), fun differ => hist.trans (if_neg differ),
    fun unlisted => satp.trans (satpWritten_of_unlisted unlisted), fun listed => ⟨fun rv32 i => ?_, fun rv64 i => ?_⟩,
    satpModeOf_rv32_iff v, satpModeOf_rv64_iff v, fun m => satpMode_of_some, satp_fields v⟩
  · rw [satp, satpWritten_of_listed listed, BitVec.getLsbD_and, getLsbD_satpMask_rv32 rv32]
  · rw [satp, satpWritten_of_listed listed, BitVec.getLsbD_and]
    by_cases hi : i < 64
    · rw [getLsbD_satpMask_rv64 rv64 hi]
    · rw [BitVec.getLsbD_of_ge v i (by omega), Bool.false_and, Bool.false_and]

/-! ## What a write leaves unchanged (43_csr_access.md R190) -/

section
variable (s : State) {c : Csr} (v : Word)

/-! One lemma a register: only a write to the CSR it stands behind, or to a view of that, reaches it. -/

theorem csrWrite_mstatus_of_ne (h : csrHome c ≠ .mstatus) : (s.csrWrite c v).mstatus = s.mstatus := by
  cases c with
  | mstatus | sstatus => exact absurd rfl h
  | _ => simp [State.csrWrite]

theorem csrWrite_mie_of_ne (h : csrHome c ≠ .mie) : (s.csrWrite c v).mie = s.mie := by
  cases c with
  | mie | sie => exact absurd rfl h
  | _ => simp [State.csrWrite]

theorem csrWrite_mipSw_of_ne (h : csrHome c ≠ .mip) : (s.csrWrite c v).mipSw = s.mipSw := by
  cases c with
  | mip | sip => exact absurd rfl h
  | _ => simp [State.csrWrite]

theorem csrWrite_mtvec_of_ne (h : csrHome c ≠ .mtvec) : (s.csrWrite c v).mtvec = s.mtvec := by
  cases c with
  | mtvec => exact absurd rfl h
  | _ => simp [State.csrWrite]

theorem csrWrite_mepc_of_ne (h : csrHome c ≠ .mepc) : (s.csrWrite c v).mepc = s.mepc := by
  cases c with
  | mepc => exact absurd rfl h
  | _ => simp [State.csrWrite]

theorem csrWrite_mcause_of_ne (h : csrHome c ≠ .mcause) : (s.csrWrite c v).mcause = s.mcause := by
  cases c with
  | mcause => exact absurd rfl h
  | _ => simp [State.csrWrite]

theorem csrWrite_mtval_of_ne (h : csrHome c ≠ .mtval) : (s.csrWrite c v).mtval = s.mtval := by
  cases c with
  | mtval => exact absurd rfl h
  | _ => simp [State.csrWrite]

theorem csrWrite_mscratch_of_ne (h : csrHome c ≠ .mscratch) : (s.csrWrite c v).mscratch = s.mscratch := by
  cases c with
  | mscratch => exact absurd rfl h
  | _ => simp [State.csrWrite]

theorem csrWrite_medeleg_of_ne (h : csrHome c ≠ .medeleg) : (s.csrWrite c v).medeleg = s.medeleg := by
  cases c with
  | medeleg => exact absurd rfl h
  | _ => simp [State.csrWrite]

theorem csrWrite_mideleg_of_ne (h : csrHome c ≠ .mideleg) : (s.csrWrite c v).mideleg = s.mideleg := by
  cases c with
  | mideleg => exact absurd rfl h
  | _ => simp [State.csrWrite]

theorem csrWrite_stvec_of_ne (h : csrHome c ≠ .stvec) : (s.csrWrite c v).stvec = s.stvec := by
  cases c with
  | stvec => exact absurd rfl h
  | _ => simp [State.csrWrite]

theorem csrWrite_sepc_of_ne (h : csrHome c ≠ .sepc) : (s.csrWrite c v).sepc = s.sepc := by
  cases c with
  | sepc => exact absurd rfl h
  | _ => simp [State.csrWrite]

theorem csrWrite_scause_of_ne (h : csrHome c ≠ .scause) : (s.csrWrite c v).scause = s.scause := by
  cases c with
  | scause => exact absurd rfl h
  | _ => simp [State.csrWrite]

theorem csrWrite_stval_of_ne (h : csrHome c ≠ .stval) : (s.csrWrite c v).stval = s.stval := by
  cases c with
  | stval => exact absurd rfl h
  | _ => simp [State.csrWrite]

theorem csrWrite_sscratch_of_ne (h : csrHome c ≠ .sscratch) : (s.csrWrite c v).sscratch = s.sscratch := by
  cases c with
  | sscratch => exact absurd rfl h
  | _ => simp [State.csrWrite]

theorem csrWrite_satp_of_ne (h : csrHome c ≠ .satp) : (s.csrWrite c v).satp = s.satp := by
  cases c with
  | satp => exact absurd rfl h
  | _ => simp [State.csrWrite]

theorem csrWrite_hist_of_ne (h : c ≠ .satp) : (s.csrWrite c v).hist = s.hist := by
  cases c with
  | satp => exact absurd rfl h
  | _ => simp [State.csrWrite]

theorem csrWrite_pmpcfg_of_ne (h : ∀ k, c ≠ .pmpcfg k) : (s.csrWrite c v).pmpcfg = s.pmpcfg := by
  cases c with
  | pmpcfg k => exact absurd rfl (h k)
  | _ => simp [State.csrWrite]

theorem csrWrite_pmpaddr_of_ne (h : ∀ i, c ≠ .pmpaddr i) : (s.csrWrite c v).pmpaddr = s.pmpaddr := by
  cases c with
  | pmpaddr i => exact absurd rfl (h i)
  | _ => simp [State.csrWrite]

end

/-- A read of a `pmpcfg` register reads its own bytes only. -/
theorem readPmpCfg_of_same_bytes {s t : State} {k : Nat} (cfg : t.cfg = s.cfg)
    (bytes : ∀ i, 4 * k ≤ i → i < 4 * k + pmpPerReg s.cfg.xlen → t.pmpCfg i = s.pmpCfg i) :
    t.readPmpCfg k = s.readPmpCfg k := by
  have packed : ∀ n i, 4 * k ≤ i → i + n ≤ 4 * k + pmpPerReg s.cfg.xlen → t.pmpCfgBytes i n = s.pmpCfgBytes i n := by
    intro n
    induction n with
    | zero => intro i _ _; rfl
    | succ n ih =>
      intro i low high
      rw [State.pmpCfgBytes, State.pmpCfgBytes, cfg, bytes i low (by omega), ih (i + 1) (by omega) (by omega)]
  rw [State.readPmpCfg, State.readPmpCfg, cfg, packed _ _ (Nat.le_refl _) (Nat.le_refl _)]

/-- The registers of R45 that exist together hold different entries. -/
theorem pmpcfg_disjoint {c : Config} {k k' : Fin 4} (there : csrExists c (.pmpcfg k) = true)
    (there' : csrExists c (.pmpcfg k') = true) (differ : k ≠ k') (i : Nat)
    (mine : 4 * k'.val ≤ i ∧ i < 4 * k'.val + pmpPerReg c.xlen) :
    ¬ (4 * k.val ≤ i ∧ i < 4 * k.val + pmpPerReg c.xlen) := by
  have numbers : k.val ≠ k'.val := fun same => differ (Fin.ext same)
  cases hx : c.xlen with
  | rv32 =>
    simp only [hx, pmpPerReg] at mine ⊢
    omega
  | rv64 =>
    simp only [csrExists, hx, Bool.and_eq_true, Bool.or_eq_true, decide_eq_true_eq, reduceCtorEq, or_false] at there there'
    simp only [hx, pmpPerReg] at mine ⊢
    omega

/-- A write to one CSR leaves the reading of every other as it was, but for views of the same register. -/
theorem csrRead_csrWrite_of_ne (s : State) (v : Word) {c c' : Csr} (there : csrExists s.cfg c = true)
    (there' : csrExists s.cfg c' = true) (home : csrHome c ≠ csrHome c')
    (views : ¬ (c = .mideleg ∧ (c' = .sie ∨ c' = .sip))) : (s.csrWrite c v).csrRead c' = s.csrRead c' := by
  have mip : csrHome c ≠ .mip → (s.csrWrite c v).mip = s.mip := fun h => by
    rw [State.mip, State.mip, csrWrite_mipSw_of_ne s v h, csrWrite_lines, csrWrite_cfg]
  have delegation : c ≠ .mideleg → (s.csrWrite c v).mideleg = s.mideleg := fun h =>
    csrWrite_mideleg_of_ne s v (by
      cases c with
      | mideleg => exact absurd rfl h
      | _ => exact nofun)
  cases c' with
  | sstatus => exact congrArg (· &&& sstatusMask) (csrWrite_mstatus_of_ne s v home)
  | sie =>
    simp only [State.csrRead, csrWrite_mie_of_ne s v home, delegation fun h => views ⟨h, .inl rfl⟩]
  | stvec => exact csrWrite_stvec_of_ne s v home
  | sscratch => exact csrWrite_sscratch_of_ne s v home
  | sepc => exact csrWrite_sepc_of_ne s v home
  | scause => exact csrWrite_scause_of_ne s v home
  | stval => exact csrWrite_stval_of_ne s v home
  | sip => simp only [State.csrRead, mip home, delegation fun h => views ⟨h, .inr rfl⟩]
  | satp => exact csrWrite_satp_of_ne s v home
  | mstatus => exact csrWrite_mstatus_of_ne s v home
  | medeleg => exact csrWrite_medeleg_of_ne s v home
  | mideleg => exact csrWrite_mideleg_of_ne s v home
  | mie => exact csrWrite_mie_of_ne s v home
  | mtvec => exact csrWrite_mtvec_of_ne s v home
  | mscratch => exact csrWrite_mscratch_of_ne s v home
  | mepc => exact csrWrite_mepc_of_ne s v home
  | mcause => exact csrWrite_mcause_of_ne s v home
  | mtval => exact csrWrite_mtval_of_ne s v home
  | mip => exact mip home
  | pmpcfg k' =>
    refine readPmpCfg_of_same_bytes (csrWrite_cfg s c v) fun i low high => ?_
    by_cases isCfg : ∃ k, c = .pmpcfg k
    · obtain ⟨k, rfl⟩ := isCfg
      have differ : k ≠ k' := fun same => home (congrArg Csr.pmpcfg same)
      have apart := pmpcfg_disjoint there there' differ i ⟨low, high⟩
      exact (pmpCfg_writePmpCfg s k.val v i).trans (if_neg fun reached => apart ⟨reached.2.1, reached.2.2.1⟩)
    · exact pmpCfg_congr _ _ (csrWrite_pmpcfg_of_ne s v fun k h => isCfg ⟨k, h⟩) i
  | pmpaddr i' =>
    by_cases isAddr : ∃ i, c = .pmpaddr i
    · obtain ⟨i, rfl⟩ := isAddr
      have differ : i'.val ≠ i.val := fun same => home (congrArg Csr.pmpaddr (Fin.ext same.symm))
      exact (pmpAddr_writePmpAddr s i v i'.val).trans (if_neg fun reached => differ reached.1)
    · exact pmpAddr_congr _ _ (csrWrite_pmpaddr_of_ne s v fun i h => isAddr ⟨i, h⟩) i'.val

/-- Settles O40: no write reaches anything but the CSRs, and each reaches its own register. -/
theorem csrWriteFrame : Obligations.CsrWriteFrame := by
  intro s c c' v
  exact ⟨readReg_csrWrite s c v, fun a => by rw [csrWrite_mem], ⟨csrWrite_cfg s c v, csrWrite_lines s c v,
    csrWrite_inputs s c v⟩, csrWrite_pc s c v, csrWrite_priv s c v, csrWrite_written s c v, csrWrite_waiting s c v,
    csrWrite_draws s c v, csrWrite_hist_of_ne s v, csrRead_csrWrite_of_ne s v⟩

end Sys2Proof.Machine
end

section
/-! Walks: where they stop, the tables they follow, the leaf they end at, and the faults a translation raises
(20_memory.md R82, R88, R89, R99-R113, R118, R121, R126). -/

namespace Sys2Proof.Machine

/-! ## Where a walk stops -/

/-- The end of a walk that does not read the entry it goes on to, or that there is no such entry: the walk begins at the
table at physical address `a` with `i` levels left. -/
def StopsAtNext (s : State) (m : SatpMode) (va : Word) (a i : Nat) (w : Walk) : Prop :=
  (w.result = .accessFault ∧ ∃ addr, nextEntry m va a i w.uses = some addr ∧ ¬ pteReadable s m addr) ∨
    (w.result = .device ∧ ∃ addr, nextEntry m va a i w.uses = some addr ∧ pteReadable s m addr ∧
      pmaDevice s.cfg addr (pteSize m) = true) ∨
    (nextEntry m va a i w.uses = none ∧ w.result ≠ .accessFault ∧ w.result ≠ .device)

theorem nextEntry_cons_pointer {m : SatpMode} {va : Word} {a i : Nat} {u : PteUse} {us : List PteUse}
    (valid : pteInvalid u.value = false) (pointer : pteLeaf u.value = false) :
    nextEntry m va a i (u :: us) = nextEntry m va (ptePpn m u.value * 4096) u.level us := by
  cases i <;> simp [nextEntry, valid, pointer]

theorem nextEntry_of_deadEnd {s : State} {m : SatpMode} {va : Word} {acc : Access} {p : Mode} {a i : Nat} {u : PteUse}
    (dead : DeadEnd s m acc p u) : nextEntry m va a i [u] = none := by
  by_cases pointer : pteInvalid u.value = false ∧ pteLeaf u.value = false
  · obtain ⟨valid, notLeaf⟩ := pointer
    have bottom : u.level = 0 := by simpa [DeadEnd, valid, notLeaf] using dead
    rw [nextEntry_cons_pointer valid notLeaf, bottom, nextEntry]
  · rw [not_and_or, Bool.not_eq_false, Bool.not_eq_false] at pointer
    cases i <;> simp [nextEntry, pointer]

theorem walkFrom_stopsAtNext (s : State) (m : SatpMode) (va : Word) (acc : Access) (p : Mode) (choice : Nat → Nat)
    (n a : Nat) : StopsAtNext s m va a n (s.walkFrom m va acc p choice n a) := by
  induction n generalizing a with
  | zero => exact .inr (.inr ⟨rfl, nofun, nofun⟩)
  | succ i ih =>
    rcases walkFrom_cases s m va acc p choice i a _ rfl with ⟨unreadable, walk⟩ | ⟨readable, device, walk⟩ |
      ⟨_, _, value, age, _, ⟨dead, walk⟩ | ⟨_, leaf, _, walk⟩ | ⟨valid, pointer, walk⟩⟩
    · rw [walk]
      exact .inl ⟨rfl, _, rfl, unreadable⟩
    · rw [walk]
      exact .inr (.inl ⟨rfl, _, rfl, readable, device⟩)
    · rw [walk]
      exact .inr (.inr ⟨nextEntry_of_deadEnd dead, nofun, nofun⟩)
    · rw [walk]
      exact .inr (.inr ⟨by simp [nextEntry, leaf], nofun, nofun⟩)
    · have rest := ih (ptePpn m value * 4096)
      rw [walk]
      unfold StopsAtNext at rest ⊢
      dsimp only
      rwa [nextEntry_cons_pointer valid pointer]

theorem chosenWalk_stopsAtNext (s : State) (va : Word) (acc : Access) (p : Mode) :
    (translatable (s.satpMode (s.chosenWalk va acc p).1) va ∧
        StopsAtNext s (s.satpMode (s.chosenWalk va acc p).1) va (satpPpn s.cfg.xlen (s.chosenWalk va acc p).1 * 4096)
          (levels (s.satpMode (s.chosenWalk va acc p).1)) (s.chosenWalk va acc p).2) ∨
      (¬ translatable (s.satpMode (s.chosenWalk va acc p).1) va ∧ (s.chosenWalk va acc p).2 = ⟨[], .pageFault⟩) := by
  obtain ⟨choice, chosen⟩ := chosenWalk_is_walk s va acc p
  rw [chosen]
  rcases walk_cases s (s.chosenWalk va acc p).1 va acc p choice with ⟨ok, walk⟩ | ⟨bad, walk⟩
  · rw [walk]
    exact .inl ⟨ok, walkFrom_stopsAtNext s _ va acc p choice _ _⟩
  · exact .inr ⟨bad, walk⟩

/-! ## What a translation raises -/

theorem translate_of_accessFault (s : State) (va : Word) (acc : Access) (p : Mode)
    (h : (s.chosenWalk va acc p).2.result = .accessFault) :
    s.translate va acc p = .raised (accessFaultOf acc) va s.drawn := by
  unfold State.translate
  simp only [h]

theorem translate_of_device (s : State) (va : Word) (acc : Access) (p : Mode)
    (h : (s.chosenWalk va acc p).2.result = .device) : s.translate va acc p = .refused .deviceRegion := by
  unfold State.translate
  simp only [h]

/-- The entry a walk goes on to and does not read is one it may not read, or one of a device. -/
theorem translate_of_nextEntry (s : State) (va : Word) (acc : Access) (p : Mode) (addr : Nat)
    (ok : translatable (s.satpMode (s.chosenWalk va acc p).1) va)
    (next : nextEntry (s.satpMode (s.chosenWalk va acc p).1) va (satpPpn s.cfg.xlen (s.chosenWalk va acc p).1 * 4096)
      (levels (s.satpMode (s.chosenWalk va acc p).1)) (s.chosenWalk va acc p).2.uses = some addr) :
    (¬ pteReadable s (s.satpMode (s.chosenWalk va acc p).1) addr ∧
        s.translate va acc p = .raised (accessFaultOf acc) va s.drawn) ∨
      (pteReadable s (s.satpMode (s.chosenWalk va acc p).1) addr ∧
        pmaDevice s.cfg addr (pteSize (s.satpMode (s.chosenWalk va acc p).1)) = true ∧
        s.translate va acc p = .refused .deviceRegion) := by
  rcases chosenWalk_stopsAtNext s va acc p with ⟨_, stops⟩ | ⟨bad, _⟩
  · rcases stops with ⟨result, addr', next', unreadable⟩ | ⟨result, addr', next', readable, device⟩ | ⟨none, _⟩
    · cases next.symm.trans next'
      exact .inl ⟨unreadable, translate_of_accessFault s va acc p result⟩
    · cases next.symm.trans next'
      exact .inr ⟨readable, device, translate_of_device s va acc p result⟩
    · cases next.symm.trans none
  · exact absurd ok bad

/-- Step 7 at a leaf with a bit missing, by the policy (R108). -/
theorem translate_of_leaf_unclean (s : State) (va : Word) (acc : Access) (p : Mode) {level addr : Nat} {pte : Word}
    (leaf : (s.chosenWalk va acc p).2.result = .leaf level addr pte)
    (unclean : pte.getLsbD 6 = false ∨ (acc = .store ∧ pte.getLsbD 7 = false)) :
    (s.adFault = true → s.translate va acc p = .raised (pageFaultOf acc) va s.drawn) ∧
      (s.adFault = false → ¬ pteWritable s (s.satpMode (s.chosenWalk va acc p).1) addr →
        s.translate va acc p = .raised (accessFaultOf acc) va s.drawn) := by
  have missing : needsUpdate pte acc = true := by
    refine Bool.eq_true_of_not_eq_false fun clean => ?_
    obtain ⟨a, d⟩ := (needsUpdate_eq_false_iff pte acc).1 clean
    rcases unclean with noA | ⟨store, noD⟩
    · exact Bool.false_ne_true (noA.symm.trans a)
    · exact Bool.false_ne_true (noD.symm.trans (d store))
  refine ⟨translate_of_adFault leaf missing, fun noFault unwritable => ?_⟩
  rcases translate_of_update leaf missing noFault with ⟨_, raised⟩ | ⟨writable, _⟩
  · exact raised
  · exact absurd writable unwritable

/-- Which fault a translation raises, by the end of its walk, for any two outcomes its two faults lead to. -/
theorem faultsByWalk_of_translate {s : State} {va : Word} {acc : Access} {p : Mode} {pageFault accessFault : Prop}
    (page : s.translate va acc p = .raised (pageFaultOf acc) va s.drawn → pageFault)
    (access : s.translate va acc p = .raised (accessFaultOf acc) va s.drawn → accessFault) :
    FaultsByWalk s va acc p pageFault accessFault where
  walkFault result := page (translate_of_pageFault s va acc p result)
  deniedOnly result := by
    refine ⟨access (translate_of_accessFault s va acc p result), ?_⟩
    rcases chosenWalk_stopsAtNext s va acc p with ⟨_, ⟨_, stop⟩ | ⟨device, _⟩ | ⟨_, other, _⟩⟩ | ⟨_, walk⟩
    · exact stop
    · cases result.symm.trans device
    · exact absurd result other
    · rw [walk] at result
      cases result
  denied addr ok next unreadable := by
    rcases translate_of_nextEntry s va acc p addr ok next with ⟨_, raised⟩ | ⟨readable, _⟩
    · exact access raised
    · exact absurd readable unreadable
  update level addr pte leaf unclean := by
    obtain ⟨faults, denied⟩ := translate_of_leaf_unclean s va acc p leaf unclean
    refine ⟨fun policy => page (faults (adFault_of_fault s policy)), fun unwritable =>
      ⟨fun policy => access (denied (adFault_of_hardwareUpdate s policy) unwritable), fun _ => ?_⟩⟩
    cases chosen : s.adFault with
    | true => exact .inl (page (faults chosen))
    | false => exact .inr (access (denied chosen unwritable))

/-- Settles O48: such an address is not one Sv39 translates, so nothing is walked. -/
theorem nonCanonicalAddressFaults : Obligations.NonCanonicalAddressFaults := by
  rintro s va acc p sv39 ⟨i, low, high, differs⟩
  have walk : (s.chosenWalk va acc p).2 = ⟨[], .pageFault⟩ := by
    rcases chosenWalk_stopsAtNext s va acc p with ⟨ok, _⟩ | ⟨_, walk⟩
    · rw [sv39] at ok
      exact absurd (ok.1 rfl i low high) differs
    · exact walk
  exact ⟨translate_of_pageFault s va acc p (by rw [walk]), by rw [walk]⟩

/-! ## The tables a walk follows -/

theorem walkFrom_followsTables (s : State) (m : SatpMode) (va : Word) (acc : Access) (p : Mode) (choice : Nat → Nat)
    (n a : Nat) : followsTables m va a n (s.walkFrom m va acc p choice n a).uses := by
  induction n generalizing a with
  | zero => exact trivial
  | succ i ih =>
    rcases walkFrom_cases s m va acc p choice i a _ rfl with ⟨_, walk⟩ | ⟨_, _, walk⟩ |
      ⟨_, _, value, age, _, ⟨_, walk⟩ | ⟨_, _, _, walk⟩ | ⟨_, _, walk⟩⟩
    · rw [walk]; exact trivial
    · rw [walk]; exact trivial
    · rw [walk]; exact ⟨rfl, rfl, trivial⟩
    · rw [walk]; exact ⟨rfl, rfl, trivial⟩
    · rw [walk]; exact ⟨rfl, rfl, ih _⟩

theorem walkFrom_readable (s : State) (m : SatpMode) (va : Word) (acc : Access) (p : Mode) (choice : Nat → Nat)
    (n a : Nat) (u : PteUse) (hu : u ∈ (s.walkFrom m va acc p choice n a).uses) :
    pteReadable s m u.addr ∧ pmaDevice s.cfg u.addr (pteSize m) = false := by
  induction n generalizing a with
  | zero => cases hu
  | succ i ih =>
    rcases walkFrom_cases s m va acc p choice i a _ rfl with ⟨_, walk⟩ | ⟨_, _, walk⟩ |
      ⟨readable, memory, value, age, _, ⟨_, walk⟩ | ⟨_, _, _, walk⟩ | ⟨_, _, walk⟩⟩
    · rw [walk] at hu; cases hu
    · rw [walk] at hu; cases hu
    · rw [walk, List.mem_singleton] at hu; subst hu; exact ⟨readable, memory⟩
    · rw [walk, List.mem_singleton] at hu; subst hu; exact ⟨readable, memory⟩
    · rw [walk] at hu
      rcases List.mem_cons.1 hu with rfl | later
      · exact ⟨readable, memory⟩
      · exact ih _ later

/-- What holds of every walk from a table, and of a walk that reads nothing, holds of the walk of a translation. -/
theorem chosenWalk_induction {s : State} {va : Word} {acc : Access} {p : Mode} (P : Walk → Prop)
    (stopped : P ⟨[], .pageFault⟩)
    (walked : ∀ choice, P (s.walkFrom (s.satpMode (s.chosenWalk va acc p).1) va acc p choice
      (levels (s.satpMode (s.chosenWalk va acc p).1)) (satpPpn s.cfg.xlen (s.chosenWalk va acc p).1 * 4096))) :
    P (s.chosenWalk va acc p).2 := by
  obtain ⟨choice, chosen⟩ := chosenWalk_is_walk s va acc p
  rw [chosen]
  rcases walk_cases s (s.chosenWalk va acc p).1 va acc p choice with ⟨_, walk⟩ | ⟨_, walk⟩
  · rw [walk]; exact walked choice
  · rw [walk]; exact stopped

/-- The value of a PTE read is the one its location holds, or one it held (R103, R121). -/
theorem chosenWalk_value (s : State) (va : Word) (acc : Access) (p : Mode) (u : PteUse)
    (hu : u ∈ (s.chosenWalk va acc p).2.uses) :
    u.value = s.pteAt (s.satpMode (s.chosenWalk va acc p).1) u.addr ∨
      u.value ∈ (s.pteHeld (s.satpMode (s.chosenWalk va acc p).1) u.addr).map Prod.fst := by
  obtain ⟨choice, chosen⟩ := chosenWalk_is_walk s va acc p
  rw [chosen] at hu
  rcases walk_use s _ va acc p choice u hu with ⟨current, _⟩ | ⟨held, _⟩
  · exact .inl current
  · exact .inr (List.mem_map.2 ⟨_, held, rfl⟩)

theorem chosenWalk_satp (s : State) (va : Word) (acc : Access) (p : Mode) :
    (s.chosenWalk va acc p).1 = s.satp ∨ (s.chosenWalk va acc p).1 ∈ (heldSatp s.cfg.xlen 0 s.hist).map Prod.fst := by
  rcases chosenWalk_cases s va acc p with ⟨satp, age, choice, chosen, value, _⟩ | chosen
  · rw [chosen]
    rcases value with current | ⟨held, _⟩
    · exact .inl (Prod.mk.inj current).1
    · exact .inr (List.mem_map.2 ⟨_, held, rfl⟩)
  · rw [chosen]
    exact .inl rfl

/-! ## Constants and fields (R82, R88, R89, R99, R101, R113) -/

theorem pteSize_le (m : SatpMode) : pteSize m ≤ 8 := by cases m <;> decide

theorem toNat_pteAt (s : State) (m : SatpMode) (addr : Nat) :
    (s.pteAt m addr).toNat = leValue (s.mem.readBytes addr (pteSize m)) := by
  have value := leValue_lt (s.mem.readBytes addr (pteSize m))
  rw [length_readBytes] at value
  rw [State.pteAt, BitVec.toNat_ofNat, Nat.mod_eq_of_lt]
  calc leValue (s.mem.readBytes addr (pteSize m))
    _ < 256 ^ pteSize m := value
    _ ≤ 256 ^ 8 := Nat.pow_le_pow_right (by decide) (pteSize_le m)
    _ = 2 ^ 64 := by rfl

theorem testBit_toNat_field (w : Word) (start len j : Nat) :
    (w.toNat / 2 ^ start % 2 ^ len).testBit j = (decide (j < len) && w.getLsbD (start + j)) := by
  rw [Nat.testBit_mod_two_pow, Nat.testBit_div_two_pow, BitVec.testBit_toNat, Nat.add_comm]

theorem schemeIs_sv32 : SchemeIs .sv32 2 4 10 22 :=
  ⟨rfl, rfl, rfl, fun va i j => testBit_toNat_field va (12 + 10 * i) 10 j, fun pte j => testBit_toNat_field pte 10 22 j⟩

theorem schemeIs_sv39 : SchemeIs .sv39 3 8 9 44 :=
  ⟨rfl, rfl, rfl, fun va i j => testBit_toNat_field va (12 + 9 * i) 9 j, fun pte j => testBit_toNat_field pte 10 44 j⟩

theorem schemeIs_sv48 : SchemeIs .sv48 4 8 9 44 :=
  ⟨rfl, rfl, rfl, fun va i j => testBit_toNat_field va (12 + 9 * i) 9 j, fun pte j => testBit_toNat_field pte 10 44 j⟩

/-! ## The leaf a walk comes to -/

/-- An entry that steps 3 to 6 accept as the walk's leaf. -/
def AcceptedLeaf (s : State) (m : SatpMode) (acc : Access) (p : Mode) (u : PteUse) : Prop :=
  pteInvalid u.value = false ∧ pteLeaf u.value = true ∧ s.leafOk m acc p u.value u.level = true

theorem AcceptedLeaf.not_deadEnd {s : State} {m : SatpMode} {acc : Access} {p : Mode} {u : PteUse}
    (h : AcceptedLeaf s m acc p u) : ¬ DeadEnd s m acc p u := by
  obtain ⟨valid, leaf, ok⟩ := h
  simp [DeadEnd, valid, leaf, ok]

theorem pointerEntry_iff (pte : Word) : pointerEntry pte ↔ pteInvalid pte = false ∧ pteLeaf pte = false := by
  unfold pointerEntry pteInvalid pteLeaf pteV pteR pteW pteX
  cases pte.getLsbD 0 <;> cases pte.getLsbD 1 <;> cases pte.getLsbD 2 <;> cases pte.getLsbD 3 <;> decide

theorem usableLeaf.accepted {s : State} {m : SatpMode} {u : PteUse} {acc : Access} {p : Mode}
    (h : usableLeaf s m u acc p) : AcceptedLeaf s m acc p u := by
  obtain ⟨v, leaf, wr, permits, aligned⟩ := h
  have below : p ≠ .machine := by
    rintro rfl
    obtain ⟨_, ⟨bad, _⟩ | ⟨bad, _⟩ | ⟨bad, _⟩⟩ := permits <;> cases bad
  have valid : pteInvalid u.value = false := by
    refine Bool.eq_false_iff.2 fun invalid => ?_
    rcases (pteInvalid_iff u.value).1 invalid with noV | ⟨noR, w⟩
    · exact Bool.false_ne_true (noV.symm.trans v)
    · exact Bool.false_ne_true (noR.symm.trans (wr w))
  have notMisaligned : misalignedSuperpage m u.value u.level = false :=
    Bool.eq_false_iff.2 fun bad => (misalignedSuperpage_iff m u.value u.level).1 bad aligned
  refine ⟨valid, (pteLeaf_iff u.value).2 leaf, ?_⟩
  rw [State.leafOk, (permOk_iff s u.value acc p below).2 permits, notMisaligned]
  rfl

/-- A walk that reads an accepted leaf ends there. -/
theorem walkFrom_result_of_leaf (s : State) (m : SatpMode) (va : Word) (acc : Access) (p : Mode) (choice : Nat → Nat)
    (n a : Nat) (u : PteUse) (hu : u ∈ (s.walkFrom m va acc p choice n a).uses) (accepted : AcceptedLeaf s m acc p u) :
    (s.walkFrom m va acc p choice n a).result = .leaf u.level u.addr u.value := by
  induction n generalizing a with
  | zero => cases hu
  | succ i ih =>
    rcases walkFrom_cases s m va acc p choice i a _ rfl with ⟨_, walk⟩ | ⟨_, _, walk⟩ |
      ⟨_, _, value, age, _, ⟨dead, walk⟩ | ⟨_, _, _, walk⟩ | ⟨_, pointer, walk⟩⟩
    · rw [walk] at hu; cases hu
    · rw [walk] at hu; cases hu
    · rw [walk, List.mem_singleton] at hu
      subst hu
      exact absurd dead accepted.not_deadEnd
    · rw [walk, List.mem_singleton] at hu
      subst hu
      rw [walk]
    · rw [walk] at hu ⊢
      rcases List.mem_cons.1 hu with rfl | later
      · rw [accepted.2.1] at pointer; cases pointer
      · exact ih _ later

/-- With nothing remembered a read uses the value in memory. -/
theorem pteUsed_of_hist_nil (s : State) (m : SatpMode) (acc : Access) (p : Mode) (addr level choice : Nat)
    (h : s.hist = []) : s.pteUsed m acc p addr level choice = (s.pteAt m addr, 0) := by
  rcases pteUsed_cases s m acc p addr level choice with current | ⟨held, _⟩
  · exact current
  · rw [State.pteHeld, h] at held
    cases held

/-- With nothing remembered a walk comes to the leaf that the entries in memory lead to. -/
theorem walkFrom_result_of_memory (s : State) (m : SatpMode) (va : Word) (acc : Access) (p : Mode) (choice : Nat → Nat)
    (fresh : s.hist = []) (pointers : List PteUse) (u : PteUse) (n a : Nat)
    (follows : followsTables m va a n (pointers ++ [u]))
    (readable : ∀ v ∈ pointers ++ [u], pteReadable s m v.addr ∧ pmaDevice s.cfg v.addr (pteSize m) = false)
    (isPointer : ∀ v ∈ pointers, pointerEntry v.value) (accepted : AcceptedLeaf s m acc p u)
    (inMemory : ∀ v ∈ pointers ++ [u], v.value = s.pteAt m v.addr) :
    (s.walkFrom m va acc p choice n a).result = .leaf u.level u.addr u.value := by
  induction pointers generalizing n a with
  | nil =>
    obtain ⟨level, addr, _⟩ := follows
    subst level
    obtain ⟨mayRead, memory⟩ := readable u (by simp)
    have value := inMemory u (by simp)
    rcases walkFrom_cases s m va acc p choice u.level a u.addr addr with ⟨unreadable, _⟩ | ⟨_, device, _⟩ |
      ⟨_, _, value', age, used, outcome⟩
    · exact absurd mayRead unreadable
    · rw [memory] at device; cases device
    · rw [pteUsed_of_hist_nil s m acc p _ _ _ fresh, ← value] at used
      obtain ⟨rfl, rfl⟩ := Prod.mk.inj used
      rcases outcome with ⟨dead, _⟩ | ⟨_, _, _, walk⟩ | ⟨_, pointer, _⟩
      · exact absurd dead (AcceptedLeaf.not_deadEnd accepted)
      · rw [walk]
      · rw [accepted.2.1] at pointer; cases pointer
  | cons v pointers ih =>
    obtain ⟨level, addr, rest⟩ := follows
    subst level
    obtain ⟨mayRead, memory⟩ := readable v (by simp)
    have value := inMemory v (by simp)
    obtain ⟨valid, notLeaf⟩ := (pointerEntry_iff v.value).1 (isPointer v (by simp))
    have onward := ih _ _ rest (fun w hw => readable w (List.mem_cons_of_mem v hw))
      (fun w hw => isPointer w (List.mem_cons_of_mem v hw)) (fun w hw => inMemory w (List.mem_cons_of_mem v hw))
    rcases walkFrom_cases s m va acc p choice v.level a v.addr addr with ⟨unreadable, _⟩ | ⟨_, device, _⟩ |
      ⟨_, _, value', age, used, outcome⟩
    · exact absurd mayRead unreadable
    · rw [memory] at device; cases device
    · rw [pteUsed_of_hist_nil s m acc p _ _ _ fresh, ← value] at used
      obtain ⟨rfl, rfl⟩ := Prod.mk.inj used
      rcases outcome with ⟨dead, _⟩ | ⟨_, leaf, _⟩ | ⟨_, _, walk⟩
      · have bottom : v.level = 0 := by simpa [DeadEnd, valid, notLeaf] using dead
        rw [bottom] at onward
        cases onward
      · rw [leaf] at notLeaf; cases notLeaf
      · rw [walk]; exact onward

/-- A walk that ends at a leaf came to it through valid pointers, and accepted it. -/
theorem walkFrom_uses_of_leaf (s : State) (m : SatpMode) (va : Word) (acc : Access) (p : Mode) (choice : Nat → Nat)
    (n a level addr : Nat) (pte : Word) (h : (s.walkFrom m va acc p choice n a).result = .leaf level addr pte) :
    ∃ pointers age, (s.walkFrom m va acc p choice n a).uses = pointers ++ [⟨level, addr, pte, age⟩] ∧
      (∀ v ∈ pointers, pointerEntry v.value) ∧ AcceptedLeaf s m acc p ⟨level, addr, pte, age⟩ := by
  induction n generalizing a with
  | zero => cases h
  | succ i ih =>
    rcases walkFrom_cases s m va acc p choice i a _ rfl with ⟨_, walk⟩ | ⟨_, _, walk⟩ |
      ⟨_, _, value, age, _, ⟨_, walk⟩ | ⟨valid, leaf, ok, walk⟩ | ⟨valid, pointer, walk⟩⟩
    · rw [walk] at h; cases h
    · rw [walk] at h; cases h
    · rw [walk] at h; cases h
    · rw [walk] at h ⊢
      cases h
      exact ⟨[], age, rfl, nofun, valid, leaf, ok⟩
    · rw [walk] at h ⊢
      obtain ⟨pointers, lastAge, uses, isPointer, accepted⟩ := ih _ h
      refine ⟨_ :: pointers, lastAge, congrArg _ uses, fun v hv => ?_, accepted⟩
      rcases List.mem_cons.1 hv with rfl | later
      · exact (pointerEntry_iff value).2 ⟨valid, pointer⟩
      · exact isPointer v later

/-- What a leaf allows, on its bits (R106); for M-mode, which does not translate, nothing is said of the U bit. -/
theorem permOk_bits {s : State} {pte : Word} {acc : Access} {p : Mode} (h : s.permOk pte acc p = true) :
    (acc = .fetch → pte.getLsbD 3 = true) ∧ (acc = .store → pte.getLsbD 2 = true) ∧
      (acc = .load → pte.getLsbD 1 = true ∨ (s.mstatus.getLsbD 19 = true ∧ pte.getLsbD 3 = true)) ∧
      (p = .user → pte.getLsbD 4 = true) ∧
      (p = .supervisor → pte.getLsbD 4 = false ∨ (s.mstatus.getLsbD 18 = true ∧ acc ≠ .fetch)) := by
  unfold State.permOk at h
  rw [Bool.and_eq_true] at h
  obtain ⟨kind, mode⟩ := h
  refine ⟨?_, ?_, ?_, ?_, ?_⟩
  · rintro rfl; exact kind
  · rintro rfl; exact kind
  · rintro rfl
    rw [Bool.or_eq_true, Bool.and_eq_true] at kind
    exact kind
  · rintro rfl; exact mode
  · rintro rfl
    rw [if_neg (by decide)] at mode
    simp only [Bool.or_eq_true, Bool.and_eq_true, Bool.not_eq_true', decide_eq_true_eq] at mode
    exact mode

/-- The physical address is the leaf's page number above the address's offset in the page (R109). -/
theorem physicalAddress_parts (m : SatpMode) (va pte : Word) (level : Nat) :
    physicalAddress m va pte level % 2 ^ (12 + vpnBits m * level) = va.toNat % 2 ^ (12 + vpnBits m * level) ∧
      physicalAddress m va pte level / 2 ^ (12 + vpnBits m * level) = ptePpn m pte / 2 ^ (vpnBits m * level) := by
  have positive : 0 < 2 ^ (12 + vpnBits m * level) := Nat.two_pow_pos _
  have offset : va.toNat % 2 ^ (12 + vpnBits m * level) < 2 ^ (12 + vpnBits m * level) := Nat.mod_lt _ positive
  rw [physicalAddress, Nat.add_comm (vpnBits m * level) 12, Nat.mul_comm]
  constructor
  · rw [Nat.mul_add_mod, Nat.mod_mod]
  · rw [Nat.mul_add_div positive, Nat.div_eq_of_lt offset, Nat.add_zero]

/-- Settles O50: the walk of a translation is a walk from a table, of which each clause has been shown. -/
theorem translationFollowsTables : Obligations.TranslationFollowsTables := by
  refine ⟨⟨schemeIs_sv32, schemeIs_sv39, schemeIs_sv48⟩, fun s va acc p => ?_⟩
  intro m root readable
  have follows : followsTables m va root (levels m) (s.chosenWalk va acc p).2.uses :=
    chosenWalk_induction (fun w => followsTables m va root (levels m) w.uses) trivial
      (fun choice => walkFrom_followsTables s m va acc p choice _ _)
  have mayRead : ∀ u ∈ (s.chosenWalk va acc p).2.uses, readable u.addr :=
    chosenWalk_induction (fun w => ∀ u ∈ w.uses, readable u.addr) nofun
      (fun choice => walkFrom_readable s m va acc p choice _ _)
  refine ⟨fun addr j => ?_, chosenWalk_satp s va acc p, follows,
    fun u hu => ⟨mayRead u hu, chosenWalk_value s va acc p u hu⟩, fun fresh => ?_,
    fun addr => translate_of_nextEntry s va acc p addr, ?_, ?_⟩
  · rw [toNat_pteAt, leValue_readBytes_byte]
  · obtain ⟨current, values⟩ := chosenWalk_of_hist_nil s va acc p fresh
    have mode : m = s.satpMode s.satp := congrArg s.satpMode current
    exact ⟨current, fun u hu => mode ▸ values u hu⟩
  · intro pointers u ok follows readable isPointer usable lead
    have accepted : AcceptedLeaf s m acc p u := usable.accepted
    have ends : (s.chosenWalk va acc p).2.result = .leaf u.level u.addr u.value := by
      rcases lead with uses | ⟨fresh, inMemory⟩
      · have last : u ∈ (s.chosenWalk va acc p).2.uses := by rw [uses]; simp
        exact chosenWalk_induction (fun w => u ∈ w.uses → w.result = .leaf u.level u.addr u.value) nofun
          (fun choice hu => walkFrom_result_of_leaf s m va acc p choice _ _ u hu accepted) last
      · obtain ⟨choice, chosen⟩ := chosenWalk_is_walk s va acc p
        rw [chosen]
        rcases walk_cases s (s.chosenWalk va acc p).1 va acc p choice with ⟨_, walk⟩ | ⟨bad, _⟩
        · rw [walk]
          exact walkFrom_result_of_memory s m va acc p choice fresh pointers u _ _ follows readable isPointer accepted
            inMemory
        · exact absurd ok bad
    exact ⟨ends, fun a d => ⟨_, translate_of_clean ends ((needsUpdate_eq_false_iff u.value acc).2 ⟨a, d⟩)⟩⟩
  · intro t pa translated
    obtain ⟨level, addr, pte, leaf, address, _⟩ := translate_ok s t va acc p pa translated
    have ok : translatable m va := by
      rcases chosenWalk_stopsAtNext s va acc p with ⟨ok, _⟩ | ⟨_, walk⟩
      · exact ok
      · rw [walk] at leaf; cases leaf
    obtain ⟨pointers, age, uses, isPointer, valid, isLeaf, accepts⟩ :=
      chosenWalk_induction (fun w => w.result = .leaf level addr pte → ∃ pointers age,
        w.uses = pointers ++ [⟨level, addr, pte, age⟩] ∧ (∀ v ∈ pointers, pointerEntry v.value) ∧
          AcceptedLeaf s m acc p ⟨level, addr, pte, age⟩) nofun
        (fun choice => walkFrom_uses_of_leaf s m va acc p choice _ _ level addr pte) leaf
    rw [State.leafOk, Bool.and_eq_true, Bool.not_eq_true'] at accepts
    obtain ⟨permits, notMisaligned⟩ := accepts
    obtain ⟨fetches, stores, loads, user, supervisor⟩ := permOk_bits permits
    obtain ⟨offset, page⟩ := physicalAddress_parts m va pte level
    have notInvalid := mt (pteInvalid_iff pte).2 (Bool.eq_false_iff.1 valid)
    rw [not_or, not_and, Bool.not_eq_false, Bool.not_eq_true] at notInvalid
    have aligned : ptePpn m pte % 2 ^ (vpnBits m * level) = 0 :=
      not_not.1 (mt (misalignedSuperpage_iff m pte level).2 (Bool.eq_false_iff.1 notMisaligned))
    refine ⟨ok, pointers, ⟨level, addr, pte, age⟩, uses, isPointer, notInvalid.1, (pteLeaf_iff pte).1 isLeaf,
      fun w => ?_, fetches, stores, loads, user, supervisor, aligned, address ▸ offset, address ▸ page⟩
    refine Bool.eq_true_of_not_eq_false fun noR => ?_
    exact Bool.false_ne_true ((notInvalid.2 noR).symm.trans w)

end Sys2Proof.Machine
end

section
/-! Faults of the fetch's translation, and `amoadd.w`: its result, its faults, and what PMA answers (44_amoadd_w.md
R205; 60_exceptions.md R216, R221, R222, R226, R228; 20_memory.md R81, R84, R87). -/

namespace Sys2Proof.Machine

/-! ## Faults of the fetch's translation -/

/-- Settles O11: what `locate` raises, the fetch and the step raise, on the state with one free choice drawn. -/
theorem fetchTranslationFaults : Obligations.FetchTranslationFaults := by
  intro s reaches aligned translated raises
  have raised_of_locate : ∀ {e}, s.awake.locate s.pc .fetch = .raised e s.pc s.awake.drawn → raises (exnCode e) :=
    fun {e} located =>
      ⟨e, _, rfl, located, rfl, _,
        (step_of_reachesFetch reaches).trans (runNext_of_fetch_raised (fetch_of_locate_raised located)),
        tookTrap_raise s.awake.drawn e s.pc⟩
  have raised_of_translate : ∀ {e}, s.awake.translate s.pc .fetch s.priv = .raised e s.pc s.awake.drawn →
      raises (exnCode e) :=
    fun h => raised_of_locate ((locate_translated s.awake s.pc .fetch aligned translated).trans h)
  refine ⟨fun e tval u located => ?_, faultsByWalk_of_translate raised_of_translate raised_of_translate⟩
  obtain ⟨rfl, ⟨misaligned, _⟩ | ⟨_, rfl, kind⟩⟩ := locate_raised s.awake u s.pc tval .fetch e located
  · exact absurd aligned misaligned
  · have raised : raises (exnCode e) := raised_of_locate located
    refine ⟨rfl, ?_, raised⟩
    rcases kind with rfl | rfl
    · exact .inl raised
    · exact .inr raised

/-! ## `amoadd.w` by the answer of its translation and its checks -/

theorem amoPermitted_iff (s : State) (pa : Nat) (p : Mode) :
    s.amoPermitted pa p = true ↔ s.pmpCheck pa 4 .load p = true ∧ s.pmpCheck pa 4 .store p = true ∧
      pmaAllows s.cfg pa 4 .load = true ∧ pmaAllows s.cfg pa 4 .store = true ∧ pmaAtomic s.cfg pa 4 = true := by
  simp only [State.amoPermitted, Bool.and_eq_true, and_assoc]

section
variable {s : State} (aq rl : Bool) (rd : RegIdx) {rs1 : RegIdx} (rs2 : RegIdx)

theorem exec_amoaddW_of_raised {u : State} {e : Exn} {tval : Word}
    (h : s.locate (s.readReg rs1) .store = .raised e tval u) :
    exec (.amoaddW aq rl rd rs1 rs2) s = .next (u.raise e tval) := by
  rw [exec, execAmoaddW, h]

theorem exec_amoaddW_of_refused {r : Refusal} (h : s.locate (s.readReg rs1) .store = .refused r) :
    exec (.amoaddW aq rl rd rs1 rs2) s = .refused r := by
  rw [exec, execAmoaddW, h]

variable {u : State} {pa : Nat} (located : s.locate (s.readReg rs1) .store = .ok pa u)
include located

theorem exec_amoaddW_of_denied (denied : ¬ u.amoPermitted pa (s.effPriv .store) = true) :
    exec (.amoaddW aq rl rd rs1 rs2) s = .next (u.raise .storeAccessFault (s.readReg rs1)) := by
  simp only [exec, execAmoaddW, located]
  rw [if_pos (by rw [Bool.eq_false_iff.2 denied]; rfl)]

variable (permitted : u.amoPermitted pa (s.effPriv .store) = true)
include permitted

theorem exec_amoaddW_of_device (device : pmaDevice u.cfg pa 4 = true) :
    exec (.amoaddW aq rl rd rs1 rs2) s = .refused .deviceRegion := by
  simp only [exec, execAmoaddW, located]
  rw [if_neg (by rw [permitted]; decide), if_pos device]

theorem exec_amoaddW_of_permitted (memory : pmaDevice u.cfg pa 4 = false) :
    exec (.amoaddW aq rl rd rs1 rs2) s = .next (u.amoAdd rd pa (low32 (s.readReg rs2))) := by
  simp only [exec, execAmoaddW, located]
  rw [if_neg (by rw [permitted]; decide), if_neg (by rw [memory]; decide)]

end

/-! ## What the addition leaves -/

theorem low32_eq_setWidth (w : Word) : low32 w = w.setWidth 32 := by
  apply BitVec.eq_of_toNat_eq
  rw [low32, BitVec.extractLsb'_toNat, BitVec.toNat_setWidth, Nat.shiftRight_zero]

theorem TranslationEffect.wf {s t : State} (h : TranslationEffect s t) (canonical : Memory.wf s.mem = true) :
    Memory.wf t.mem = true := by
  rcases h with rfl | rfl | ⟨addr, bytes, rfl⟩
  · exact canonical
  · exact canonical
  · exact wf_writeBytes s.mem addr bytes canonical

theorem physRead32_amoAdd (s : State) (rd : RegIdx) (pa : Nat) (addend : BitVec 32) (canonical : Memory.wf s.mem = true) :
    (s.amoAdd rd pa addend).physRead32 pa = s.physRead32 pa + addend :=
  physRead32_physWrite s pa (s.physRead32 pa + addend) canonical

theorem readReg_amoAdd (s : State) (rd : RegIdx) (pa : Nat) (addend : BitVec 32) (r : RegIdx) :
    (s.amoAdd rd pa addend).readReg r =
      if r = 0#5 then 0#64 else if r = rd then sextXlen s.cfg.xlen (s.physRead32 pa) else s.readReg r := by
  rw [State.amoAdd, readReg_advance, readReg_writeReg, readReg_physWrite]

theorem sameBytesOutside_amoAdd (s : State) (rd : RegIdx) (pa : Nat) (addend : BitVec 32) :
    sameBytesOutside s (s.amoAdd rd pa addend) pa 4 :=
  sameBytesOutside_physWrite s pa (leBytes 4 (s.physRead32 pa + addend).toNat)

theorem mem_written_amoAdd (s : State) (rd : RegIdx) (pa : Nat) (addend : BitVec 32) (k : Nat) :
    k ∈ (s.amoAdd rd pa addend).written ↔ (∃ j, j < 4 ∧ k = (pa + j) / 4) ∨ k ∈ s.written :=
  mem_written_physWrite s pa (leBytes 4 (s.physRead32 pa + addend).toNat) k

/-- Settles O41: the addition, made on the state the translation left. -/
theorem amoaddResult : Obligations.AmoaddResult := by
  intro s u aq rl rd rs1 rs2 pa canonical located pmpLoad pmpStore pmaLoad pmaStore atomic memory
  have effect : TranslationEffect s u := locate_effect s u _ .store pa located
  have permitted := (amoPermitted_iff u pa (s.effPriv .store)).2 ⟨pmpLoad, pmpStore, pmaLoad, pmaStore, atomic⟩
  refine ⟨fun untranslated => ?_, _, exec_amoaddW_of_permitted aq rl rd rs2 located permitted memory, ?_, fun r => ?_,
    pcAdvanced_of_pc ?_, sameBytesOutside_amoAdd u rd pa _, effect.sameCsrs, effect.sameSurroundings, effect.priv,
    effect.waiting, rfl, mem_written_amoAdd u rd pa _⟩
  · obtain ⟨_, ⟨_, address, same⟩ | ⟨translated, _⟩⟩ := locate_ok s u _ .store pa located
    · exact ⟨address, same⟩
    · rw [untranslated] at translated; cases translated
  · rw [physRead32_amoAdd u rd pa _ (effect.wf canonical), low32_eq_setWidth]
  · rw [readReg_amoAdd, effect.sameRegs r, effect.cfg]
    rfl
  · change truncXlen u.cfg.xlen (u.pc + 4#64) = _
    rw [effect.cfg, effect.pc]

/-- Settles O42: the address is its own physical address, so the addition is made on the state itself. -/
theorem amoaddUntranslatedResult : Obligations.AmoaddUntranslatedResult := by
  intro s aq rl rd rs1 rs2 canonical untranslated aligned pmpLoad pmpStore pmaLoad pmaStore atomic memory
  have located := locate_untranslated s (s.readReg rs1) .store aligned untranslated
  have permitted := (amoPermitted_iff s _ (s.effPriv .store)).2 ⟨pmpLoad, pmpStore, pmaLoad, pmaStore, atomic⟩
  obtain ⟨_, t, runs, word, regs, pc, outside, _⟩ :=
    amoaddResult s s aq rl rd rs1 rs2 _ canonical located pmpLoad pmpStore pmaLoad pmaStore atomic memory
  have result := exec_amoaddW_of_permitted aq rl rd rs2 located permitted memory
  obtain rfl := Host.Outcome.next.inj (result.symm.trans runs)
  exact ⟨_, runs, word, regs, pc, outside, rfl⟩

/-! ## What PMA answers (20_memory.md R81, R87) -/

theorem regionHolds_iff (pa n : Nat) (r : Region) :
    regionHolds pa n r = true ↔ r.base ≤ pa ∧ pa + n ≤ r.base + r.size := by
  simp only [regionHolds, Bool.and_eq_true, decide_eq_true_eq]

theorem regionOf_of_above {c : Config} {pa n : Nat} (h : 2 ^ c.pasize < pa + n) : regionOf c pa n = none :=
  if_neg (Nat.not_le_of_lt h)

theorem regionOf_of_below {c : Config} {pa n : Nat} (h : pa + n ≤ 2 ^ c.pasize) :
    regionOf c pa n = c.regions.find? (regionHolds pa n) := if_pos h

theorem regionOf_some {c : Config} {pa n : Nat} {r : Region} (h : regionOf c pa n = some r) :
    (∃ before after, c.regions = before ++ r :: after ∧ ∀ q ∈ before, ¬ (q.base ≤ pa ∧ pa + n ≤ q.base + q.size)) ∧
      r.base ≤ pa ∧ pa + n ≤ r.base + r.size := by
  rcases Nat.lt_or_ge (2 ^ c.pasize) (pa + n) with above | below
  · rw [regionOf_of_above above] at h; cases h
  · rw [regionOf_of_below below] at h
    obtain ⟨holds, before, after, split, none⟩ := List.find?_eq_some_iff_append.1 h
    exact ⟨⟨before, after, split, fun q hq => mt (regionHolds_iff pa n q).2 (by simpa using none q hq)⟩,
      (regionHolds_iff pa n r).1 holds⟩

theorem pmaAllows_of_region {c : Config} {pa n : Nat} {r : Region} (h : regionOf c pa n = some r) (acc : Access) :
    pmaAllows c pa n acc = regionPermits r acc := by
  rw [pmaAllows, h]

theorem pmaAllows_of_none {c : Config} {pa n : Nat} (h : regionOf c pa n = none) (acc : Access) :
    pmaAllows c pa n acc = false := by
  rw [pmaAllows, h]

theorem regionPermits_of_rom {r : Region} (rom : r.kind = .rom) (acc : Access) :
    regionPermits r acc = true ↔ acc ≠ .store := by
  cases acc <;> simp [regionPermits, rom]

theorem regionPermits_of_not_rom {r : Region} (notRom : r.kind ≠ .rom) (acc : Access) :
    regionPermits r acc = true ↔
      (acc = .fetch ∧ r.fetch = true) ∨ (acc = .load ∧ r.load = true) ∨ (acc = .store ∧ r.store = true) := by
  cases acc <;> simp [regionPermits, notRom]

/-- Settles O43: `amoadd.w` by the answer of `locate` and its checks, and PMA by the first region that holds the access. -/
theorem amoaddFaults : Obligations.AmoaddFaults := by
  intro s aq rl rd rs1 rs2
  have raised_of_locate : ∀ {e}, s.locate (s.readReg rs1) .store = .raised e (s.readReg rs1) s.drawn →
      ∃ t, exec (.amoaddW aq rl rd rs1 rs2) s = .next t ∧
        TookTrap s.drawn t false (exnCode e) (s.readReg rs1) s.pc :=
    fun {e} located => ⟨_, exec_amoaddW_of_raised aq rl rd rs2 located, tookTrap_raise s.drawn e _⟩
  refine ⟨fun misaligned => ?_, fun e tval u aligned located => ?_, ?_, fun pa u located denied => ?_,
    fun pa u located pmpLoad pmpStore pmaLoad pmaStore atomic device => ?_, fun r refused => ?_, fun pa n acc => ?_⟩
  · have located : s.locate (s.readReg rs1) .store = .raised .storeAddrMisaligned (s.readReg rs1) s := if_pos misaligned
    exact ⟨_, exec_amoaddW_of_raised aq rl rd rs2 located, tookTrap_raise s .storeAddrMisaligned _⟩
  · obtain ⟨rfl, ⟨misaligned, _⟩ | ⟨_, rfl, kind⟩⟩ := locate_raised s u _ tval .store e located
    · exact absurd aligned misaligned
    · refine ⟨rfl, ?_, raised_of_locate located⟩
      rcases kind with rfl | rfl
      · exact .inl rfl
      · exact .inr rfl
  · intro raises aligned translated
    have raised_of_translate : ∀ {e}, s.translate (s.readReg rs1) .store (s.effPriv .store) =
        .raised e (s.readReg rs1) s.drawn → raises (exnCode e) := fun {e} h =>
      have located := (locate_translated s _ .store aligned translated).trans h
      ⟨e, rfl, located, raised_of_locate located⟩
    exact faultsByWalk_of_translate raised_of_translate raised_of_translate
  · have trap := tookTrap_raise u .storeAccessFault (s.readReg rs1)
    rw [(locate_effect s u _ .store pa located).pc] at trap
    exact ⟨_, exec_amoaddW_of_denied aq rl rd rs2 located (mt (amoPermitted_iff u pa _).1 denied), trap⟩
  · exact exec_amoaddW_of_device aq rl rd rs2 located
      ((amoPermitted_iff u pa _).2 ⟨pmpLoad, pmpStore, pmaLoad, pmaStore, atomic⟩) device
  · obtain rfl := locate_refused refused
    exact ⟨rfl, exec_amoaddW_of_refused aq rl rd rs2 refused⟩
  · refine ⟨fun r region => ?_, fun outside => ⟨pmaAllows_of_none outside acc, ?_, ?_⟩,
      fun above => pmaAllows_of_none (regionOf_of_above above) acc, fun below held => ?_, fun unheld => ?_⟩
    · obtain ⟨first, low, high⟩ := regionOf_some region
      refine ⟨first, low, high, by rw [pmaAtomic, region], by rw [pmaDevice, region]; exact decide_eq_true_iff,
        fun rom => ?_, fun notRom => ?_⟩
      · rw [pmaAllows_of_region region, regionPermits_of_rom rom]
      · rw [pmaAllows_of_region region, regionPermits_of_not_rom notRom]
    · rw [pmaAtomic, outside]
    · rw [pmaDevice, outside]
    · obtain ⟨r, member, holds⟩ := held
      rw [regionOf_of_below below, ← Option.isSome_iff_exists, List.find?_isSome]
      exact ⟨r, member, (regionHolds_iff pa n r).2 holds⟩
    · cases region : regionOf s.cfg pa n with
      | none => exact pmaAllows_of_none region acc
      | some r =>
        obtain ⟨⟨before, after, split, _⟩, holds⟩ := regionOf_some region
        exact absurd holds (unheld r (by rw [split]; simp))

end Sys2Proof.Machine
end

section
/-! What an instruction and a step can end in, and the frames that follow: registers, memory, privilege, and the
registers of the modes above (10_state.md R23, R48, R54; 20_memory.md R83, R108, R124; 60_exceptions.md R237, R241-R243). -/

namespace Sys2Proof.Machine

/-! ## Everything an instruction can end in -/

/-- Where an instruction raises an exception: on the state itself, with one free choice drawn, or, for `amoadd.w`, on what
its translation left. -/
def RaisesOn (s : State) (i : Instr) (u : State) : Prop :=
  u = s ∨ u = s.drawn ∨
    ∃ aq rl rd rs1 rs2 pa, i = .amoaddW aq rl rd rs1 rs2 ∧ s.locate (s.readReg rs1) .store = .ok pa u

theorem RaisesOn.effect {s u : State} {i : Instr} (h : RaisesOn s i u) : TranslationEffect s u := by
  rcases h with rfl | rfl | ⟨_, _, _, _, _, pa, _, located⟩
  · exact .inl rfl
  · exact .inr (.inl rfl)
  · exact locate_effect s u _ .store pa located

/-- The next states an instruction can end in. -/
inductive ExecNext (s : State) : Instr → State → Prop where
  | raised {i : Instr} {u : State} (e : Exn) (tval : Word) (on : RaisesOn s i u) : ExecNext s i (u.raise e tval)
  | mret (machine : s.priv = .machine) : ExecNext s .mret s.returnFromM
  | sret (legal : s.supervisorOnly bitTSR = false) : ExecNext s .sret s.returnFromS
  | wfi : ExecNext s .wfi s.afterWfi
  | fence (rs1 rs2 : RegIdx) : ExecNext s (.sfenceVma rs1 rs2) (s.fenced rs1 rs2)
  | csr {i : Instr} {n : CsrNum} {c : Csr} (willWrite : Bool) (v : Word) (number : csrNumberOf i = some n)
      (access : csrAccessible s n c) :
      ExecNext s i (((if willWrite then s.csrWrite c v else s).writeReg (destOf i) (s.csrRead c)).advance)
  | add (aq rl : Bool) (rd rs1 rs2 : RegIdx) {pa : Nat} {u : State}
      (located : s.locate (s.readReg rs1) .store = .ok pa u) :
      ExecNext s (.amoaddW aq rl rd rs1 rs2) (u.amoAdd rd pa (low32 (s.readReg rs2)))

theorem execNext_of_csr {s t : State} {i : Instr} {n : CsrNum} (number : csrNumberOf i = some n)
    (h : exec i s = .next t) : ExecNext s i t := by
  obtain ⟨willWrite, new, body⟩ := exec_of_csrNumber s number
  rw [body] at h
  rcases csrInstr_cases s (encode i) n (destOf i) willWrite new with ⟨_, refused⟩ | ⟨_, illegal⟩ | ⟨c, granted, done⟩
  · rw [refused] at h; cases h
  · rw [illegal] at h; cases h
    exact .raised _ _ (.inl rfl)
  · rw [done] at h; cases h
    exact .csr willWrite _ number (accessible_of_granted granted)

theorem execNext_of_amoadd {s t : State} {aq rl : Bool} {rd rs1 rs2 : RegIdx}
    (h : exec (.amoaddW aq rl rd rs1 rs2) s = .next t) : ExecNext s (.amoaddW aq rl rd rs1 rs2) t := by
  cases located : s.locate (s.readReg rs1) .store with
  | refused r => rw [exec_amoaddW_of_refused aq rl rd rs2 located] at h; cases h
  | raised e tval u =>
    rw [exec_amoaddW_of_raised aq rl rd rs2 located] at h; cases h
    obtain ⟨_, ⟨_, _, rfl⟩ | ⟨_, rfl, _⟩⟩ := locate_raised s u _ tval .store e located
    · exact .raised _ _ (.inl rfl)
    · exact .raised _ _ (.inr (.inl rfl))
  | ok pa u =>
    by_cases permitted : u.amoPermitted pa (s.effPriv .store) = true
    · cases memory : pmaDevice u.cfg pa 4 with
      | true => rw [exec_amoaddW_of_device aq rl rd rs2 located permitted memory] at h; cases h
      | false =>
        rw [exec_amoaddW_of_permitted aq rl rd rs2 located permitted memory] at h; cases h
        exact .add aq rl rd rs1 rs2 located
    · rw [exec_amoaddW_of_denied aq rl rd rs2 located permitted] at h; cases h
      exact .raised _ _ (.inr (.inr ⟨aq, rl, rd, rs1, rs2, pa, rfl, located⟩))

theorem exec_next {s t : State} {i : Instr} (h : exec i s = .next t) : ExecNext s i t := by
  cases i with
  | ecall => cases h; exact .raised _ _ (.inl rfl)
  | ebreak => cases h; exact .raised _ _ (.inl rfl)
  | mret =>
    by_cases machine : s.priv = .machine
    · rw [exec_mret_of_machine machine] at h; cases h
      exact .mret machine
    · rw [exec_mret_of_not_machine machine] at h; cases h
      exact .raised _ _ (.inl rfl)
  | sret =>
    cases legal : s.supervisorOnly bitTSR with
    | true => rw [exec_sret_of_illegal legal] at h; cases h; exact .raised _ _ (.inl rfl)
    | false => rw [exec_sret_of_legal legal] at h; cases h; exact .sret legal
  | wfi =>
    rw [exec_wfi] at h; cases h
    split
    · exact .raised _ _ (.inr (.inl rfl))
    · exact .wfi
  | sfenceVma rs1 rs2 =>
    rw [exec_sfenceVma] at h; cases h
    split
    · exact .raised _ _ (.inl rfl)
    · exact .fence rs1 rs2
  | csrrw _ _ _ | csrrs _ _ _ | csrrc _ _ _ | csrrwi _ _ _ | csrrsi _ _ _ | csrrci _ _ _ => exact execNext_of_csr rfl h
  | amoaddW aq rl rd rs1 rs2 => exact execNext_of_amoadd h

/-! ## Everything a step can end in -/

/-- Where a fetch raises an exception: on the state itself, with one free choice drawn, or on what its translation left. -/
theorem fetch_raised_on {s u : State} {e : Exn} {tval : Word} (h : s.fetch = .raised e tval u) :
    u = s ∨ u = s.drawn ∨ ∃ pa, s.locate s.pc .fetch = .ok pa u := by
  unfold State.fetch at h
  split at h
  · cases h
  · next located =>
    cases h
    obtain ⟨_, ⟨_, _, same⟩ | ⟨_, drawn, _⟩⟩ := locate_raised s u s.pc _ .fetch _ located
    · exact .inl same
    · exact .inr (.inl drawn)
  · next pa t located =>
    split at h
    · cases h; exact .inr (.inr ⟨pa, located⟩)
    · split at h
      · cases h
      · split at h <;> cases h

/-- The next states a step can end in. -/
inductive StepNext (s : State) : State → Prop where
  | interrupt (i : Interrupt) : StepNext s (s.sampleLines.takeInterrupt i)
  | waits : StepNext s s.sampleLines
  | faults {e : Exn} {tval : Word} {u : State} (fetched : s.awake.fetch = .raised e tval u) : StepNext s (u.raise e tval)
  | illegal {w : InstrWord} {u : State} (fetched : s.awake.fetch = .ok w u) : StepNext s (u.raiseIllegal w)
  | runs {w : InstrWord} {u t : State} {i : Instr} (reaches : reachesFetch s) (fetched : s.awake.fetch = .ok w u)
      (decoded : decode w = .instr i) (done : ExecNext u i t) : StepNext s t

theorem stepNext_of_step {s t : State} (h : step s = .next t) : StepNext s t := by
  rcases step_next s t h with ⟨i, _, rfl⟩ | ⟨_, _, _, rfl⟩ | ⟨noInterrupt, wakes, runs⟩
  · exact .interrupt i
  · exact .waits
  · rcases runNext_next s.awake t runs with ⟨e, tval, u, fetched, rfl⟩ | ⟨w, u, i, fetched, decoded, done⟩ |
      ⟨w, u, why, fetched, _, rfl⟩
    · exact .faults fetched
    · exact .runs ⟨noInterrupt, fun waiting => (wakeUp_iff s.sampleLines).1 (wakes waiting)⟩ fetched decoded (exec_next done)
    · exact .illegal fetched

/-! ## Integer registers (10_state.md R23) -/

theorem ExecNext.regs {s t : State} {i : Instr} (h : ExecNext s i t) {r : RegIdx} (other : r ≠ destOf i) :
    t.readReg r = s.readReg r := by
  by_cases zero : r = 0#5
  · rw [zero, readReg_zero, readReg_zero]
  · cases h with
    | raised e tval on => rw [readReg_raise, on.effect.sameRegs r]
    | mret => rfl
    | sret => rfl
    | wfi => rfl
    | fence => rfl
    | csr willWrite v =>
      rw [readReg_advance, readReg_writeReg, if_neg zero, if_neg other]
      cases willWrite with
      | true => exact readReg_csrWrite s _ v r
      | false => rfl
    | add aq rl rd rs1 rs2 located =>
      have notRd : r ≠ rd := other
      rw [readReg_amoAdd, if_neg zero, if_neg notRd, (locate_effect s _ _ .store _ located).sameRegs r]

/-- Settles O52: only a CSR instruction and `amoadd.w` write a register, their destination. -/
theorem registerFrame : Obligations.RegisterFrame := fun _ t _ h =>
  ⟨readReg_zero t, fun _ other => (exec_next h).regs other⟩

/-! ## Memory (20_memory.md R83, R108, R124) -/

theorem ExecNext.memory {s t : State} {i : Instr} (h : ExecNext s i t)
    (notAmo : ∀ aq rl rd rs1 rs2, i ≠ .amoaddW aq rl rd rs1 rs2) : t.mem = s.mem ∧ t.written = s.written := by
  cases h with
  | raised e tval on =>
    rw [raise_mem, raise_written]
    rcases on with rfl | rfl | ⟨aq, rl, rd, rs1, rs2, _, amo, _⟩
    · exact ⟨rfl, rfl⟩
    · exact ⟨rfl, rfl⟩
    · exact absurd amo (notAmo aq rl rd rs1 rs2)
  | mret => exact ⟨rfl, rfl⟩
  | sret => exact ⟨rfl, rfl⟩
  | wfi => exact ⟨rfl, rfl⟩
  | fence => exact ⟨rfl, rfl⟩
  | csr willWrite v =>
    cases willWrite with
    | true => exact ⟨csrWrite_mem s _ v, csrWrite_written s _ v⟩
    | false => exact ⟨rfl, rfl⟩
  | add aq rl rd rs1 rs2 => exact absurd rfl (notAmo aq rl rd rs1 rs2)

/-- A translation changes no byte but those of the entry it sets A or D in. -/
theorem read_of_located {s u : State} {va : Word} {acc : Access} {pa a : Nat} (h : s.locate va acc = .ok pa u)
    (unset : ¬ walkUpdates s va acc a) : u.mem.read a = s.mem.read a := by
  obtain ⟨_, ⟨_, _, rfl⟩ | ⟨translated, result⟩⟩ := locate_ok s u va acc pa h
  · rfl
  · obtain ⟨level, addr, pte, leaf, _, ⟨_, rfl⟩ | ⟨missing, _, _, _, rfl⟩⟩ := translate_ok s u va acc _ pa result
    · rfl
    · have bits : pte.getLsbD 6 = false ∨ (acc = .store ∧ pte.getLsbD 7 = false) := by
        by_contra clean
        rw [not_or, not_and, Bool.not_eq_false, Bool.not_eq_false] at clean
        rw [(needsUpdate_eq_false_iff pte acc).2 clean] at missing
        cases missing
      have outside := sameBytesOutside_physWrite s.drawn addr
        (leBytes (pteSize (s.satpMode (s.chosenWalk va acc (s.effPriv acc)).1)) (pteUpdated pte acc).toNat)
      rw [length_leBytes] at outside
      refine outside a ?_
      by_contra inside
      rw [not_or, Nat.not_lt, Nat.not_le] at inside
      exact unset ⟨translated, level, addr, pte, leaf, bits, inside⟩

theorem ExecNext.read_of_amoadd {s t : State} {aq rl : Bool} {rd rs1 rs2 : RegIdx} {a : Nat}
    (h : ExecNext s (.amoaddW aq rl rd rs1 rs2) t) (unset : ¬ walkUpdates s (s.readReg rs1) .store a)
    (elsewhere : ∀ pa v, s.locate (s.readReg rs1) .store = .ok pa v → a < pa ∨ pa + 4 ≤ a) :
    t.mem.read a = s.mem.read a := by
  cases h with
  | raised e tval on =>
    rw [raise_mem]
    rcases on with rfl | rfl | ⟨_, _, _, _, _, pa, same, located⟩
    · rfl
    · rfl
    · cases same
      exact read_of_located located unset
  | csr _ _ number => cases number
  | add _ _ _ _ _ located =>
    rw [sameBytesOutside_amoAdd _ rd _ _ a (elsewhere _ _ located)]
    exact read_of_located located unset

/-- Settles O53: the fetch's translation, and `amoadd.w` with its own translation, are all that writes memory. -/
theorem onlyAmoaddStores : Obligations.OnlyAmoaddStores := by
  refine ⟨fun s t i done notAmo => ?_, fun s t a done unset elsewhere => ?_⟩
  · obtain ⟨mem, written⟩ := (exec_next done).memory notAmo
    exact ⟨fun b => by rw [mem], written⟩
  · have fetchLeaves : ∀ {w u}, s.awake.fetch = .ok w u → u.mem.read a = s.mem.read a := fun {w u} fetched => by
      obtain ⟨pa, located, _⟩ := fetch_ok s.awake u w fetched
      exact read_of_located (s := s.awake) located unset
    cases stepNext_of_step done with
    | interrupt i => rw [takeInterrupt_mem, sampleLines_mem]
    | waits => rfl
    | faults fetched =>
      rw [raise_mem]
      rcases fetch_raised_on fetched with rfl | rfl | ⟨pa, located⟩
      · rfl
      · rfl
      · exact read_of_located (s := s.awake) located unset
    | illegal fetched => rw [raiseIllegal_mem, fetchLeaves fetched]
    | @runs w u _ i reaches fetched decoded ran =>
      rw [← fetchLeaves fetched]
      by_cases amo : ∃ aq rl rd rs1 rs2, i = .amoaddW aq rl rd rs1 rs2
      · obtain ⟨aq, rl, rd, rs1, rs2, rfl⟩ := amo
        obtain ⟨walk, word⟩ := elsewhere w u aq rl rd rs1 rs2 reaches fetched decoded
        exact ran.read_of_amoadd walk word
      · rw [(ran.memory fun aq rl rd rs1 rs2 same => amo ⟨aq, rl, rd, rs1, rs2, same⟩).1]

/-! ## CSRs as before -/

theorem sameCsrs_trans {s t u : State} (h : sameCsrs s t) (h' : sameCsrs t u) : sameCsrs s u := by
  simp only [sameCsrs, sameMachineTrapRegs, sameSupervisorTrapRegs, sameOtherCsrs] at h h' ⊢
  grind

theorem sameCsrs_refl (s : State) : sameCsrs s s :=
  ⟨rfl, ⟨rfl, rfl, rfl⟩, ⟨rfl, rfl, rfl⟩, rfl, rfl, rfl, rfl, rfl, rfl, rfl, rfl, rfl, rfl, rfl⟩

/-- What the fetch leaves has the mode, the pc, the registers and the CSRs the hart had. -/
theorem fetched_as_before {s u : State} (h : TranslationEffect s.awake u) :
    u.priv = s.priv ∧ u.pc = s.pc ∧ sameRegs s u ∧ sameCsrs s u :=
  ⟨h.priv, h.pc, h.sameRegs, sameCsrs_trans (sameCsrs_refl s) h.sameCsrs⟩

theorem fetch_raised_effect {s u : State} {e : Exn} {tval : Word} (h : s.fetch = .raised e tval u) :
    TranslationEffect s u := by
  obtain ⟨_, effect, _⟩ := fetch_raised s u tval e h
  exact effect

/-- The registers of R60 that S-mode may access. -/
def supervisorCsrs : List Csr := [.sstatus, .sie, .stvec, .sscratch, .sepc, .scause, .stval, .sip, .satp]

/-- No register of R60 is below level 1, and the ones at level 1 are the supervisor registers. -/
theorem csrLevel_of_named {n : CsrNum} {c : Csr} (h : csrOfNumber n.toNat = some c) :
    1 ≤ csrLevel n ∧ (csrLevel n ≤ 1 → c ∈ supervisorCsrs) := by
  have level : csrLevel n = n.toNat / 2 ^ 8 % 2 ^ 2 := by
    rw [csrLevel, BitVec.extractLsb'_toNat, Nat.shiftRight_eq_div_pow]
  have named : ∀ p ∈ namedCsrs,
      1 ≤ p.1 / 2 ^ 8 % 2 ^ 2 ∧ (p.1 / 2 ^ 8 % 2 ^ 2 ≤ 1 → p.2 ∈ supervisorCsrs) := by decide +kernel
  rw [level]
  rcases csrOfNumber_some h with listed | ⟨k, number, _⟩ | ⟨i, number, _⟩
  · exact named (n.toNat, c) listed
  · omega
  · omega

/-! ## Privilege (60_exceptions.md R243) -/

theorem sppOf_le (m : Word) : modeCode (sppOf m) ≤ 1 := by
  unfold sppOf
  split <;> decide

theorem one_le_modeCode {p : Mode} (h : p ≠ .user) : 1 ≤ modeCode p := by
  cases p with
  | user => exact absurd rfl h
  | supervisor => decide
  | machine => decide

theorem modeCode_le (p : Mode) : modeCode p ≤ 3 := by cases p <;> decide

theorem not_user_of_sret {s : State} (legal : s.supervisorOnly bitTSR = false) : s.priv ≠ .user := by
  intro user
  rw [(supervisorOnly_iff s bitTSR).2 (.inr (.inl user))] at legal
  cases legal

/-- An instruction that raises no exception leaves the mode or is a return, which does not raise it. -/
theorem ExecNext.priv {s t : State} {i : Instr} (h : ExecNext s i t) :
    (∃ u e tval, RaisesOn s i u ∧ t = u.raise e tval) ∨ (i = .mret ∧ s.priv = .machine) ∨
      (i = .sret ∧ s.priv ≠ .user ∧ t.priv = sppOf s.mstatus) ∨ t.priv = s.priv := by
  cases h with
  | raised e tval on => exact .inl ⟨_, e, tval, on, rfl⟩
  | mret machine => exact .inr (.inl ⟨rfl, machine⟩)
  | sret legal => exact .inr (.inr (.inl ⟨rfl, not_user_of_sret legal, rfl⟩))
  | wfi => exact .inr (.inr (.inr rfl))
  | fence => exact .inr (.inr (.inr rfl))
  | csr willWrite v =>
    cases willWrite with
    | true => exact .inr (.inr (.inr (csrWrite_priv s _ v)))
    | false => exact .inr (.inr (.inr rfl))
  | add _ _ _ _ _ located => exact .inr (.inr (.inr (locate_effect s _ _ .store _ located).priv))

/-- Settles O58: the interrupt, the fetch's fault, the illegal word and the instruction's own exception are traps; of the
rest only the two returns change the mode, and they lower it. -/
theorem privilegeChangesOnlyByTrapOrReturn : Obligations.PrivilegeChangesOnlyByTrapOrReturn := by
  intro s t done
  have byTrap : ∀ {u : State} (e : Exn) (tval : Word), TranslationEffect s.awake u →
      (∃ v isInterrupt code tval', v.priv = s.priv ∧ sameRegs s v ∧ sameCsrs s v ∧
        TookTrap v (u.raise e tval) isInterrupt code tval' s.pc) ∧
      ¬ modeCode (u.raise e tval).priv < modeCode s.priv := fun {u} e tval effect => by
    obtain ⟨priv, pc, regs, csrs⟩ := fetched_as_before effect
    refine ⟨⟨u, false, _, tval, priv, regs, csrs, pc ▸ tookTrap_raise u e tval⟩, ?_⟩
    rw [← priv]
    exact Nat.not_lt.2 (trapNeverLowersPrivilege u (.exception e) tval u.pc).1
  cases stepNext_of_step done with
  | interrupt i =>
    refine ⟨fun _ => ⟨s.sampleLines, true, _, 0#64, rfl, fun _ => rfl, sameCsrs_refl s,
      tookTrap_takeTrap s.sampleLines (.interrupt i) 0#64 s.pc⟩, fun lower => absurd lower (Nat.not_lt.2 ?_)⟩
    exact (trapNeverLowersPrivilege s.sampleLines (.interrupt i) 0#64 s.pc).1
  | waits => exact ⟨fun rises => absurd rises (Nat.lt_irrefl _), fun falls => absurd falls (Nat.lt_irrefl _)⟩
  | faults fetched =>
    obtain ⟨trap, notLower⟩ := byTrap _ _ (fetch_raised_effect fetched)
    exact ⟨fun _ => trap, fun falls => absurd falls notLower⟩
  | illegal fetched =>
    obtain ⟨trap, notLower⟩ := byTrap _ _ (fetch_effect fetched)
    exact ⟨fun _ => trap, fun falls => absurd falls notLower⟩
  | @runs w u _ i _ fetched decoded ran =>
    obtain ⟨priv, pc, regs, csrs⟩ := fetched_as_before (fetch_effect fetched)
    rcases ran.priv with ⟨v, e, tval, on, rfl⟩ | ⟨rfl, machine⟩ | ⟨rfl, notUser, target⟩ | same
    · have effect := on.effect
      have vRegs : sameRegs s v := fun r => (effect.sameRegs r).trans (regs r)
      have vPc : v.pc = s.pc := effect.pc.trans pc
      have vPriv : v.priv = s.priv := effect.priv.trans priv
      refine ⟨fun _ => ⟨v, false, _, tval, vPriv, vRegs, sameCsrs_trans csrs effect.sameCsrs,
        vPc ▸ tookTrap_raise v e tval⟩, fun falls => absurd falls ?_⟩
      rw [← vPriv]
      exact Nat.not_lt.2 (trapNeverLowersPrivilege v (.exception e) tval v.pc).1
    · have wasMachine : s.priv = .machine := priv.symm.trans machine
      refine ⟨fun rises => ?_, fun _ => ⟨w, u, fetched, .inl decoded, fun _ => wasMachine, fun supervisor => ?_⟩⟩
      · rw [wasMachine] at rises
        exact absurd rises (Nat.not_lt.2 (modeCode_le t.priv))
      · rw [wasMachine] at supervisor; cases supervisor
    · refine ⟨fun rises => ?_, fun falls => ⟨w, u, fetched, .inr decoded, fun mret => ?_, fun supervisor => ?_⟩⟩
      · rw [target] at rises
        have low := sppOf_le u.mstatus
        have high := one_le_modeCode (priv ▸ notUser)
        omega
      · rw [decoded] at mret; cases mret
      · rw [supervisor] at falls
        by_contra notU
        exact absurd falls (Nat.not_lt.2 (one_le_modeCode notU))
    · rw [same, priv]
      exact ⟨fun rises => absurd rises (Nat.lt_irrefl _), fun falls => absurd falls (Nat.lt_irrefl _)⟩

/-! ## U-mode (60_exceptions.md R242) -/

theorem not_user_raise (s : State) (e : Exn) (tval : Word) : (s.raise e tval).priv ≠ .user :=
  (trapNeverLowersPrivilege s (.exception e) tval s.pc).2

/-- An instruction in U-mode that stays there changes no CSR. -/
theorem ExecNext.sameCsrs_of_user {s t : State} {i : Instr} (h : ExecNext s i t) (user : s.priv = .user)
    (stays : t.priv = .user) : sameCsrs s t := by
  cases h with
  | raised e tval => exact absurd stays (not_user_raise _ e tval)
  | mret machine => rw [user] at machine; cases machine
  | sret legal => exact absurd user (not_user_of_sret legal)
  | wfi => exact sameCsrs_refl s
  | fence => exact sameCsrs_refl s
  | csr willWrite v number access =>
    obtain ⟨names, _, level, _⟩ := access
    rw [user] at level
    exact absurd level (Nat.not_le_of_lt (csrLevel_of_named names).1)
  | add _ _ _ _ _ located => exact (locate_effect s _ _ .store _ located).sameCsrs

/-- Settles O59: a trap leaves U-mode, and no CSR instruction, return or fence completes there. -/
theorem userModeLeavesCsrs : Obligations.UserModeLeavesCsrs := by
  intro s t user done stays
  cases stepNext_of_step done with
  | interrupt i => exact absurd stays (trapNeverLowersPrivilege s.sampleLines (.interrupt i) 0#64 s.pc).2
  | waits => exact sameCsrs_refl s
  | faults => exact absurd stays (not_user_raise _ _ _)
  | illegal => exact absurd stays (not_user_raise _ _ _)
  | runs _ fetched _ ran =>
    obtain ⟨priv, _, _, csrs⟩ := fetched_as_before (fetch_effect fetched)
    exact sameCsrs_trans csrs (ran.sameCsrs_of_user (priv.trans user) stays)

/-! ## The machine registers below M-mode (60_exceptions.md R242; 10_state.md R48, R54) -/

/-- The machine registers, and the fields that software below M-mode may not write, are as before. -/
def LeavesMachineRegisters (s t : State) : Prop :=
  sameMachineTrapRegs s t ∧ t.mtvec = s.mtvec ∧ t.mscratch = s.mscratch ∧ t.medeleg = s.medeleg ∧
    t.mideleg = s.mideleg ∧ t.pmpcfg = s.pmpcfg ∧ t.pmpaddr = s.pmpaddr ∧
    (∀ i, i ∉ [1, 5, 8, 18, 19] → t.mstatus.getLsbD i = s.mstatus.getLsbD i) ∧
    (∀ i, ¬ (i ∈ [1, 5, 9] ∧ s.mideleg.getLsbD i = true) → t.mie.getLsbD i = s.mie.getLsbD i) ∧
    (∀ i, ¬ (i = 1 ∧ s.mideleg.getLsbD 1 = true) → t.mipSw.getLsbD i = s.mipSw.getLsbD i)

theorem leavesMachineRegisters_of_sameCsrs {s t : State} (h : sameCsrs s t) : LeavesMachineRegisters s t := by
  obtain ⟨mstatus, trap, _, mtvec, mscratch, mie, mip, medeleg, mideleg, pmpcfg, pmpaddr, _⟩ := h
  exact ⟨trap, mtvec, mscratch, medeleg, mideleg, pmpcfg, pmpaddr, fun i _ => by rw [mstatus], fun i _ => by rw [mie],
    fun i _ => by rw [mip]⟩

/-- Registers and CSRs kept first, the machine registers kept after. -/
theorem LeavesMachineRegisters.of_sameCsrs {s u t : State} (same : sameCsrs s u) (h : LeavesMachineRegisters u t) :
    LeavesMachineRegisters s t := by
  obtain ⟨mstatus, ⟨mepc, mcause, mtval⟩, _, mtvec, mscratch, mie, mip, medeleg, mideleg, pmpcfg, pmpaddr, _⟩ := same
  unfold LeavesMachineRegisters sameMachineTrapRegs at h ⊢
  rwa [mstatus, mepc, mcause, mtval, mtvec, mscratch, mie, mip, medeleg, mideleg, pmpcfg, pmpaddr] at h

/-- A trap that does not end in M-mode is one to S-mode. -/
theorem leavesMachineRegisters_takeTrap {s : State} {c : Cause} {tval epc : Word}
    (below : (s.takeTrap c tval epc).priv ≠ .machine) : LeavesMachineRegisters s (s.takeTrap c tval epc) := by
  rcases takeTrap_cases s c tval epc with ⟨delegated, trap⟩ | ⟨_, trap⟩
  · have status := (tookTrapS_takeTrap s c tval epc delegated).status
    rw [trap] at status ⊢
    refine ⟨⟨rfl, rfl, rfl⟩, rfl, rfl, rfl, rfl, rfl, rfl, fun i hidden => ?_, fun _ _ => rfl, fun _ _ => rfl⟩
    simp only [List.mem_cons, List.not_mem_nil, not_or] at hidden
    obtain ⟨not1, not5, not8, _⟩ := hidden
    exact status i not1 not5 not8
  · rw [trap, trapToM_priv] at below
    exact absurd rfl below

theorem leavesMachineRegisters_returnFromS (s : State) : LeavesMachineRegisters s s.returnFromS := by
  refine ⟨⟨rfl, rfl, rfl⟩, rfl, rfl, rfl, rfl, rfl, rfl, fun i hidden => ?_, fun _ _ => rfl, fun _ _ => rfl⟩
  simp only [List.mem_cons, List.not_mem_nil, not_or] at hidden
  obtain ⟨not1, not5, not8, _⟩ := hidden
  exact returnFromS_other_bits s i not1 not5 not8

/-- A write to a supervisor register reaches the machine's only through the views. -/
theorem leavesMachineRegisters_csrWrite (s : State) {c : Csr} (v : Word)
    (supervisor : c ∈ supervisorCsrs) :
    LeavesMachineRegisters s (s.csrWrite c v) := by
  have notTrap : csrHome c ≠ .mepc ∧ csrHome c ≠ .mcause ∧ csrHome c ≠ .mtval ∧ csrHome c ≠ .mtvec ∧
      csrHome c ≠ .mscratch ∧ csrHome c ≠ .medeleg ∧ csrHome c ≠ .mideleg := by
    revert c
    decide
  have notPmp : (∀ k, c ≠ .pmpcfg k) ∧ ∀ k, c ≠ .pmpaddr k := by
    constructor <;> rintro k rfl <;> simp [supervisorCsrs] at supervisor
  obtain ⟨mepc, mcause, mtval, mtvec, mscratch, medeleg, mideleg⟩ := notTrap
  refine ⟨⟨csrWrite_mepc_of_ne s v mepc, csrWrite_mcause_of_ne s v mcause, csrWrite_mtval_of_ne s v mtval⟩,
    csrWrite_mtvec_of_ne s v mtvec, csrWrite_mscratch_of_ne s v mscratch, csrWrite_medeleg_of_ne s v medeleg,
    csrWrite_mideleg_of_ne s v mideleg, csrWrite_pmpcfg_of_ne s v notPmp.1, csrWrite_pmpaddr_of_ne s v notPmp.2,
    fun i hidden => ?_, fun i undelegated => ?_, fun i undelegated => ?_⟩
  · by_cases isStatus : c = .sstatus
    · rw [isStatus]
      change (withMask s.mstatus v sstatusMask).getLsbD i = _
      rw [getLsbD_withMask, getLsbD_sstatusMask, decide_eq_false hidden]
      rfl
    · rw [csrWrite_mstatus_of_ne s v (by revert c; decide)]
  · by_cases isSie : c = .sie
    · rw [isSie, getLsbD_csrWrite_sie_mie, if_neg undelegated]
    · rw [csrWrite_mie_of_ne s v (by revert c; decide)]
  · by_cases isSip : c = .sip
    · rw [isSip, getLsbD_csrWrite_sip_mipSw, if_neg undelegated]
    · rw [csrWrite_mipSw_of_ne s v (by revert c; decide)]

/-- An instruction below M-mode that does not end in M-mode leaves the machine registers. -/
theorem ExecNext.leavesMachineRegisters {s t : State} {i : Instr} (h : ExecNext s i t) (below : s.priv ≠ .machine)
    (stays : t.priv ≠ .machine) : LeavesMachineRegisters s t := by
  cases h with
  | raised e tval on => exact .of_sameCsrs on.effect.sameCsrs (leavesMachineRegisters_takeTrap stays)
  | mret machine => exact absurd machine below
  | sret => exact leavesMachineRegisters_returnFromS s
  | wfi => exact leavesMachineRegisters_of_sameCsrs (sameCsrs_refl s)
  | fence => exact leavesMachineRegisters_of_sameCsrs (sameCsrs_refl s)
  | csr willWrite v number access =>
    obtain ⟨names, _, level, _⟩ := access
    have low : modeCode s.priv ≤ 1 := by
      cases hp : s.priv with
      | machine => exact absurd hp below
      | supervisor => decide
      | user => decide
    cases willWrite with
    | true => exact leavesMachineRegisters_csrWrite s v ((csrLevel_of_named names).2 (Nat.le_trans level low))
    | false => exact leavesMachineRegisters_of_sameCsrs (sameCsrs_refl s)
  | add _ _ _ _ _ located =>
    exact leavesMachineRegisters_of_sameCsrs (locate_effect s _ _ .store _ located).sameCsrs

/-- Settles O60: a trap that stays below goes to S-mode, `mret` is illegal, and the views reach what they show alone. -/
theorem lowerModesLeaveMachineRegisters : Obligations.LowerModesLeaveMachineRegisters := by
  intro s t below done stays
  change LeavesMachineRegisters s t
  cases stepNext_of_step done with
  | interrupt i => exact .of_sameCsrs (sameCsrs_refl s) (leavesMachineRegisters_takeTrap (s := s.sampleLines) stays)
  | waits => exact leavesMachineRegisters_of_sameCsrs (sameCsrs_refl s)
  | faults fetched =>
    obtain ⟨_, _, _, csrs⟩ := fetched_as_before (fetch_raised_effect fetched)
    exact .of_sameCsrs csrs (leavesMachineRegisters_takeTrap stays)
  | illegal fetched =>
    obtain ⟨_, _, _, csrs⟩ := fetched_as_before (fetch_effect fetched)
    exact .of_sameCsrs csrs (leavesMachineRegisters_takeTrap stays)
  | runs _ fetched _ ran =>
    obtain ⟨priv, _, _, csrs⟩ := fetched_as_before (fetch_effect fetched)
    exact .of_sameCsrs csrs (ran.leavesMachineRegisters (priv ▸ below) stays)

end Sys2Proof.Machine
end

section
/-! Reset: the invariant, and what PMP then allows (10_state.md R61; 20_memory.md R117; 70_reset_and_hazards.md R270,
R271). -/

namespace Sys2Proof.Machine

/-! ## PMP after reset -/

/-- Entries that have no region match nothing, so M-mode alone gets through (R117). -/
theorem pmpFrom_of_no_region {s : State} (off : ∀ i, s.pmpRegion i = none) (pa len : Nat) (acc : Access) (p : Mode)
    (i n : Nat) : s.pmpFrom pa len acc p i n = decide (p = .machine) := by
  induction n generalizing i with
  | zero => rfl
  | succ n ih => rw [State.pmpFrom, off i, ih]

theorem resetOf_pmpRegion (c : Config) (i : Nat) : (State.resetOf c).pmpRegion i = none :=
  pmpRegion_of_off (by rw [resetOf_pmpCfg]; rfl)

/-- Settles O55: every entry is off. -/
theorem resetDeniesLowerModes : Obligations.ResetDeniesLowerModes := by
  intro c pa n acc p
  have check : (State.resetOf c).pmpCheck pa n acc p = (decide (c.pmpCount = 0) || decide (p = .machine)) := by
    rw [State.pmpCheck, pmpFrom_of_no_region (resetOf_pmpRegion c)]
    rfl
  rw [check, Bool.or_eq_true, decide_eq_true_iff, decide_eq_true_iff]

/-! ## `satp` after reset -/

/-- The MODE value of an address-translation mode, with the other fields zero (R55, R56). -/
def satpOfMode : SatpMode → Word
  | .bare => 0
  | .sv32 => 0x80000000
  | .sv39 => 0x8000000000000000
  | .sv48 => 0x9000000000000000

/-- The mode is one that `satp` of this XLEN has (R55, R56). -/
def modeOfXlen : XLen → SatpMode → Bool
  | _, .bare => true
  | .rv32, .sv32 => true
  | .rv64, .sv39 => true
  | .rv64, .sv48 => true
  | _, _ => false

theorem satpModeOf_satpOfMode {x : XLen} {m : SatpMode} (h : modeOfXlen x m = true) :
    satpModeOf x (satpOfMode m) = some m := by
  revert h
  cases x <;> cases m <;> decide

theorem fits_satpOfMode {x : XLen} {m : SatpMode} (h : modeOfXlen x m = true) : fits x (satpOfMode m) := by
  unfold fits
  revert h
  cases x <;> cases m <;> decide

theorem satpOfMode_inside {c : Config} {m : SatpMode} (h : modeOfXlen c.xlen m = true) :
    satpOfMode m &&& ~~~satpMask c = 0#64 := by
  have inside : ∀ {top : Word} (rest rest' : Word), satpOfMode m &&& ~~~top = 0#64 →
      satpOfMode m &&& ~~~(top ||| rest ||| rest') = 0#64 := fun {top} rest rest' hm => by
    rw [and_not_eq_zero_iff] at hm ⊢
    intro i hi
    rw [BitVec.getLsbD_or, BitVec.getLsbD_or, hm i hi]
    rfl
  unfold satpMask
  cases hx : c.xlen with
  | rv32 => exact inside _ _ (by rw [hx] at h; revert h; cases m <;> decide)
  | rv64 => exact inside _ _ (by rw [hx] at h; revert h; cases m <;> decide)

/-- Reset puts a member of `SATP_MODES` into MODE, where there is one (R61). -/
theorem satpAtReset_eq (c : Config) :
    ∃ m, satpAtReset c = satpOfMode m ∧ (m ∈ c.satpModes ∨ (m = .bare ∧ c.satpModes = [])) := by
  unfold satpAtReset
  split
  · next bare => exact ⟨.bare, rfl, .inl (List.contains_iff_mem.1 bare)⟩
  · split
    · next empty => exact ⟨.bare, rfl, .inr ⟨rfl, empty⟩⟩
    · next listed => exact ⟨.bare, rfl, .inl (by rw [listed]; simp)⟩
    · next listed => exact ⟨.sv32, rfl, .inl (by rw [listed]; simp)⟩
    · next listed => exact ⟨.sv39, rfl, .inl (by rw [listed]; simp)⟩
    · next listed => exact ⟨.sv48, rfl, .inl (by rw [listed]; simp)⟩

/-- What an admitted configuration says of `SATP_MODES` (00_scope.md R4). -/
theorem satpModesOk_iff (c : Config) :
    c.satpModesOk = true ↔
      (c.hasS = true → c.satpModes ≠ []) ∧ ∀ m ∈ c.satpModes, modeOfXlen c.xlen m = true := by
  have modes : c.satpModesOk = ((!c.hasS || !c.satpModes.isEmpty) && c.satpModes.all (modeOfXlen c.xlen)) := by
    refine congrArg (_ && c.satpModes.all ·) (funext fun m => ?_)
    cases c.xlen <;> cases m <;> rfl
  rw [modes]
  cases c.hasS <;> simp

/-! ## The invariant -/

theorem fits_of_toNat_lt {x : XLen} {w : Word} (h : w.toNat < 2 ^ x.bits) : fits x w := by
  cases x with
  | rv64 => rfl
  | rv32 =>
    have low := fits_low .rv32 w.toNat h
    rwa [BitVec.ofNat_toNat, BitVec.setWidth_eq] at low

theorem mstatusOk_resetOf (c : Config) : MstatusOk c (State.resetOf c).mstatus := by
  have value : (State.resetOf c).mstatus = if c.hasU then 0#64 else maskMPP := rfl
  rw [value]
  cases hasU : c.hasU with
  | true => exact ⟨by simp [legalMpp, modeOfCode, hasMode, hasU], BitVec.zero_and⟩
  | false => exact ⟨rfl, (and_not_eq_zero_iff _ _).2 (maskMPP_inside c)⟩

theorem resetOf_readReg (c : Config) (r : RegIdx) : (State.resetOf c).readReg r = 0#64 := by
  simp [State.readReg, State.resetOf]

theorem resetOf_pmpAddr (c : Config) (i : Nat) : (State.resetOf c).pmpAddr i = 0#64 := by
  simp [State.pmpAddr, State.resetOf]

theorem widthsOk_resetOf {c : Config} (pc : fits c.xlen c.resetVector) (satp : fits c.xlen (satpAtReset c)) :
    (State.resetOf c).WidthsOk where
  pc := pc
  x r := by rw [resetOf_readReg]; exact fits_zero _
  mstatus := (mstatusOk_resetOf c).fits _
  mtvec := fits_zero _
  mepc := fits_zero _
  mcause := fits_zero _
  mtval := fits_zero _
  mscratch := fits_zero _
  stvec := fits_zero _
  sepc := fits_zero _
  scause := fits_zero _
  stval := fits_zero _
  sscratch := fits_zero _
  satp := satp

theorem pmpOk_resetOf (c : Config) : (State.resetOf c).PmpOk where
  reserved i := by rw [resetOf_pmpCfg]; rfl
  readWrite i := by rw [resetOf_pmpCfg]; decide
  addr i := by rw [resetOf_pmpAddr]; exact BitVec.zero_and
  absentCfg i _ := resetOf_pmpCfg c i
  absentAddr i _ := resetOf_pmpAddr c i

theorem inv_resetOf {c : Config} (h : c.wf = true) : (State.resetOf c).Inv := by
  have clauses := h
  simp only [Config.wf, Config.resetVectorOk, Config.romOk, Bool.and_eq_true, decide_eq_true_eq] at clauses
  obtain ⟨⟨⟨⟨_, modes⟩, aligned, width⟩, _⟩, rom, _⟩ := clauses
  obtain ⟨nonempty, ofXlen⟩ := (satpModesOk_iff c).1 modes
  obtain ⟨m, satp, listed⟩ := satpAtReset_eq c
  have okMode : modeOfXlen c.xlen m = true := by
    rcases listed with member | ⟨rfl, _⟩
    · exact ofXlen m member
    · cases c.xlen <;> rfl
  exact {
    cfg := h
    widths := widthsOk_resetOf (fits_of_toNat_lt width) (satp ▸ fits_satpOfMode okMode)
    aligned := ⟨aligned, rfl, rfl, rfl, rfl⟩
    modes := ⟨rfl, (mstatusOk_resetOf c).mpp, (mstatusOk_resetOf c).hardwired⟩
    interrupts := ⟨BitVec.zero_and, BitVec.zero_and, BitVec.zero_and, BitVec.zero_and⟩
    satp := {
      mode := fun hasS => ⟨m, (congrArg (satpModeOf c.xlen) satp).trans (satpModeOf_satpOfMode okMode), by
        rcases listed with member | ⟨_, empty⟩
        · exact List.contains_iff_mem.2 member
        · exact absurd empty (nonempty hasS)⟩
      bits := (congrArg (· &&& ~~~satpMask c) satp).trans (satpOfMode_inside okMode) }
    pmp := pmpOk_resetOf c
    memory := ⟨rom, rfl⟩ }

/-- Settles O56: the default configuration is one of those R2 and R4 allow. -/
theorem resetSatisfiesInvariant : Obligations.ResetSatisfiesInvariant :=
  ⟨rfl, inv_resetOf (by decide +kernel), fun _ => inv_resetOf⟩

end Sys2Proof.Machine
end

section
/-! `sfence.vma` takes away what it covers: the walk right after it (41_sfence_wfi.md R170; 20_memory.md R121, R128). -/

namespace Sys2Proof.Machine

/-! ## The reads of a walk -/

/-- One of the reads is of the entry of this level at this address, and it returned this value. -/
def Returned (uses : List PteUse) (level addr : Nat) (v : Word) : Prop :=
  ∃ u ∈ uses, u.level = level ∧ u.addr = addr ∧ u.value = v

/-- Each read returned the value in memory, or an earlier one. -/
def ReadsCurrentOrHeld (s : State) (m : SatpMode) (uses : List PteUse) : Prop :=
  ∀ u ∈ uses, (u.value = s.pteAt m u.addr ∧ u.age = 0) ∨ ((u.value, u.age) ∈ s.pteHeld m u.addr ∧ 0 < u.age)

theorem walk_readsCurrentOrHeld (s : State) (satp va : Word) (acc : Access) (p : Mode) (choice : Nat → Nat) :
    ReadsCurrentOrHeld s (s.satpMode satp) (s.walk satp va acc p choice).uses := fun u hu =>
  (walk_use s satp va acc p choice u hu).imp_right fun ⟨held, old, _⟩ => ⟨held, old⟩

theorem ReadsCurrentOrHeld.value {s : State} {m : SatpMode} {uses : List PteUse} (h : ReadsCurrentOrHeld s m uses)
    {level addr : Nat} {v : Word} (returned : Returned uses level addr v) :
    v = s.pteAt m addr ∨ v ∈ (s.pteHeld m addr).map Prod.fst := by
  obtain ⟨u, hu, _, rfl, rfl⟩ := returned
  rcases h u hu with ⟨current, _⟩ | ⟨held, _⟩
  · exact .inl current
  · exact .inr (List.mem_map.2 ⟨_, held, rfl⟩)

/-- Right after the fence every value a walk returns is one from the time of the fence. -/
theorem ReadsCurrentOrHeld.mem_usedAtFence {s : State} {m : SatpMode} {uses : List PteUse}
    (h : ReadsCurrentOrHeld s m uses) (level addr : Nat) (v : Word) :
    v ∈ s.usedAtFence m uses level addr 0 ↔ Returned uses level addr v := by
  rw [Machine.mem_usedAtFence]
  constructor
  · rintro ⟨u, used, _, value⟩
    obtain ⟨hu, level, addr⟩ := (mem_usedAt uses level addr u).1 used
    exact ⟨u, hu, level, addr, value⟩
  · rintro ⟨u, hu, rfl, rfl, value⟩
    refine ⟨u, (mem_usedAt uses _ _ u).2 ⟨hu, rfl, rfl⟩, ?_, value⟩
    rcases h u hu with ⟨current, _⟩ | ⟨_, old⟩
    · exact .inr (by rw [pteBefore_zero, current])
    · exact .inl old

theorem ReadsCurrentOrHeld.usedAtFence_eq_nil_iff {s : State} {m : SatpMode} {uses : List PteUse}
    (h : ReadsCurrentOrHeld s m uses) (level addr : Nat) :
    s.usedAtFence m uses level addr 0 = [] ↔ ¬ ∃ v, Returned uses level addr v := by
  simp only [List.eq_nil_iff_forall_not_mem, h.mem_usedAtFence, not_exists]

/-! ## Mappings -/

/-- A valid leaf among a walk's reads is the leaf of the mapping that these reads are. -/
theorem mapsTo_of_walkFrom (s : State) (m : SatpMode) (va : Word) (acc : Access) (p : Mode) (choice : Nat → Nat)
    {entry : Nat → Nat → Word → Prop} {accepts : Word → Prop} (n a : Nat)
    (admits : ∀ u ∈ (s.walkFrom m va acc p choice n a).uses, entry u.level u.addr u.value) (u : PteUse)
    (hu : u ∈ (s.walkFrom m va acc p choice n a).uses) (leaf : pteValidLeaf u.value = true) (accepted : accepts u.value) :
    mapsTo m va entry accepts n a := by
  induction n generalizing a with
  | zero => cases hu
  | succ i ih =>
    rcases walkFrom_cases s m va acc p choice i a _ rfl with ⟨_, walk⟩ | ⟨_, _, walk⟩ |
      ⟨_, _, value, age, _, ⟨_, walk⟩ | ⟨_, _, _, walk⟩ | ⟨valid, pointer, walk⟩⟩
    · rw [walk] at hu; cases hu
    · rw [walk] at hu; cases hu
    · have entered := admits u hu
      rw [walk, List.mem_singleton] at hu
      subst hu
      exact ⟨value, entered, .inl ⟨leaf, accepted⟩⟩
    · have entered := admits u hu
      rw [walk, List.mem_singleton] at hu
      subst hu
      exact ⟨value, entered, .inl ⟨leaf, accepted⟩⟩
    · rw [walk] at hu admits
      refine ⟨value, admits _ List.mem_cons_self, .inr ⟨valid, pointer, ?_⟩⟩
      rcases List.mem_cons.1 hu with rfl | later
      · rw [pteValidLeaf, pointer, Bool.and_false] at leaf; cases leaf
      · exact ih _ (fun v hv => admits v (List.mem_cons_of_mem _ hv)) later

/-- What `mapsGlobally` says, with its local definitions put in. -/
theorem mapsGlobally_iff (s : State) (satp va : Word) (uses : List PteUse) :
    mapsGlobally s satp va uses ↔
      (canonical (s.satpMode satp) va = true ∧
        mapsTo (s.satpMode satp) va
          (fun level addr v =>
            (v = s.pteAt (s.satpMode satp) addr ∨ v ∈ (s.pteHeld (s.satpMode satp) addr).map Prod.fst) ∧
              ((∃ v', Returned uses level addr v') → Returned uses level addr v))
          (fun v => pteG v = true) (levels (s.satpMode satp)) (satpPpn s.cfg.xlen satp * 4096)) ∨
      (¬ (canonical (s.satpMode satp) va = true ∧
          mapsTo (s.satpMode satp) va
            (fun level addr v => Returned uses level addr v ∨
              ((¬ ∃ v', Returned uses level addr v') ∧ v = s.pteAt (s.satpMode satp) addr))
            (fun _ => True) (levels (s.satpMode satp)) (satpPpn s.cfg.xlen satp * 4096)) ∧
        ∃ root, (root = satp ∨ (root = s.satp ∧ satpAsid s.cfg.xlen root = satpAsid s.cfg.xlen satp)) ∧
          canonical (s.satpMode root) va = true ∧
          mapsTo (s.satpMode root) va
            (fun level addr v => v = s.pteAt (s.satpMode root) addr ∨ Returned uses level addr v)
            (fun v => pteG v = true) (levels (s.satpMode root)) (satpPpn s.cfg.xlen root * 4096)) := Iff.rfl

/-- The pointers that the reads returned, and the entries given, are what the mapping of a fence may go through. -/
theorem fenceMappingHas_iff (s : State) (satp va : Word) (uses : List PteUse) (entries : Nat → Nat → List Word)
    (accepts : Word → Bool) :
    s.fenceMappingHas satp va uses entries accepts = true ↔
      canonical (s.satpMode satp) va = true ∧
        mapsTo (s.satpMode satp) va
          (fun level addr v => v ∈ entries level addr ∨
            (Returned uses level addr v ∧ pteInvalid v = false ∧ pteLeaf v = false))
          (fun v => accepts v = true) (levels (s.satpMode satp)) (satpPpn s.cfg.xlen satp * 4096) := by
  rw [State.fenceMappingHas, Bool.and_eq_true, mappingHas_iff]
  simp only [List.mem_append, List.mem_filter, List.mem_map, mem_usedAt, Bool.and_eq_true, Bool.not_eq_true', Returned,
    and_assoc]

/-! ## A global mapping at a fence that has just run -/

section
variable {s : State} {satp va : Word} {uses : List PteUse} (reads : ReadsCurrentOrHeld s (s.satpMode satp) uses)
include reads

/-- The mapping of the fence that agrees with the walk is in memory or remembered, and agrees with the walk. -/
theorem mapsGlobally_of_pteAtFence
    (h : s.fenceMappingHas satp va uses (fun level addr => s.pteAtFence (s.satpMode satp) va uses level addr 0) pteG =
      true) : mapsGlobally s satp va uses := by
  obtain ⟨ok, maps⟩ := (fenceMappingHas_iff s satp va uses _ pteG).1 h
  refine (mapsGlobally_iff s satp va uses).2 (.inl ⟨ok, mapsTo_mono (fun level addr v entry => ?_) (fun _ => id) _ _ maps⟩)
  have agrees : Returned uses level addr v →
      (v = s.pteAt (s.satpMode satp) addr ∨ v ∈ (s.pteHeld (s.satpMode satp) addr).map Prod.fst) ∧
        ((∃ v', Returned uses level addr v') → Returned uses level addr v) :=
    fun returned => ⟨reads.value returned, fun _ => returned⟩
  rcases entry with atFence | ⟨returned, _⟩
  · rcases (mem_pteAtFence s _ va uses level addr 0 v).1 atFence with used | ⟨unread, value⟩
    · exact agrees ((reads.mem_usedAtFence level addr v).1 used)
    · refine ⟨?_, fun read => absurd read ((reads.usedAtFence_eq_nil_iff level addr).1 unread)⟩
      rcases value with current | ⟨age, held, _⟩
      · exact .inl (current.trans (pteBefore_zero s _ addr))
      · exact .inr (List.mem_map.2 ⟨_, held, rfl⟩)
  · exact agrees returned

/-- Where the values of the walk map something, so do they at the fence. -/
theorem fenceMappingHas_of_returned
    (h : canonical (s.satpMode satp) va = true ∧
      mapsTo (s.satpMode satp) va
        (fun level addr v => Returned uses level addr v ∨
          ((¬ ∃ v', Returned uses level addr v') ∧ v = s.pteAt (s.satpMode satp) addr))
        (fun _ => True) (levels (s.satpMode satp)) (satpPpn s.cfg.xlen satp * 4096)) :
    s.fenceMappingHas satp va uses (fun level addr => s.pteOfWalk (s.satpMode satp) uses level addr 0)
      (fun _ => true) = true := by
  obtain ⟨ok, maps⟩ := h
  refine (fenceMappingHas_iff s satp va uses _ _).2
    ⟨ok, mapsTo_mono (fun level addr v entry => .inl ?_) (fun _ _ => rfl) _ _ maps⟩
  rw [mem_pteOfWalk, reads.mem_usedAtFence, reads.usedAtFence_eq_nil_iff, pteBefore_zero]
  exact entry

end

theorem mapsTo_of_memoryGlobal {s : State} {root va : Word} {uses : List PteUse}
    (h : s.memoryGlobal root va uses 0 = true) :
    canonical (s.satpMode root) va = true ∧
      mapsTo (s.satpMode root) va
        (fun level addr v => v = s.pteAt (s.satpMode root) addr ∨ Returned uses level addr v)
        (fun v => pteG v = true) (levels (s.satpMode root)) (satpPpn s.cfg.xlen root * 4096) := by
  obtain ⟨ok, maps⟩ := (fenceMappingHas_iff s root va uses _ pteG).1 h
  refine ⟨ok, mapsTo_mono (fun level addr v entry => ?_) (fun _ => id) _ _ maps⟩
  rcases entry with memory | ⟨returned, _⟩
  · exact .inl ((List.mem_singleton.1 memory).trans (pteBefore_zero s _ addr))
  · exact .inr returned

/-- Where the walk's own leaf is global, the mapping its reads are is. -/
theorem mapsGlobally_of_leaf (s : State) (satp va : Word) (acc : Access) (p : Mode) (choice : Nat → Nat) (u : PteUse)
    (hu : u ∈ (s.walk satp va acc p choice).uses) (leaf : pteValidLeaf u.value = true) (isGlobal : pteG u.value = true) :
    mapsGlobally s satp va (s.walk satp va acc p choice).uses := by
  have reads := walk_readsCurrentOrHeld s satp va acc p choice
  rcases walk_cases s satp va acc p choice with ⟨ok, walk⟩ | ⟨_, walk⟩
  · rw [walk] at hu reads ⊢
    refine (mapsGlobally_iff s satp va _).2 (.inl ⟨(canonical_iff _ va).2 ok, ?_⟩)
    refine mapsTo_of_walkFrom s _ va acc p choice _ _ (fun v hv => ?_) u hu leaf isGlobal
    have returned : Returned _ v.level v.addr v.value := ⟨v, hv, rfl, rfl, rfl⟩
    exact ⟨reads.value returned, fun _ => returned⟩
  · rw [walk] at hu
    cases hu

/-- What the model's test of a fence that has just run finds global is so. -/
theorem mapsGlobally_of_globalAtFence (s : State) (satp va : Word) (satpAge : Nat) (acc : Access) (p : Mode)
    (choice : Nat → Nat) (h : s.globalAtFence satp satpAge va (s.walk satp va acc p choice).uses 0 = true) :
    mapsGlobally s satp va (s.walk satp va acc p choice).uses := by
  have reads := walk_readsCurrentOrHeld s satp va acc p choice
  unfold State.globalAtFence at h
  dsimp only at h
  split at h
  · next u found =>
    have test := List.find?_some found
    rw [Bool.and_eq_true] at test
    exact mapsGlobally_of_leaf s satp va acc p choice u (List.mem_of_find?_eq_some found) test.2 h
  · rw [Bool.or_eq_true, Bool.and_eq_true, Bool.or_eq_true, Bool.and_eq_true, Bool.and_eq_true, Bool.not_eq_true'] at h
    rcases h with agrees | ⟨mapsNothing, inMemory⟩
    · exact mapsGlobally_of_pteAtFence reads agrees
    · refine (mapsGlobally_iff s satp va _).2 (.inr ⟨fun maps => ?_, ?_⟩)
      · rw [fenceMappingHas_of_returned reads maps] at mapsNothing
        cases mapsNothing
      · rcases inMemory with ofWalk | ⟨⟨_, sameSpace⟩, current⟩
        · exact ⟨satp, .inl rfl, mapsTo_of_memoryGlobal ofWalk⟩
        · exact ⟨s.satp, .inr ⟨rfl, of_decide_eq_true sameSpace⟩, mapsTo_of_memoryGlobal current⟩

/-! ## The walk right after a fence -/

/-- The walk of a translation uses current values throughout, or values no fence has taken away. -/
theorem chosenWalk_allowed (s : State) (va : Word) (acc : Access) (p : Mode) :
    ((s.chosenWalk va acc p).1 = s.satp ∧
        ∀ u ∈ (s.chosenWalk va acc p).2.uses, u.value = s.pteAt (s.satpMode (s.chosenWalk va acc p).1) u.addr) ∨
      ∃ satp age choice, s.chosenWalk va acc p = (satp, s.walk satp va acc p choice) ∧ (age = 0 → satp = s.satp) ∧
        s.walkAllowed satp age va (s.walk satp va acc p choice) = true := by
  rcases chosenWalk_cases s va acc p with ⟨satp, age, choice, chosen, value, allowed⟩ | chosen
  · refine .inr ⟨satp, age, choice, chosen, fun young => ?_, allowed⟩
    rcases value with current | ⟨_, old⟩
    · exact (Prod.mk.inj current).1
    · exact absurd young (Nat.pos_iff_ne_zero.1 old)
  · rw [chosen]
    refine .inl ⟨rfl, fun u hu => ?_⟩
    rcases walk_use s s.satp va acc p _ u hu with ⟨current, _⟩ | ⟨_, _, notFirst⟩
    · exact current
    · exact absurd rfl notFirst

theorem walkAllowed_iff (s : State) (satp : Word) (satpAge : Nat) (va : Word) (w : Walk) :
    s.walkAllowed satp satpAge va w = true ↔
      coveredWithin (fun n => fenceCovers (s.satpMode satp) va (satpAsid s.cfg.xlen satp)
          (s.globalAtFence satp satpAge va w.uses n) none) 0 satpAge s.hist = false ∧
        ∀ u ∈ w.uses, coveredWithin (fun n => fenceCovers (s.satpMode satp) va (satpAsid s.cfg.xlen satp)
          (s.globalAtFence satp satpAge va w.uses n)
          (if s.leafAtFence (s.satpMode satp) u n then some u.level else none)) 0 u.age s.hist = false := by
  simp only [State.walkAllowed, Bool.and_eq_true, Bool.not_eq_true', List.all_eq_true]

/-- A fence covers the leaf of the page it names, and with no address every read, in the spaces it names (R170). -/
theorem fenceCovers_iff (m : SatpMode) (va : Word) (asid : Nat) (isGlobal : Bool) (leafLevel : Option Nat)
    (fva : Option Word) (fasid : Option Nat) :
    fenceCovers m va asid isGlobal leafLevel fva fasid = true ↔
      (∀ a, fasid = some a → a = asid ∧ isGlobal = false) ∧
        (∀ v, fva = some v → ∃ l, leafLevel = some l ∧
          v.toNat / 2 ^ (12 + vpnBits m * l) = va.toNat / 2 ^ (12 + vpnBits m * l)) := by
  cases fasid <;> cases fva <;> cases leafLevel <;> simp [fenceCovers]

theorem leafAtFence_zero_iff (s : State) (m : SatpMode) (u : PteUse) :
    s.leafAtFence m u 0 = true ↔
      u.level = 0 ∨ pteValidLeaf u.value = true ∨
        (pteInvalid u.value = true ∧ pteValidLeaf (s.pteAt m u.addr) = true) := by
  simp [State.leafAtFence, or_assoc]

/-- What is remembered after a fence: nothing, or the fence first. -/
theorem fenced_hist (s : State) (rs1 rs2 : RegIdx) :
    (s.fenced rs1 rs2).hist = [] ∨
      (s.fenced rs1 rs2).hist = .fence (s.fenceAddress rs1) (s.fenceSpace rs2) :: s.hist := by
  change histFenced _ _ s.hist = [] ∨ histFenced _ _ s.hist = _
  unfold histFenced
  split
  · exact .inl rfl
  · split
    · exact .inl rfl
    · exact .inr rfl

theorem fenceSpace_some {s : State} {rs2 : RegIdx} {a : Nat} (h : s.fenceSpace rs2 = some a) :
    rs2 ≠ 0#5 ∧ a = (s.readReg rs2).toNat % 2 ^ s.cfg.asidLen := by
  unfold State.fenceSpace at h
  split at h
  · cases h
  · next given => exact ⟨given, (Option.some.inj h).symm⟩

theorem fenceAddress_of_zero (s : State) : s.fenceAddress 0#5 = none := rfl

theorem fenceAddress_of_ne {s : State} {rs1 : RegIdx} (h : rs1 ≠ 0#5) : s.fenceAddress rs1 = some (s.readReg rs1) :=
  if_neg h

/-- Settles O25: the fence stands newest in the record, and what it covers may not be older than it. -/
theorem fenceForgetsTranslations : Obligations.FenceForgetsTranslations := by
  intro s t rs1 rs2 va acc p hasS legal done m named
  have fence : t = s.fenced rs1 rs2 := by
    rw [exec_sfenceVma_of_legal ((not_supervisorOnly_iff s bitTVM).2 ⟨hasS, legal⟩)] at done
    exact (Host.Outcome.next.inj done).symm
  rcases chosenWalk_allowed t va acc p with ⟨same, values⟩ | ⟨satp, age, choice, chosen, young, allowed⟩
  · exact ⟨fun _ => ⟨same, values⟩, fun _ u hu _ _ => values u hu⟩
  rcases fenced_hist s rs1 rs2 with empty | newest
  · obtain ⟨same, values⟩ := chosenWalk_of_hist_nil t va acc p (fence ▸ empty)
    rw [← same] at values
    exact ⟨fun _ => ⟨same, values⟩, fun _ u hu _ _ => values u hu⟩
  rw [← fence] at newest
  subst m
  rw [chosen] at named ⊢
  obtain ⟨satpUncovered, uncovered⟩ := (walkAllowed_iff t satp age va _).1 allowed
  rw [newest] at satpUncovered uncovered
  have space : ∀ a, s.fenceSpace rs2 = some a → a = satpAsid t.cfg.xlen satp ∧
      t.globalAtFence satp age va (t.walk satp va acc p choice).uses 0 = false := fun a ha => by
    obtain ⟨given, rfl⟩ := fenceSpace_some ha
    rcases named with absent | ⟨asid, notGlobal⟩
    · exact absurd absent given
    · exact ⟨asid.symm, Bool.eq_false_iff.2 (mt (mapsGlobally_of_globalAtFence t satp va age acc p choice) notGlobal)⟩
  have isCurrent : ∀ u ∈ (t.walk satp va acc p choice).uses, u.age = 0 →
      u.value = t.pteAt (t.satpMode satp) u.addr := fun u hu fresh => by
    rcases walk_use t satp va acc p choice u hu with ⟨current, _⟩ | ⟨_, old, _⟩
    · exact current
    · exact absurd fresh (Nat.pos_iff_ne_zero.1 old)
  refine ⟨fun noAddress => ?_, fun address u hu isLeaf samePage => ?_⟩
  · subst noAddress
    rw [fenceAddress_of_zero] at satpUncovered uncovered
    refine ⟨young ?_, fun u hu => isCurrent u hu ?_⟩
    · exact age_of_not_covered _ _ _ _ _ satpUncovered ((fenceCovers_iff _ _ _ _ _ _ _).2 ⟨space, nofun⟩)
    · exact age_of_not_covered _ _ _ _ _ (uncovered u hu) ((fenceCovers_iff _ _ _ _ _ _ _).2 ⟨space, nofun⟩)
  · rw [fenceAddress_of_ne address] at uncovered
    refine isCurrent u hu (age_of_not_covered _ _ _ _ _ (uncovered u hu) ((fenceCovers_iff _ _ _ _ _ _ _).2 ⟨space, ?_⟩))
    rintro v ⟨⟩
    exact ⟨u.level, if_pos ((leafAtFence_zero_iff t _ u).2 isLeaf), samePage⟩

end Sys2Proof.Machine
end
